-- ==== Sys2Proof/Word.lean ====
section
/-! DEFINITION. The word types of the CORE (00_scope.md R8) and the names of its eight units (R1, 30_encoding.md R66). -/

namespace Sys2Proof

/-- A byte: one character, one DB element (R14, R64). -/
abbrev Byte := BitVec 8

/-- The 16-bit width of the CRC register and of its configuration (R8, R33). -/
abbrev Half := BitVec 16

/-- A 32-bit word of the command port: CMD or DATA (R8, R63). -/
abbrev Word := BitVec 32

/-- The eight units, in the order of their unit numbers 0..7 (R1, R66). -/
inductive UnitId where
  | b64e | b64d | hexe | hexd | bfp | bfu | crc | cks
  deriving DecidableEq, Repr

end Sys2Proof
end

