-- ==== Sys2Proof/Config.lean ====
section
/-! DEFINITION. What an implementation of the CORE fixes: the parameters of 00_scope.md, section 3. -/

namespace Sys2Proof

/-- The implementation parameters that a model takes as an argument: HEX_WIN_MAX (R5) and FIELD_LIST_MAX (R6), each a
natural number at least 1 (`Params.Wf`). -/
structure Params where
  hexWinMax : Nat
  fieldListMax : Nat
  deriving DecidableEq, Repr

/-- Both parameters are at least 1 (R5, R6). -/
abbrev Params.Wf (p : Params) : Prop := 1 ≤ p.hexWinMax ∧ 1 ≤ p.fieldListMax

/-- DESIGN CHOICE (notes/assumptions/1.md): the build that `State.reset` and `decodeTableWord` stand for has the parameters of the
spec's test vectors (R5, R6). Every meaning and every statement takes the parameters from the state, whatever they are. -/
def Config.params : Params := { hexWinMax := 16, fieldListMax := 8 }

/-- DESCRIBE_TEXT(u) (R7): one constant byte string per unit that the spec does not give. No body: nothing can be proved of the
text (notes/assumptions/2.md). -/
opaque Config.describeText : UnitId → List Byte

end Sys2Proof
end

