-- ==== Sys2Proof/Syntax.lean ====
section
/-! DEFINITION. The commands of the CORE: one constructor per row of spec/opcode_table.json (30_encoding.md, section 4). -/

namespace Sys2Proof

/-- The 48 commands. A list of bytes is a list of DB elements, a list of words a list of DV elements (`bfpFeed`) or of DP
parameters (the `Config` commands) (R64); the count N of the encoding is the list's length. -/
inductive Instr where
  -- base64_encoder (UNIT 0), R78 to R83
  | b64eDescribe
  | b64eReset
  | b64eConfig
  | b64eFeed (bytes : List Byte)
  | b64eFin
  | b64eOneshot (bytes : List Byte)
  -- base64_decoder (UNIT 1), R85 to R89
  | b64dDescribe
  | b64dReset
  | b64dConfig
  | b64dFeed (chars : List Byte)
  | b64dFin
  -- hex_encoder (UNIT 2), R94 to R99
  | hexeDescribe
  | hexeReset
  | hexeConfig (params : List Word)
  | hexeFeed (bytes : List Byte)
  | hexeFin
  | hexeQuery
  -- hex_decoder (UNIT 3), R102 to R107
  | hexdDescribe
  | hexdReset
  | hexdConfig (params : List Word)
  | hexdFeed (chars : List Byte)
  | hexdFin
  | hexdQuery
  -- bitfield_packer (UNIT 4), R114 to R119
  | bfpDescribe
  | bfpReset
  | bfpConfig (params : List Word)
  | bfpFeed (values : List Word)
  | bfpFin
  | bfpQuery
  -- bitfield_unpacker (UNIT 5), R121 to R126
  | bfuDescribe
  | bfuReset
  | bfuConfig (params : List Word)
  | bfuFeed (bytes : List Byte)
  | bfuFin
  | bfuQuery
  -- crc16_configurable_core (UNIT 6), R139 to R145
  | crcDescribe
  | crcReset
  | crcConfig (params : List Word)
  | crcFeed (bytes : List Byte)
  | crcFin
  | crcQuery
  | crcOneshot (bytes : List Byte)
  -- checksum_modular_accum (UNIT 7), R129 to R134
  | cksDescribe
  | cksReset
  | cksConfig
  | cksFeed (bytes : List Byte)
  | cksFin
  | cksQuery
  deriving DecidableEq, Repr

/-- The operations of the OP field (R67). FINALIZE is FEED with N = 0. -/
inductive Op where
  | describe | reset | config | feed | query | oneshot
  deriving DecidableEq, Repr

end Sys2Proof
end

