-- ==== Sys2Proof/WellFormed.lean ====
section
/-! DEFINITION. Which command terms the encoding can carry: the count ranges of 30_encoding.md R63 and R69. -/

namespace Sys2Proof

/-- The largest count N a CMD word can carry (R63). -/
def maxCount : Nat := 65535

/-- MAXP(u), the largest parameter count of CONFIG (R69). -/
def maxParams (p : Params) : UnitId → Nat
  | .b64e | .b64d | .cks => 0
  | .hexe | .hexd => 1
  | .crc => 5
  | .bfp | .bfu => p.fieldListMax + 4

/-- A FEED takes at least one element (R69; N = 0 is FINALIZE). -/
def feedCountOk {α : Type} (elements : List α) : Bool :=
  decide (1 ≤ elements.length) && decide (elements.length ≤ maxCount)

/-- A CONFIG of unit `u` takes at most MAXP(u) parameters (R69). -/
def configCountOk (p : Params) (u : UnitId) (params : List Word) : Bool :=
  decide (params.length ≤ maxParams p u) && decide (params.length ≤ maxCount)

/-- The command's count is in its legal range (R69). -/
def Instr.WellFormed (p : Params) : Instr → Bool
  | .b64eFeed bs | .b64dFeed bs | .hexeFeed bs | .hexdFeed bs | .bfuFeed bs | .crcFeed bs | .cksFeed bs => feedCountOk bs
  | .bfpFeed vs => feedCountOk vs
  | .b64eOneshot bs | .crcOneshot bs => decide (bs.length ≤ maxCount)
  | .hexeConfig ps => configCountOk p .hexe ps
  | .hexdConfig ps => configCountOk p .hexd ps
  | .bfpConfig ps => configCountOk p .bfp ps
  | .bfuConfig ps => configCountOk p .bfu ps
  | .crcConfig ps => configCountOk p .crc ps
  | .b64eDescribe | .b64eReset | .b64eConfig | .b64eFin => true
  | .b64dDescribe | .b64dReset | .b64dConfig | .b64dFin => true
  | .hexeDescribe | .hexeReset | .hexeFin | .hexeQuery => true
  | .hexdDescribe | .hexdReset | .hexdFin | .hexdQuery => true
  | .bfpDescribe | .bfpReset | .bfpFin | .bfpQuery => true
  | .bfuDescribe | .bfuReset | .bfuFin | .bfuQuery => true
  | .crcDescribe | .crcReset | .crcFin | .crcQuery => true
  | .cksDescribe | .cksReset | .cksConfig | .cksFin | .cksQuery => true

end Sys2Proof
end

