-- ==== Sys2Proof/Decode.lean ====
section
/-! DEFINITION. The command port's framing, the decoder with its order of checks, and the encoder (30_encoding.md R63 to R73). -/

namespace Sys2Proof

/-! ## The fields of a CMD word (R63) and of a DATA word (R64) -/

def unitField (cmd : Word) : BitVec 4 := cmd.extractLsb' 28 4
def opField (cmd : Word) : BitVec 4 := cmd.extractLsb' 24 4
def rsvField (cmd : Word) : BitVec 8 := cmd.extractLsb' 16 8
/-- N, a zero-extended 16-bit count (R69). -/
def countField (cmd : Word) : Nat := (cmd.extractLsb' 0 16).toNat

/-- A CMD word from its four fields (R63). -/
def header (unit op : BitVec 4) (rsv : BitVec 8) (n : Nat) : Word := unit ++ op ++ rsv ++ BitVec.ofNat 16 n

/-- DATA[31:8] of a DB word is zero (R64). -/
def isByteWord (d : Word) : Bool := d.extractLsb' 8 24 == 0#24

/-- The byte element DATA[7:0] (R70). -/
def lowByte (d : Word) : Byte := d.extractLsb' 0 8

/-- The DB word that carries a byte (R64). -/
def byteWord (b : Byte) : Word := b.setWidth 32

/-! ## Field values (R66, R67, R68, R69) -/

/-- UNIT values (R66). -/
def UnitId.number : UnitId → BitVec 4
  | .b64e => 0 | .b64d => 1 | .hexe => 2 | .hexd => 3 | .bfp => 4 | .bfu => 5 | .crc => 6 | .cks => 7

/-- The unit a UNIT value names; 8..15 are reserved (R66). -/
def unitOf (v : BitVec 4) : Option UnitId :=
  match v.toNat with
  | 0 => some .b64e
  | 1 => some .b64d
  | 2 => some .hexe
  | 3 => some .hexd
  | 4 => some .bfp
  | 5 => some .bfu
  | 6 => some .crc
  | 7 => some .cks
  | _ => none

/-- OP values (R67). -/
def Op.number : Op → BitVec 4
  | .describe => 0 | .reset => 1 | .config => 2 | .feed => 3 | .query => 4 | .oneshot => 5

/-- The operation an OP value names; 6..15 are reserved (R67). -/
def opOf (v : BitVec 4) : Option Op :=
  match v.toNat with
  | 0 => some .describe
  | 1 => some .reset
  | 2 => some .config
  | 3 => some .feed
  | 4 => some .query
  | 5 => some .oneshot
  | _ => none

/-- The legal (UNIT, OP) pairs (R68). -/
def legalPair : UnitId → Op → Bool
  | .b64e, .query => false
  | .b64d, .query => false
  | .b64e, .oneshot => true
  | .crc, .oneshot => true
  | _, .oneshot => false
  | _, .describe => true
  | _, .reset => true
  | _, .config => true
  | _, .feed => true
  | _, .query => true

/-- The count check of R72: N = 0 for DESCRIBE, RESET and QUERY, N ≤ MAXP(u) for CONFIG (R69). -/
def countLegal (p : Params) (u : UnitId) (op : Op) (n : Nat) : Bool :=
  match op with
  | .describe | .reset | .query => n == 0
  | .config => decide (n ≤ maxParams p u)
  | .feed | .oneshot => true

/-- The data check of R72: DB words only, for FEED and ONESHOT of every unit but BFP. -/
def dataLegal (u : UnitId) (op : Op) (data : List Word) : Bool :=
  match op with
  | .feed | .oneshot => u == .bfp || data.all isByteWord
  | .describe | .reset | .config | .query => true

/-! ## The decoder -/

/-- Why the common checks reject a command (R72). Each is answered with an error status (R148) and no other effect: safe. -/
inductive Reject where
  /-- CMD[31:28] ≥ 8 -/
  | illegalUnit
  /-- OP 6..15, or a pair marked "no" in R68 -/
  | illegalOp
  /-- CMD[23:16] ≠ 0 -/
  | reservedBits
  /-- a count outside its range (R69) -/
  | badCount
  /-- a DB word with DATA[31:8] ≠ 0 -/
  | dataRange
  deriving DecidableEq, Repr

/-- A FEED of a unit with byte elements; N = 0 is its FINALIZE (R67). -/
def feedOrFin (feed : List Byte → Instr) (fin : Instr) : List Word → Instr
  | [] => fin
  | d :: ds => feed ((d :: ds).map lowByte)

/-- The command of a (UNIT, OP) pair with its DATA words; none for a pair marked "no" in R68. -/
def build (u : UnitId) (op : Op) (data : List Word) : Option Instr :=
  match u, op with
  | .b64e, .describe => some .b64eDescribe
  | .b64e, .reset => some .b64eReset
  | .b64e, .config => some .b64eConfig
  | .b64e, .feed => some (feedOrFin .b64eFeed .b64eFin data)
  | .b64e, .query => none
  | .b64e, .oneshot => some (.b64eOneshot (data.map lowByte))
  | .b64d, .describe => some .b64dDescribe
  | .b64d, .reset => some .b64dReset
  | .b64d, .config => some .b64dConfig
  | .b64d, .feed => some (feedOrFin .b64dFeed .b64dFin data)
  | .b64d, .query => none
  | .b64d, .oneshot => none
  | .hexe, .describe => some .hexeDescribe
  | .hexe, .reset => some .hexeReset
  | .hexe, .config => some (.hexeConfig data)
  | .hexe, .feed => some (feedOrFin .hexeFeed .hexeFin data)
  | .hexe, .query => some .hexeQuery
  | .hexe, .oneshot => none
  | .hexd, .describe => some .hexdDescribe
  | .hexd, .reset => some .hexdReset
  | .hexd, .config => some (.hexdConfig data)
  | .hexd, .feed => some (feedOrFin .hexdFeed .hexdFin data)
  | .hexd, .query => some .hexdQuery
  | .hexd, .oneshot => none
  | .bfp, .describe => some .bfpDescribe
  | .bfp, .reset => some .bfpReset
  | .bfp, .config => some (.bfpConfig data)
  | .bfp, .feed => some (if data.isEmpty then .bfpFin else .bfpFeed data)
  | .bfp, .query => some .bfpQuery
  | .bfp, .oneshot => none
  | .bfu, .describe => some .bfuDescribe
  | .bfu, .reset => some .bfuReset
  | .bfu, .config => some (.bfuConfig data)
  | .bfu, .feed => some (feedOrFin .bfuFeed .bfuFin data)
  | .bfu, .query => some .bfuQuery
  | .bfu, .oneshot => none
  | .crc, .describe => some .crcDescribe
  | .crc, .reset => some .crcReset
  | .crc, .config => some (.crcConfig data)
  | .crc, .feed => some (feedOrFin .crcFeed .crcFin data)
  | .crc, .query => some .crcQuery
  | .crc, .oneshot => some (.crcOneshot (data.map lowByte))
  | .cks, .describe => some .cksDescribe
  | .cks, .reset => some .cksReset
  | .cks, .config => some .cksConfig
  | .cks, .feed => some (feedOrFin .cksFeed .cksFin data)
  | .cks, .query => some .cksQuery
  | .cks, .oneshot => none

/-- The command of a CMD word and its N DATA words, or the first check it fails, in the order of R72. -/
def decodeCommand (p : Params) (cmd : Word) (data : List Word) : Except Reject Instr :=
  match unitOf (unitField cmd) with
  | none => .error .illegalUnit
  | some u =>
    match opOf (opField cmd) with
    | none => .error .illegalOp
    | some op =>
      if legalPair u op = false then .error .illegalOp
      else if rsvField cmd ≠ 0#8 then .error .reservedBits
      else if countLegal p u op (countField cmd) = false then .error .badCount
      else if dataLegal u op data = false then .error .dataRange
      else
        match build u op data with
        | some i => .ok i
        | none => .error .illegalOp

/-- What stands at the command port: no whole command yet, or a CMD word with its N DATA words and the words after them (R39, R65). -/
inductive Fetched where
  | incomplete
  | command (cmd : Word) (data rest : List Word)
  deriving DecidableEq, Repr

/-- The CMD word alone fixes the command's length, 1 + CMD[15:0] words, whatever its other fields hold (R65). -/
def fetch : List Word → Fetched
  | [] => .incomplete
  | cmd :: ws =>
    if countField cmd ≤ ws.length then .command cmd (ws.take (countField cmd)) (ws.drop (countField cmd)) else .incomplete

/-- What the CORE makes of the words at its port. -/
inductive Decoded where
  | incomplete
  | rejected (why : Reject) (rest : List Word)
  | instr (i : Instr) (rest : List Word)
  deriving DecidableEq, Repr

/-- Decoding of the words at the command port, total on any words. A rejected command consumes its words too (R65). -/
def decode (p : Params) (ws : List Word) : Decoded :=
  match fetch ws with
  | .incomplete => .incomplete
  | .command cmd data rest =>
    match decodeCommand p cmd data with
    | .error why => .rejected why rest
    | .ok i => .instr i rest

/-! ## The encoder -/

/-- The unit a command addresses (the UNIT column of section 4). -/
def Instr.unit : Instr → UnitId
  | .b64eDescribe | .b64eReset | .b64eConfig | .b64eFeed _ | .b64eFin | .b64eOneshot _ => .b64e
  | .b64dDescribe | .b64dReset | .b64dConfig | .b64dFeed _ | .b64dFin => .b64d
  | .hexeDescribe | .hexeReset | .hexeConfig _ | .hexeFeed _ | .hexeFin | .hexeQuery => .hexe
  | .hexdDescribe | .hexdReset | .hexdConfig _ | .hexdFeed _ | .hexdFin | .hexdQuery => .hexd
  | .bfpDescribe | .bfpReset | .bfpConfig _ | .bfpFeed _ | .bfpFin | .bfpQuery => .bfp
  | .bfuDescribe | .bfuReset | .bfuConfig _ | .bfuFeed _ | .bfuFin | .bfuQuery => .bfu
  | .crcDescribe | .crcReset | .crcConfig _ | .crcFeed _ | .crcFin | .crcQuery | .crcOneshot _ => .crc
  | .cksDescribe | .cksReset | .cksConfig | .cksFeed _ | .cksFin | .cksQuery => .cks

/-- The OP of a command (R67). -/
def Instr.op : Instr → Op
  | .b64eDescribe | .b64dDescribe | .hexeDescribe | .hexdDescribe => .describe
  | .bfpDescribe | .bfuDescribe | .crcDescribe | .cksDescribe => .describe
  | .b64eReset | .b64dReset | .hexeReset | .hexdReset | .bfpReset | .bfuReset | .crcReset | .cksReset => .reset
  | .b64eConfig | .b64dConfig | .cksConfig => .config
  | .hexeConfig _ | .hexdConfig _ | .bfpConfig _ | .bfuConfig _ | .crcConfig _ => .config
  | .b64eFeed _ | .b64dFeed _ | .hexeFeed _ | .hexdFeed _ | .bfpFeed _ | .bfuFeed _ | .crcFeed _ | .cksFeed _ => .feed
  | .b64eFin | .b64dFin | .hexeFin | .hexdFin | .bfpFin | .bfuFin | .crcFin | .cksFin => .feed
  | .hexeQuery | .hexdQuery | .bfpQuery | .bfuQuery | .crcQuery | .cksQuery => .query
  | .b64eOneshot _ | .crcOneshot _ => .oneshot

/-- The DATA words of a command (R64, R70). -/
def Instr.data : Instr → List Word
  | .b64eFeed bs | .b64eOneshot bs | .b64dFeed bs | .hexeFeed bs | .hexdFeed bs => bs.map byteWord
  | .bfuFeed bs | .crcFeed bs | .crcOneshot bs | .cksFeed bs => bs.map byteWord
  | .bfpFeed vs => vs
  | .hexeConfig ps | .hexdConfig ps | .bfpConfig ps | .bfuConfig ps | .crcConfig ps => ps
  | .b64eDescribe | .b64eReset | .b64eConfig | .b64eFin => []
  | .b64dDescribe | .b64dReset | .b64dConfig | .b64dFin => []
  | .hexeDescribe | .hexeReset | .hexeFin | .hexeQuery => []
  | .hexdDescribe | .hexdReset | .hexdFin | .hexdQuery => []
  | .bfpDescribe | .bfpReset | .bfpFin | .bfpQuery => []
  | .bfuDescribe | .bfuReset | .bfuFin | .bfuQuery => []
  | .crcDescribe | .crcReset | .crcFin | .crcQuery => []
  | .cksDescribe | .cksReset | .cksConfig | .cksFin | .cksQuery => []

/-- The words of a command: CMD with RSV = 0 and N the number of DATA words, then the DATA words (R63). -/
def encode (i : Instr) : List Word :=
  header i.unit.number i.op.number 0 i.data.length :: i.data

/-! ## The opcode table's numbering of an instruction's bits -/

/-- `n` words of a number whose bits 31..0 are the first word, 63..32 the second, and so on. -/
def wordsFrom : Nat → Nat → List Word
  | 0, _ => []
  | n + 1, w => BitVec.ofNat 32 w :: wordsFrom n (w >>> 32)

/-- The 1 + N words of the command whose bits are `w`, with every bit above `nbits` zero (R65 gives the length). -/
def tableWords (nbits w : Nat) : List Word :=
  wordsFrom (1 + countField (BitVec.ofNat 32 (w % 2 ^ nbits))) (w % 2 ^ nbits)

/-- The command the decoder reads from a table word, in the build of `Config.params`. -/
def decodeTableWord (nbits w : Nat) : Option Instr :=
  match decode Config.params (tableWords nbits w) with
  | .instr i _ => some i
  | .rejected _ _ => none
  | .incomplete => none

end Sys2Proof
end

