-- ==== Sys2Proof/Machine/State.lean ====
section
/-! DEFINITION. The state of the CORE as plain data: the registers of the eight units (10_state.md, sections 3 to 9) and the interface
state (section 10), with the reset values of 70_reset_and_hazards.md R163 and R164. -/

namespace Sys2Proof.Machine

/-! ## How a step can stop -/

/-- Why the machine stops with a fault. There is no constructor: the CORE has no trap and every command, a rejected one too, completes with a
response (60_exceptions.md R151, R38), so no step of this model faults (safe; notes/assumptions/9.md). -/
inductive Fault where
  deriving DecidableEq, Repr

/-- Why a step refuses. -/
inductive Refusal where
  /-- Raised by an arm of `exec` whose instruction has no meaning yet. Safe: the step stops. No arm raises it. -/
  | notModelled (mnemonic : String)
  deriving DecidableEq, Repr

/-! ## base64_encoder and base64_decoder -/

/-- B64E.PHASE at a command boundary: 0, 1 or 2 input bytes of the group consumed (R24; the value 3 is never held). -/
inductive EncPhase where
  | zero | one | two
  deriving DecidableEq, Repr

/-- B64D.PHASE: 0 to 3 characters of the group consumed (R26). -/
inductive DecPhase where
  | zero | one | two | three
  deriving DecidableEq, Repr

/-- The registers of B64E (R24). -/
structure B64Enc where
  phase : EncPhase
  pend : BitVec 6
  deriving DecidableEq, Repr

/-- The registers of B64D (R26). -/
structure B64Dec where
  phase : DecPhase
  pend : BitVec 6
  deriving DecidableEq, Repr

def B64Enc.initial : B64Enc := { phase := .zero, pend := 0 }
def B64Dec.initial : B64Dec := { phase := .zero, pend := 0 }

/-! ## hex_encoder and hex_decoder -/

/-- The registers of HEXE (R28). SIZE and IDX are counts that never wrap (R17). DESIGN CHOICE (notes/assumptions/15.md): in a build with HEX_WIN_MAX > 2^31, to
which R5 sets no bound, IDX may pass the 32 bits that R28 gives it, and the model lets it. -/
structure HexEnc where
  size : Nat
  idx : Nat
  buf : List Byte
  deriving DecidableEq, Repr

/-- The registers of HEXD (R29). -/
structure HexDec where
  size : Nat
  idx : Nat
  buf : List Byte
  nph : Bool
  nhi : BitVec 4
  deriving DecidableEq, Repr

def HexEnc.initial (p : Params) : HexEnc :=
  { size := 0, idx := 0, buf := List.replicate (2 * p.hexWinMax) 0 }

def HexDec.initial (p : Params) : HexDec :=
  { size := 0, idx := 0, buf := List.replicate p.hexWinMax 0, nph := false, nhi := 0 }

/-! ## bitfield_packer and bitfield_unpacker -/

/-- The registers of a bit-field unit, BFP or BFU: configuration (R30) and stream (R31). L, WS, NB and FIDX are counts that never wrap (R17). -/
structure BitField where
  /-- L, the field widths of one cycle -/
  widths : List Nat
  ofs : Word
  reps : Word
  ws : Nat
  /-- END = 1: big-endian -/
  bigEnd : Bool
  acc : BitVec 64
  nb : Nat
  fidx : Nat
  cyc : Word
  done : Bool
  last : Word
  deriving DecidableEq, Repr

def BitField.initial : BitField :=
  { widths := [8], ofs := 0, reps := 0, ws := 8, bigEnd := true,
    acc := 0, nb := 0, fidx := 0, cyc := 0, done := false, last := 0 }

/-! ## crc16_configurable_core and checksum_modular_accum -/

/-- The registers of CRC (R33, R35). CRC.TABLE is CRC_TABLE(POLY) at every command boundary, so POLY alone is held (R34). -/
structure Crc where
  poly : Half
  init : Half
  refin : Bool
  refout : Bool
  xorout : Half
  reg : Half
  deriving DecidableEq, Repr

/-- The register of CKS (R36). -/
structure Cks where
  acc : Byte
  deriving DecidableEq, Repr

def Crc.initial : Crc :=
  { poly := 0x8005, init := 0, refin := true, refout := true, xorout := 0, reg := 0 }

def Cks.initial : Cks := { acc := 0 }

/-! ## The interface state -/

/-- An event of a SINK stream (R37). -/
inductive Event where
  | bytes (s : List Byte)
  | value (v : Word)
  | empty
  deriving DecidableEq, Repr

/-- The RET of a response (R38). -/
inductive Ret where
  | none
  | bytes (s : List Byte)
  | value (v : Word)
  deriving DecidableEq, Repr

/-- The status codes that are ever produced (60_exceptions.md R148); `Status.code` gives the 8-bit codes. -/
inductive Status where
  | ok
  | illegalUnit | illegalOp | reservedBits | badCount | dataRange
  | cfgInvalid | cfgNoSpace | unsupported
  | okInputRejected | okCfgDefaulted | okStreamComplete
  deriving DecidableEq, Repr

/-- The one response of a command (R38). -/
structure Response where
  status : Status
  ret : Ret
  deriving DecidableEq, Repr

/-- One thing the CORE has delivered: an event on a unit's SINK port (R37), or the response of a command (R38). -/
inductive Output where
  | event (u : UnitId) (e : Event)
  | response (r : Response)
  deriving DecidableEq, Repr

/-- The state of the CORE between two commands. -/
structure State where
  /-- the implementation parameters (R5, R6): the model's own field, which no command changes -/
  params : Params
  b64e : B64Enc
  b64d : B64Dec
  hexe : HexEnc
  hexd : HexDec
  bfp : BitField
  bfu : BitField
  crc : Crc
  cks : Cks
  /-- the words the host has written to the command port that no command has consumed (R39) -/
  port : List Word
  /-- everything delivered so far, oldest first: the eight SINK streams and the responses in their one order (R55 to R58) -/
  trace : List Output
  deriving DecidableEq, Repr

/-- SINK(u), the events of one unit's SINK stream in order (R37). -/
def State.sink (s : State) (u : UnitId) : List Event :=
  s.trace.filterMap fun
    | .event v e => if v = u then some e else none
    | .response _ => none

/-- The responses delivered so far, one per command, in command order (R38). -/
def State.responses (s : State) : List Response :=
  s.trace.filterMap fun
    | .event _ _ => none
    | .response r => some r

/-- Power-on with parameters `p`: every unit in its reset state, every SINK stream empty, the port at a command boundary (R163, R164). -/
def State.resetWith (p : Params) : State :=
  { params := p
    b64e := .initial
    b64d := .initial
    hexe := .initial p
    hexd := .initial p
    bfp := .initial
    bfu := .initial
    crc := .initial
    cks := .initial
    port := []
    trace := [] }

/-- Power-on of the build of `Config.params` (DESIGN CHOICE, notes/assumptions/1.md). -/
def State.reset : State := State.resetWith Config.params

end Sys2Proof.Machine
end

