-- ==== Sys2Proof/Machine/Flags.lean ====
section
/-! DEFINITION. The STATUS of a response, the CORE's only flag-like output (60_exceptions.md R148 to R150, 10_state.md R40). -/

namespace Sys2Proof.Machine

/-- The 8-bit code of a status (R148). -/
def Status.code : Status → BitVec 8
  | .ok => 0x00
  | .illegalUnit => 0x01
  | .illegalOp => 0x02
  | .reservedBits => 0x03
  | .badCount => 0x04
  | .dataRange => 0x05
  | .cfgInvalid => 0x06
  | .cfgNoSpace => 0x07
  | .unsupported => 0x08
  | .okInputRejected => 0x10
  | .okCfgDefaulted => 0x11
  | .okStreamComplete => 0x12

/-- The codes 0x01..0x0F are errors: the command was refused and had no effect (R148). -/
def Status.isError (st : Status) : Bool := decide (0x01 ≤ st.code.toNat) && decide (st.code.toNat ≤ 0x0F)

/-- The error status of a failed common check (30_encoding.md R72). -/
def rejectStatus : Reject → Status
  | .illegalUnit => .illegalUnit
  | .illegalOp => .illegalOp
  | .reservedBits => .reservedBits
  | .badCount => .badCount
  | .dataRange => .dataRange

/-- Completion status of a decoder FEED: 0x10 if some character was dropped (40_base64.md R88, 41_hex.md R105). -/
def inputStatus (rejected : Bool) : Status := if rejected then .okInputRejected else .ok

/-- Completion status of a CONFIG: 0x11 if some given value fell back to its default (42_bitfield.md R110, 43_checksum_crc.md R141). -/
def configStatus (defaulted : Bool) : Status := if defaulted then .okCfgDefaulted else .ok

/-- Completion status of a bit-field FEED: 0x12 if some element was ignored (42_bitfield.md R117, R124). -/
def streamStatus (ignored : Bool) : Status := if ignored then .okStreamComplete else .ok

end Sys2Proof.Machine
end

