-- ==== Sys2Proof/Machine/Operands.lean ====
section
/-! DEFINITION. The operand forms of the commands and the bit helpers of 00_scope.md R11 to R13: parameters with their defaults (30_encoding.md R71),
masks, and the two reflections. -/

namespace Sys2Proof.Machine

/-! ## CONFIG parameters -/

/-- Parameter k of a CONFIG command; every parameter at index N or above takes its default (R71). -/
def paramOr (ps : List Word) (k : Nat) (dflt : Word) : Word := ps.getD k dflt

/-- A 16-bit parameter (43_checksum_crc.md R141): a given value above 0xFFFF falls back to its default, and the flag says so. -/
def param16 (ps : List Word) (k : Nat) (dflt : Half) : Half × Bool :=
  let v := paramOr ps k (dflt.setWidth 32)
  if v.toNat ≤ 0xFFFF then (v.setWidth 16, false) else (dflt, true)

/-- A one-bit parameter (R141, 42_bitfield.md R110): a given value outside 0, 1 falls back to its default, and the flag says so. -/
def paramBit (ps : List Word) (k : Nat) (dflt : Bool) : Bool × Bool :=
  let v := paramOr ps k (if dflt then 1 else 0)
  if v.toNat ≤ 1 then (v.toNat == 1, false) else (dflt, true)

/-- A word-size parameter (R110): a given value outside 8, 16, 24, 32 falls back to 8, and the flag says so. -/
def paramWordSize (ps : List Word) (k : Nat) : Nat × Bool :=
  let v := (paramOr ps k 8).toNat
  if v = 8 ∨ v = 16 ∨ v = 24 ∨ v = 32 then (v, false) else (8, true)

/-! ## Masks and reflections -/

/-- mask(w) in the width of the bit-field accumulator, for 0 ≤ w ≤ 64 (R12). -/
def mask64 (w : Nat) : BitVec 64 := BitVec.ofNat 64 (2 ^ w - 1)

/-- rev8(b): bit 7−i of the result is bit i of b (R13); the table REV8 (10_state.md R22). -/
def rev8 (b : Byte) : Byte :=
  b.extractLsb' 0 1 ++ b.extractLsb' 1 1 ++ b.extractLsb' 2 1 ++ b.extractLsb' 3 1 ++
    b.extractLsb' 4 1 ++ b.extractLsb' 5 1 ++ b.extractLsb' 6 1 ++ b.extractLsb' 7 1

/-- rev16(x) = {rev8(x[7:0]), rev8(x[15:8])} (R13). -/
def rev16 (x : Half) : Half := rev8 (x.extractLsb' 0 8) ++ rev8 (x.extractLsb' 8 8)

/-- `n` consecutive character codes from `first` on. -/
def charRange (first : Byte) (n : Nat) : List Byte := (List.range n).map fun i => first + BitVec.ofNat 8 i

end Sys2Proof.Machine
end

