-- ==== Sys2Proof/Machine/Ops.lean ====
section
/-! DEFINITION. The named operations on the state: writing a unit's registers, delivering outputs, refusing a command, the command
port, and feeding elements one by one (00_scope.md R15, R16; 10_state.md R37 to R39). -/

namespace Sys2Proof.Machine

/-- What a step or a meaning answers. -/
abbrev StepResult := Host.Outcome State Fault Refusal

/-! ## Writing one unit's registers (R19: a command changes only the unit it addresses) -/

def State.setB64e (s : State) (x : B64Enc) : State := { s with b64e := x }
def State.setB64d (s : State) (x : B64Dec) : State := { s with b64d := x }
def State.setHexe (s : State) (x : HexEnc) : State := { s with hexe := x }
def State.setHexd (s : State) (x : HexDec) : State := { s with hexd := x }
def State.setBfp (s : State) (x : BitField) : State := { s with bfp := x }
def State.setBfu (s : State) (x : BitField) : State := { s with bfu := x }
def State.setCrc (s : State) (x : Crc) : State := { s with crc := x }
def State.setCks (s : State) (x : Cks) : State := { s with cks := x }

/-! ## Outputs -/

/-- The events of a command on the SINK of its unit, in order, and then its one response (R37, R38, 20_memory.md R56, R58). -/
def State.deliver (s : State) (u : UnitId) (events : List Event) (r : Response) : State :=
  { s with trace := s.trace ++ (events.map (Output.event u) ++ [Output.response r]) }

/-- A command that executes: its events, then its response (R15, R38). -/
def complete (u : UnitId) (events : List Event) (status : Status) (ret : Ret) (s : State) : StepResult :=
  .next (s.deliver u events { status := status, ret := ret })

/-- `raise E`, the CORE's one exceptional path: the command has no effect except its response (STATUS = E, RET = NONE) (R16). Nothing is
saved, no mode changes, control goes on with the next command (60_exceptions.md R151); so there is no return from it (R152). -/
def raise (e : Status) (s : State) : StepResult :=
  .next { s with trace := s.trace ++ [Output.response { status := e, ret := .none }] }

/-- DESCRIBE of unit u: the unit's text in RET, no register change, no event (30_encoding.md R67, 20_memory.md R54 (d)). -/
def describe (u : UnitId) (s : State) : StepResult :=
  complete u [] .ok (.bytes (Config.describeText u)) s

/-! ## The command port -/

/-- The words left at the command port after a command's 1 + N words are consumed (R39, R40, 30_encoding.md R65). -/
def State.setPort (s : State) (ws : List Word) : State := { s with port := ws }

/-- The host writes words to the command port (R18, R39). -/
def State.hostWrite (s : State) (ws : List Word) : State := { s with port := s.port ++ ws }

/-- No whole command stands at the port: the CORE waits and no state changes (R39, 70_reset_and_hazards.md R167 item 1). -/
def waitForCommand (s : State) : StepResult := .next s

/-! ## Feeding elements one by one -/

/-- What consuming elements gives: the registers after, the events and RET bytes produced in order, and whether some element was dropped. -/
structure Fed (σ : Type) where
  regs : σ
  events : List Event
  bytes : List Byte
  flagged : Bool
  deriving DecidableEq, Repr

/-- `for each e in DATA` (R15): the step of each element in order from the first, its outputs appended in that order (20_memory.md R56). -/
def feedWith {σ α : Type} (step : σ → α → Fed σ) : σ → List α → Fed σ
  | x, [] => { regs := x, events := [], bytes := [], flagged := false }
  | x, e :: es =>
    let a := step x e
    let b := feedWith step a.regs es
    { regs := b.regs, events := a.events ++ b.events, bytes := a.bytes ++ b.bytes, flagged := a.flagged || b.flagged }

end Sys2Proof.Machine
end

