-- ==== Sys2Proof/Machine/Base64.lean ====
section
/-! DEFINITION. base64_encoder and base64_decoder (40_base64.md R76 to R89). -/

namespace Sys2Proof.Machine

/-! ## The alphabet (10_state.md R20) -/

/-- B64_ALPHABET: A–Z a–z 0–9 + / (R20). -/
def b64Alphabet : List Byte :=
  charRange 0x41 26 ++ charRange 0x61 26 ++ charRange 0x30 10 ++ [0x2B, 0x2F]

/-- B64_ALPHABET[v] (R20). -/
def b64Char (v : BitVec 6) : Byte := b64Alphabet.getD v.toNat 0

/-- The pad character '=' (R20). -/
def padChar : Byte := 0x3D

/-- The decode value of a character; exactly the 64 characters of the alphabet have one (R20). -/
def b64Value (c : Byte) : Option (BitVec 6) :=
  let n := c.toNat
  if 0x41 ≤ n ∧ n ≤ 0x5A then some (BitVec.ofNat 6 (n - 0x41))
  else if 0x61 ≤ n ∧ n ≤ 0x7A then some (BitVec.ofNat 6 (n - 0x61 + 26))
  else if 0x30 ≤ n ∧ n ≤ 0x39 then some (BitVec.ofNat 6 (n - 0x30 + 52))
  else if n = 0x2B then some 62
  else if n = 0x2F then some 63
  else none

/-! ## Encoder steps -/

/-- ENC_STEP(b) (R76): the registers after and the 1 or 2 characters produced. -/
def encStep (x : B64Enc) (b : Byte) : B64Enc × List Byte :=
  match x.phase with
  | .zero =>
    ({ phase := .one, pend := (b.extractLsb' 0 2).setWidth 6 <<< 4 }, [b64Char (b.extractLsb' 2 6)])
  | .one =>
    ({ phase := .two, pend := (b.extractLsb' 0 4).setWidth 6 <<< 2 }, [b64Char (x.pend ||| (b.extractLsb' 4 4).setWidth 6)])
  | .two =>
    ({ phase := .zero, pend := 0 },
      [b64Char (x.pend ||| (b.extractLsb' 6 2).setWidth 6), b64Char (b.extractLsb' 0 6)])

/-- The characters of FLUSH() (R77): `==` after one residual byte, `=` after two (90_conflicts.md C1). -/
def flushChars (x : B64Enc) : List Byte :=
  match x.phase with
  | .zero => []
  | .one => [b64Char x.pend, padChar, padChar]
  | .two => [b64Char x.pend, padChar]

/-- One element of `b64e.feed` (R81): one event of its characters. -/
def b64eElement (x : B64Enc) (b : Byte) : Fed B64Enc :=
  let r := encStep x b
  { regs := r.1, events := [.bytes r.2], bytes := r.2, flagged := false }

/-! ## Decoder step -/

/-- DEC_STEP(c) (R84): the registers after and the 0 or 1 bytes produced; flagged if the character has no decode value. One event per byte (R88). -/
def b64dElement (x : B64Dec) (c : Byte) : Fed B64Dec :=
  match b64Value c with
  | none => { regs := { phase := .zero, pend := 0 }, events := [], bytes := [], flagged := true }
  | some v =>
    match x.phase with
    | .zero => { regs := { phase := .one, pend := v }, events := [], bytes := [], flagged := false }
    | .one =>
      let out : Byte := (x.pend.setWidth 8 <<< 2) ||| (v.extractLsb' 4 2).setWidth 8
      { regs := { phase := .two, pend := (v.extractLsb' 0 4).setWidth 6 }, events := [.bytes [out]], bytes := [out], flagged := false }
    | .two =>
      let out : Byte := (x.pend.setWidth 8 <<< 4) ||| (v.extractLsb' 2 4).setWidth 8
      { regs := { phase := .three, pend := (v.extractLsb' 0 2).setWidth 6 }, events := [.bytes [out]], bytes := [out], flagged := false }
    | .three =>
      let out : Byte := (x.pend.setWidth 8 <<< 6) ||| v.setWidth 8
      { regs := { phase := .zero, pend := 0 }, events := [.bytes [out]], bytes := [out], flagged := false }

/-! ## base64_encoder commands -/

/-- b64e.describe (R78). -/
def execB64eDescribe (s : State) : StepResult := describe .b64e s

/-- b64e.reset (R79). -/
def execB64eReset (s : State) : StepResult := complete .b64e [] .ok .none (s.setB64e { phase := .zero, pend := 0 })

/-- b64e.config (R80). -/
def execB64eConfig (s : State) : StepResult := complete .b64e [] .ok .none (s.setB64e { phase := .zero, pend := 0 })

/-- b64e.feed (R81). -/
def execB64eFeed (bytes : List Byte) (s : State) : StepResult :=
  let r := feedWith b64eElement s.b64e bytes
  complete .b64e r.events .ok (.bytes r.bytes) (s.setB64e r.regs)

/-- b64e.fin (R82): the flush is one event, and none when it is empty. -/
def execB64eFin (s : State) : StepResult :=
  let out := flushChars s.b64e
  complete .b64e (if out.isEmpty then [] else [.bytes out]) .ok (.bytes out) (s.setB64e { phase := .zero, pend := 0 })

/-- b64e.oneshot (R83): a private copy from the reset registers; no register change and no event. -/
def execB64eOneshot (bytes : List Byte) (s : State) : StepResult :=
  let r := feedWith b64eElement { phase := .zero, pend := 0 } bytes
  complete .b64e [] .ok (.bytes (r.bytes ++ flushChars r.regs)) s

/-! ## base64_decoder commands -/

/-- b64d.describe (R85). -/
def execB64dDescribe (s : State) : StepResult := describe .b64d s

/-- b64d.reset (R86). -/
def execB64dReset (s : State) : StepResult := complete .b64d [] .ok .none (s.setB64d { phase := .zero, pend := 0 })

/-- b64d.config (R87). -/
def execB64dConfig (s : State) : StepResult := complete .b64d [] .ok .none (s.setB64d { phase := .zero, pend := 0 })

/-- b64d.feed (R88). -/
def execB64dFeed (chars : List Byte) (s : State) : StepResult :=
  let r := feedWith b64dElement s.b64d chars
  complete .b64d r.events (inputStatus r.flagged) (.bytes r.bytes) (s.setB64d r.regs)

/-- b64d.fin (R89). -/
def execB64dFin (s : State) : StepResult := complete .b64d [] .ok (.bytes []) (s.setB64d { phase := .zero, pend := 0 })

end Sys2Proof.Machine
end

