-- ==== Sys2Proof/Machine/BitFields.lean ====
section
/-! DEFINITION. bitfield_packer and bitfield_unpacker (42_bitfield.md R110 to R126). -/

namespace Sys2Proof.Machine

/-! ## Shared configuration and control -/

/-- A field width is legal: 1..32 (R110; 90_conflicts.md C7). -/
def widthLegal (w : Nat) : Bool := decide (1 ≤ w) && decide (w ≤ 32)

/-- BF_CONFIG(X, p) (R110): none for CFG_INVALID; else the registers after, LAST kept, and whether WS or END fell back to its default. -/
def bitFieldConfig (x : BitField) (ps : List Word) : Option (BitField × Bool) :=
  let widths := (paramOr ps 0 8).toNat :: (ps.drop 5).map BitVec.toNat
  let ws := paramWordSize ps 3
  let bigEnd := paramBit ps 4 true
  if widths.all widthLegal then
    some ({ widths := widths, ofs := paramOr ps 1 0, reps := paramOr ps 2 0, ws := ws.1, bigEnd := bigEnd.1,
            acc := 0, nb := 0, fidx := 0, cyc := 0, done := false, last := x.last }, ws.2 || bigEnd.2)
  else none

/-- A FEED with data is refused with UNSUPPORTED when END ≠ 1 or OFS ≠ 0 (R111). -/
def bitFieldUnsupported (x : BitField) : Bool := x.bigEnd == false || x.ofs != 0#32

/-- L[FIDX], the width of the current field (R113, R120). -/
def BitField.width (x : BitField) : Nat := x.widths.getD x.fidx 0

/-- ADVANCE(X) (R112). -/
def BitField.advance (x : BitField) : BitField :=
  if x.fidx + 1 = x.widths.length then
    { x with fidx := 0, cyc := x.cyc + 1, done := x.done || (x.reps != 0#32 && x.cyc + 1 == x.reps) }
  else { x with fidx := x.fidx + 1 }

/-- The last line of both steps: at completion the residual bits are discarded (R113, R120; 90_conflicts.md C5). -/
def BitField.dropIfDone (x : BitField) : BitField := if x.done then { x with acc := 0, nb := 0 } else x

/-! ## Packer step -/

/-- The WS/8 bytes of a word, most significant first (R113, 20_memory.md R47). -/
def wordBytes (ws : Nat) (word : BitVec 64) : List Byte :=
  (List.range (ws / 8)).map fun i => (word >>> (ws - 8 * (i + 1))).setWidth 8

/-- The `while NB >= WS` loop of BFP_STEP (R113). The first argument bounds the rounds: NB rounds are enough, since each takes WS ≥ 1 bits
(notes/assumptions/8.md). -/
def packWords : Nat → BitField → BitField × List Event
  | 0, x => (x, [])
  | fuel + 1, x =>
    if x.ws ≤ x.nb then
      let word := (x.acc >>> (x.nb - x.ws)) &&& mask64 x.ws
      let r := packWords fuel
        { x with last := word.setWidth 32, nb := x.nb - x.ws, acc := x.acc &&& mask64 (x.nb - x.ws) }
      (r.1, .bytes (wordBytes x.ws word) :: r.2)
    else (x, [])

/-- BFP_STEP(v) (R113). -/
def packStep (x : BitField) (v : Word) : BitField × List Event :=
  let w := x.width
  let y := { x with acc := (x.acc <<< w) ||| (v.setWidth 64 &&& mask64 w), nb := x.nb + w }.advance
  let r := packWords y.nb y
  (r.1.dropIfDone, r.2)

/-- One element of `bfp.feed` (R117): ignored once the stream is complete. -/
def bfpElement (x : BitField) (v : Word) : Fed BitField :=
  if x.done then { regs := x, events := [], bytes := [], flagged := true }
  else
    let r := packStep x v
    { regs := r.1, events := r.2, bytes := [], flagged := false }

/-! ## Unpacker step -/

/-- The `while DONE == 0 and NB >= L[FIDX]` loop of BFU_STEP (R120). The first argument bounds the rounds: NB rounds are enough, since each
takes a width ≥ 1 (notes/assumptions/8.md). -/
def unpackFields : Nat → BitField → BitField × List Event
  | 0, x => (x, [])
  | fuel + 1, x =>
    if x.done = false ∧ x.width ≤ x.nb then
      let f : Word := ((x.acc >>> (x.nb - x.width)) &&& mask64 x.width).setWidth 32
      let r := unpackFields fuel { x with nb := x.nb - x.width, last := f }.advance
      (r.1, .value f :: r.2)
    else (x, [])

/-- BFU_STEP(b) (R120). -/
def unpackStep (x : BitField) (b : Byte) : BitField × List Event :=
  let y := { x with acc := (x.acc <<< 8) ||| b.setWidth 64, nb := x.nb + 8 }
  let r := unpackFields y.nb y
  (r.1.dropIfDone, r.2)

/-- One element of `bfu.feed` (R124): ignored once the stream is complete. -/
def bfuElement (x : BitField) (b : Byte) : Fed BitField :=
  if x.done then { regs := x, events := [], bytes := [], flagged := true }
  else
    let r := unpackStep x b
    { regs := r.1, events := r.2, bytes := [], flagged := false }

/-! ## bitfield_packer commands -/

/-- bfp.describe (R114). -/
def execBfpDescribe (s : State) : StepResult := describe .bfp s

/-- bfp.reset (R115): the default configuration, and LAST too. -/
def execBfpReset (s : State) : StepResult :=
  complete .bfp [] .ok .none (s.setBfp
    { widths := [8], ofs := 0, reps := 0, ws := 8, bigEnd := true,
      acc := 0, nb := 0, fidx := 0, cyc := 0, done := false, last := 0 })

/-- bfp.config (R116). -/
def execBfpConfig (ps : List Word) (s : State) : StepResult :=
  match bitFieldConfig s.bfp ps with
  | none => raise .cfgInvalid s
  | some r => complete .bfp [] (configStatus r.2) .none (s.setBfp r.1)

/-- bfp.feed (R117). -/
def execBfpFeed (values : List Word) (s : State) : StepResult :=
  if bitFieldUnsupported s.bfp then raise .unsupported s
  else
    let r := feedWith bfpElement s.bfp values
    complete .bfp r.events (streamStatus r.flagged) .none (s.setBfp r.regs)

/-- bfp.fin (R118): residual bits are dropped without an event; configuration and LAST are kept. -/
def execBfpFin (s : State) : StepResult :=
  complete .bfp [] .ok .none (s.setBfp { s.bfp with acc := 0, nb := 0, fidx := 0, cyc := 0, done := false })

/-- bfp.query (R119). -/
def execBfpQuery (s : State) : StepResult := complete .bfp [] .ok (.value s.bfp.last) s

/-! ## bitfield_unpacker commands -/

/-- bfu.describe (R121). -/
def execBfuDescribe (s : State) : StepResult := describe .bfu s

/-- bfu.reset (R122). -/
def execBfuReset (s : State) : StepResult :=
  complete .bfu [] .ok .none (s.setBfu
    { widths := [8], ofs := 0, reps := 0, ws := 8, bigEnd := true,
      acc := 0, nb := 0, fidx := 0, cyc := 0, done := false, last := 0 })

/-- bfu.config (R123). -/
def execBfuConfig (ps : List Word) (s : State) : StepResult :=
  match bitFieldConfig s.bfu ps with
  | none => raise .cfgInvalid s
  | some r => complete .bfu [] (configStatus r.2) .none (s.setBfu r.1)

/-- bfu.feed (R124). -/
def execBfuFeed (bytes : List Byte) (s : State) : StepResult :=
  if bitFieldUnsupported s.bfu then raise .unsupported s
  else
    let r := feedWith bfuElement s.bfu bytes
    complete .bfu r.events (streamStatus r.flagged) .none (s.setBfu r.regs)

/-- bfu.fin (R125): ACC is not written (90_conflicts.md C9). -/
def execBfuFin (s : State) : StepResult :=
  complete .bfu [] .ok .none (s.setBfu { s.bfu with nb := 0, fidx := 0, cyc := 0, done := false })

/-- bfu.query (R126). -/
def execBfuQuery (s : State) : StepResult := complete .bfu [] .ok (.value s.bfu.last) s

end Sys2Proof.Machine
end

