-- ==== Sys2Proof/Machine/Checksum.lean ====
section
/-! DEFINITION. checksum_modular_accum and crc16_configurable_core (43_checksum_crc.md R129 to R145). -/

namespace Sys2Proof.Machine

/-! ## CRC-16 functions -/

/-- One round of CRC_TABLE: shift left, XOR with the polynomial if the top bit was set (R136). -/
def crcShift (poly r : Half) : Half := if r.msb then (r <<< 1) ^^^ poly else r <<< 1

/-- `n` rounds of `crcShift`. -/
def crcShifts (poly : Half) : Nat → Half → Half
  | 0, r => r
  | n + 1, r => crcShifts poly n (crcShift poly r)

/-- CRC_TABLE(p)[i] (R136): eight rounds from i << 8. -/
def crcTable (poly : Half) (i : Byte) : Half := crcShifts poly 8 (i.setWidth 16 <<< 8)

/-- CRC_UPDATE(reg, b, CRC_TABLE(poly), refin) (R137). -/
def crcUpdate (poly : Half) (refin : Bool) (reg : Half) (b : Byte) : Half :=
  let d := if refin then rev8 b else b
  let i : Byte := (reg >>> 8).setWidth 8 ^^^ d
  (reg <<< 8) ^^^ crcTable poly i

/-- CRC_FINAL(reg, refout, xorout) (R138). -/
def crcFinal (reg : Half) (refout : Bool) (xorout : Half) : Half :=
  (if refout then rev16 reg else reg) ^^^ xorout

/-- The default polynomial (R33); CRC_DEFAULT_TABLE is its table (10_state.md R23). -/
def crcDefaultPoly : Half := 0x8005

/-- The two bytes of a CRC result, high byte first (R143, 20_memory.md R50). -/
def crcBytes (v : Half) : List Byte := [v.extractLsb' 8 8, v.extractLsb' 0 8]

/-! ## crc16_configurable_core commands -/

/-- crc.describe (R139). -/
def execCrcDescribe (s : State) : StepResult := describe .crc s

/-- crc.reset (R140). -/
def execCrcReset (s : State) : StepResult :=
  complete .crc [] .ok .none (s.setCrc
    { poly := crcDefaultPoly, init := 0, refin := true, refout := true, xorout := 0, reg := 0 })

/-- crc.config (R141): every out-of-range value falls back to its own default; REG restarts at the new INIT. -/
def execCrcConfig (ps : List Word) (s : State) : StepResult :=
  let poly := param16 ps 0 crcDefaultPoly
  let init := param16 ps 1 0
  let refin := paramBit ps 2 true
  let refout := paramBit ps 3 true
  let xorout := param16 ps 4 0
  complete .crc [] (configStatus (poly.2 || init.2 || refin.2 || refout.2 || xorout.2)) .none (s.setCrc
    { poly := poly.1, init := init.1, refin := refin.1, refout := refout.1, xorout := xorout.1, reg := init.1 })

/-- crc.feed (R142). -/
def execCrcFeed (bytes : List Byte) (s : State) : StepResult :=
  complete .crc [] .ok .none (s.setCrc
    { s.crc with reg := bytes.foldl (crcUpdate s.crc.poly s.crc.refin) s.crc.reg })

/-- crc.fin (R143): emitted and returned, and REG restarts at INIT. -/
def execCrcFin (s : State) : StepResult :=
  let v := crcFinal s.crc.reg s.crc.refout s.crc.xorout
  complete .crc [.bytes (crcBytes v)] .ok (.value (v.setWidth 32)) (s.setCrc { s.crc with reg := s.crc.init })

/-- crc.query (R144). -/
def execCrcQuery (s : State) : StepResult :=
  complete .crc [] .ok (.value ((crcFinal s.crc.reg s.crc.refout s.crc.xorout).setWidth 32)) s

/-- crc.oneshot (R145): a private register, the fixed configuration, no CRC register read or written, no event. -/
def execCrcOneshot (bytes : List Byte) (s : State) : StepResult :=
  let r := bytes.foldl (crcUpdate crcDefaultPoly true) 0
  complete .crc [] .ok (.value ((crcFinal r true 0).setWidth 32)) s

/-! ## checksum_modular_accum commands -/

/-- The two's-complement negation of the accumulator (R133, 00_scope.md R17). -/
def cksNegate (acc : Byte) : Byte := ~~~acc + 1

/-- cks.describe (R129). -/
def execCksDescribe (s : State) : StepResult := describe .cks s

/-- cks.reset (R130). -/
def execCksReset (s : State) : StepResult := complete .cks [] .ok .none (s.setCks { acc := 0 })

/-- cks.config (R131). -/
def execCksConfig (s : State) : StepResult := complete .cks [] .ok .none (s.setCks { acc := 0 })

/-- cks.feed (R132): addition modulo 2^8. -/
def execCksFeed (bytes : List Byte) (s : State) : StepResult :=
  complete .cks [] .ok .none (s.setCks { acc := bytes.foldl (fun a b => a + b) s.cks.acc })

/-- cks.fin (R133). -/
def execCksFin (s : State) : StepResult :=
  let neg := cksNegate s.cks.acc
  complete .cks [.bytes [neg]] .ok (.value (neg.setWidth 32)) (s.setCks { acc := 0 })

/-- cks.query (R134): EMPTY when the accumulator is zero. -/
def execCksQuery (s : State) : StepResult :=
  complete .cks (if s.cks.acc = 0 then [.empty] else []) .ok (.value (s.cks.acc.setWidth 32)) s

end Sys2Proof.Machine
end

