-- ==== Sys2Proof/Machine/Hex.lean ====
section
/-! DEFINITION. hex_encoder and hex_decoder (41_hex.md R93 to R107). -/

namespace Sys2Proof.Machine

/-! ## The alphabet (10_state.md R21) -/

/-- HEX_ALPHABET: 0–9 A–F (R21). -/
def hexAlphabet : List Byte := charRange 0x30 10 ++ charRange 0x41 6

/-- HEX_ALPHABET[v] (R21). -/
def hexChar (v : BitVec 4) : Byte := hexAlphabet.getD v.toNat 0

/-- The hex decode value of a character, in either case (R21). -/
def hexValue (c : Byte) : Option (BitVec 4) :=
  let n := c.toNat
  if 0x30 ≤ n ∧ n ≤ 0x39 then some (BitVec.ofNat 4 (n - 0x30))
  else if 0x41 ≤ n ∧ n ≤ 0x46 then some (BitVec.ofNat 4 (n - 0x41 + 10))
  else if 0x61 ≤ n ∧ n ≤ 0x66 then some (BitVec.ofNat 4 (n - 0x61 + 10))
  else none

/-! ## Encoder -/

/-- HEXE_PUT(pair) (R93): append to the window, and emit the whole window when it is full. -/
def hexePut (x : HexEnc) (hi lo : Byte) : HexEnc × List Event :=
  let buf := (x.buf.set x.idx hi).set (x.idx + 1) lo
  if x.idx + 2 = 2 * x.size then ({ x with buf := buf, idx := 0 }, [.bytes (buf.take (2 * x.size))])
  else ({ x with buf := buf, idx := x.idx + 2 }, [])

/-- One element of `hexe.feed` (R97): the high nibble's character first (20_memory.md R49). -/
def hexeElement (x : HexEnc) (b : Byte) : Fed HexEnc :=
  let hi := hexChar (b.extractLsb' 4 4)
  let lo := hexChar (b.extractLsb' 0 4)
  if x.size = 0 then { regs := x, events := [.bytes [hi, lo]], bytes := [hi, lo], flagged := false }
  else
    let r := hexePut x hi lo
    { regs := r.1, events := r.2, bytes := [hi, lo], flagged := false }

/-! ## Decoder -/

/-- HEXD_PUT(b) (R101): append to the window, and emit the whole window when it is full. -/
def hexdPut (x : HexDec) (b : Byte) : HexDec × List Event :=
  let buf := x.buf.set x.idx b
  if x.idx + 1 = x.size then ({ x with buf := buf, idx := 0 }, [.bytes (buf.take x.size)])
  else ({ x with buf := buf, idx := x.idx + 1 }, [])

/-- One element of `hexd.feed`: HEX_STEP (R100) and, where it gives a byte, the event or HEXD_PUT of R105. -/
def hexdElement (x : HexDec) (c : Byte) : Fed HexDec :=
  match hexValue c with
  | none => { regs := { x with nph := false, nhi := 0 }, events := [], bytes := [], flagged := true }
  | some v =>
    if x.nph = false then { regs := { x with nph := true, nhi := v }, events := [], bytes := [], flagged := false }
    else
      let b : Byte := x.nhi ++ v
      let y := { x with nph := false, nhi := 0 }
      if x.size = 0 then { regs := y, events := [.bytes [b]], bytes := [b], flagged := false }
      else
        let r := hexdPut y b
        { regs := r.1, events := r.2, bytes := [b], flagged := false }

/-! ## hex_encoder commands -/

/-- hexe.describe (R94). -/
def execHexeDescribe (s : State) : StepResult := describe .hexe s

/-- hexe.reset (R95). -/
def execHexeReset (s : State) : StepResult :=
  complete .hexe [] .ok .none (s.setHexe { size := 0, idx := 0, buf := List.replicate (2 * s.params.hexWinMax) 0 })

/-- hexe.config (R96): CFG_NO_SPACE for a window above HEX_WIN_MAX; BUF is kept. -/
def execHexeConfig (ps : List Word) (s : State) : StepResult :=
  let size := (paramOr ps 0 0).toNat
  if s.params.hexWinMax < size then raise .cfgNoSpace s
  else complete .hexe [] .ok .none (s.setHexe { s.hexe with size := size, idx := 0 })

/-- hexe.feed (R97). -/
def execHexeFeed (bytes : List Byte) (s : State) : StepResult :=
  let r := feedWith hexeElement s.hexe bytes
  complete .hexe r.events .ok (.bytes r.bytes) (s.setHexe r.regs)

/-- hexe.fin (R98). -/
def execHexeFin (s : State) : StepResult :=
  complete .hexe [] .ok (.bytes []) (s.setHexe { s.hexe with idx := 0 })

/-- hexe.query (R99; 90_conflicts.md C8). -/
def execHexeQuery (s : State) : StepResult :=
  complete .hexe [] .ok (.bytes (s.hexe.buf.take s.hexe.idx)) (s.setHexe { s.hexe with idx := 0 })

/-! ## hex_decoder commands -/

/-- hexd.describe (R102). -/
def execHexdDescribe (s : State) : StepResult := describe .hexd s

/-- hexd.reset (R103). -/
def execHexdReset (s : State) : StepResult :=
  complete .hexd [] .ok .none
    (s.setHexd { size := 0, idx := 0, buf := List.replicate s.params.hexWinMax 0, nph := false, nhi := 0 })

/-- hexd.config (R104). -/
def execHexdConfig (ps : List Word) (s : State) : StepResult :=
  let size := (paramOr ps 0 0).toNat
  if s.params.hexWinMax < size then raise .cfgNoSpace s
  else complete .hexd [] .ok .none (s.setHexd { s.hexd with size := size, idx := 0, nph := false, nhi := 0 })

/-- hexd.feed (R105). -/
def execHexdFeed (chars : List Byte) (s : State) : StepResult :=
  let r := feedWith hexdElement s.hexd chars
  complete .hexd r.events (inputStatus r.flagged) (.bytes r.bytes) (s.setHexd r.regs)

/-- hexd.fin (R106). -/
def execHexdFin (s : State) : StepResult :=
  complete .hexd [] .ok (.bytes []) (s.setHexd { s.hexd with idx := 0, nph := false, nhi := 0 })

/-- hexd.query (R107): a pending nibble is neither returned nor discarded. -/
def execHexdQuery (s : State) : StepResult :=
  complete .hexd [] .ok (.bytes (s.hexd.buf.take s.hexd.idx)) (s.setHexd { s.hexd with idx := 0 })

end Sys2Proof.Machine
end

