-- ==== Sys2Proof/Machine/Dispatch.lean ====
section
/-! DEFINITION. One arm per command of spec/opcode_table.json: each calls the command's meaning. -/

namespace Sys2Proof.Machine

/-- The meaning of every command, on the state whose port has passed the command's words. -/
def exec (i : Instr) (s : State) : Host.Outcome State Fault Refusal :=
  match i with
  | .b64eDescribe => Sys2Proof.Machine.execB64eDescribe s
  | .b64eReset => Sys2Proof.Machine.execB64eReset s
  | .b64eConfig => Sys2Proof.Machine.execB64eConfig s
  | .b64eFeed bytes => Sys2Proof.Machine.execB64eFeed bytes s
  | .b64eFin => Sys2Proof.Machine.execB64eFin s
  | .b64eOneshot bytes => Sys2Proof.Machine.execB64eOneshot bytes s
  | .b64dDescribe => Sys2Proof.Machine.execB64dDescribe s
  | .b64dReset => Sys2Proof.Machine.execB64dReset s
  | .b64dConfig => Sys2Proof.Machine.execB64dConfig s
  | .b64dFeed chars => Sys2Proof.Machine.execB64dFeed chars s
  | .b64dFin => Sys2Proof.Machine.execB64dFin s
  | .hexeDescribe => Sys2Proof.Machine.execHexeDescribe s
  | .hexeReset => Sys2Proof.Machine.execHexeReset s
  | .hexeConfig params => Sys2Proof.Machine.execHexeConfig params s
  | .hexeFeed bytes => Sys2Proof.Machine.execHexeFeed bytes s
  | .hexeFin => Sys2Proof.Machine.execHexeFin s
  | .hexeQuery => Sys2Proof.Machine.execHexeQuery s
  | .hexdDescribe => Sys2Proof.Machine.execHexdDescribe s
  | .hexdReset => Sys2Proof.Machine.execHexdReset s
  | .hexdConfig params => Sys2Proof.Machine.execHexdConfig params s
  | .hexdFeed chars => Sys2Proof.Machine.execHexdFeed chars s
  | .hexdFin => Sys2Proof.Machine.execHexdFin s
  | .hexdQuery => Sys2Proof.Machine.execHexdQuery s
  | .bfpDescribe => Sys2Proof.Machine.execBfpDescribe s
  | .bfpReset => Sys2Proof.Machine.execBfpReset s
  | .bfpConfig params => Sys2Proof.Machine.execBfpConfig params s
  | .bfpFeed values => Sys2Proof.Machine.execBfpFeed values s
  | .bfpFin => Sys2Proof.Machine.execBfpFin s
  | .bfpQuery => Sys2Proof.Machine.execBfpQuery s
  | .bfuDescribe => Sys2Proof.Machine.execBfuDescribe s
  | .bfuReset => Sys2Proof.Machine.execBfuReset s
  | .bfuConfig params => Sys2Proof.Machine.execBfuConfig params s
  | .bfuFeed bytes => Sys2Proof.Machine.execBfuFeed bytes s
  | .bfuFin => Sys2Proof.Machine.execBfuFin s
  | .bfuQuery => Sys2Proof.Machine.execBfuQuery s
  | .crcDescribe => Sys2Proof.Machine.execCrcDescribe s
  | .crcReset => Sys2Proof.Machine.execCrcReset s
  | .crcConfig params => Sys2Proof.Machine.execCrcConfig params s
  | .crcFeed bytes => Sys2Proof.Machine.execCrcFeed bytes s
  | .crcFin => Sys2Proof.Machine.execCrcFin s
  | .crcQuery => Sys2Proof.Machine.execCrcQuery s
  | .crcOneshot bytes => Sys2Proof.Machine.execCrcOneshot bytes s
  | .cksDescribe => Sys2Proof.Machine.execCksDescribe s
  | .cksReset => Sys2Proof.Machine.execCksReset s
  | .cksConfig => Sys2Proof.Machine.execCksConfig s
  | .cksFeed bytes => Sys2Proof.Machine.execCksFeed bytes s
  | .cksFin => Sys2Proof.Machine.execCksFin s
  | .cksQuery => Sys2Proof.Machine.execCksQuery s

end Sys2Proof.Machine
end

