-- ==== Sys2Proof/Machine/Step.lean ====
section
/-! DEFINITION. One step of the CORE: one whole command (00_scope.md R10), or waiting for one. -/

namespace Sys2Proof.Machine

/-- One step. A whole command at the port is consumed, 1 + N words (10_state.md R39, R40), and executed, or refused with the status of its
first failed check (30_encoding.md R65, R72); with no whole command there the CORE waits. -/
def step (s : State) : Host.Outcome State Fault Refusal :=
  match decode s.params s.port with
  | .incomplete => waitForCommand s
  | .rejected why rest => raise (rejectStatus why) (s.setPort rest)
  | .instr i rest => exec i (s.setPort rest)

/-- The command whose bits are `w`, as spec/opcode_table.json numbers them, put first at the command port, before what stands there: the next
step fetches it and runs it. It stands for the host's write of a command (notes/assumptions/11.md). -/
def State.withFetchWord (s : State) (nbits w : Nat) : State :=
  { s with port := tableWords nbits w ++ s.port }

end Sys2Proof.Machine
end

