-- ==== Sys2Proof/Machine/Assembler.lean ====
section
/-! DEFINITION. The assembler's lines and the pseudo-instructions (30_encoding.md R74, R75), on parsed operands: which words a line stands for. -/

namespace Sys2Proof.Machine

/-- An operand: a number gives one DATA word, a string literal one DB word per character (R74). -/
inductive AsmOperand where
  | number (n : Nat)
  | text (chars : List Byte)
  deriving DecidableEq, Repr

/-- The operation part of a mnemonic; `fin` is FEED with N = 0 (R67, R74). -/
inductive AsmOp where
  | describe | reset | config | feed | fin | query | oneshot
  deriving DecidableEq, Repr

/-- One line `<unit>.<op> operands` (R74). -/
structure AsmLine where
  unit : UnitId
  op : AsmOp
  operands : List AsmOperand
  deriving DecidableEq, Repr

/-- The OP value an assembler operation stands for (R67). -/
def asmOpcode : AsmOp → Op
  | .describe => .describe
  | .reset => .reset
  | .config => .config
  | .feed => .feed
  | .fin => .feed
  | .query => .query
  | .oneshot => .oneshot

/-- String literals are allowed only where the DATA format is DB (R64, R74). -/
def allowsText (u : UnitId) : AsmOp → Bool
  | .feed | .oneshot => decide (u ≠ .bfp)
  | .describe | .reset | .config | .fin | .query => false

/-- The DATA words of the operands in order; none where an operand is not allowed or its number is wider than a word (R74). -/
def operandWords (text : Bool) : List AsmOperand → Option (List Word)
  | [] => some []
  | .number n :: rest =>
    if n < 2 ^ 32 then (operandWords text rest).map fun ws => BitVec.ofNat 32 n :: ws else none
  | .text chars :: rest =>
    if text then (operandWords text rest).map fun ws => chars.map byteWord ++ ws else none

/-- The words of a line: CMD with N the number of DATA words its operands produce, then those words (R74). -/
def assemble (l : AsmLine) : Option (List Word) :=
  if l.op = .fin ∧ l.operands ≠ [] then none
  else
    match operandWords (allowsText l.unit l.op) l.operands with
    | none => none
    | some ws =>
      if ws.length ≤ maxCount then some (header l.unit.number (asmOpcode l.op).number 0 ws.length :: ws) else none

/-- The pseudo-instructions (R75). -/
inductive Pseudo where
  | restart (u : UnitId)
  | defaults (u : UnitId)
  | b64eEncode (s : List Byte)
  | crcCheck (s : List Byte)
  | cksSum (s : List Byte)
  deriving DecidableEq, Repr

/-- The lines a pseudo-instruction expands to; none where R75 does not define it. -/
def expandPseudo : Pseudo → Option (List AsmLine)
  | .restart .b64e => none
  | .restart .crc => none
  | .restart .cks => none
  | .restart u => some [{ unit := u, op := .fin, operands := [] }]
  | .defaults u => some [{ unit := u, op := .config, operands := [] }]
  | .b64eEncode [] => none
  | .b64eEncode s => some [{ unit := .b64e, op := .feed, operands := [.text s] }, { unit := .b64e, op := .fin, operands := [] }]
  | .crcCheck s => some [{ unit := .crc, op := .feed, operands := [.text s] }, { unit := .crc, op := .fin, operands := [] }]
  | .cksSum s => some [{ unit := .cks, op := .feed, operands := [.text s] }, { unit := .cks, op := .fin, operands := [] }]

end Sys2Proof.Machine
end

