-- ==== Sys2Proof/Safety.lean ====
section
/-! DEFINITION. The terms the statements use: the invariant that every command boundary keeps (10_state.md), the encodings of a command
in the numbers of 30_encoding.md, and reference functions written from the prose of the spec rather than from its pseudocode. -/

namespace Sys2Proof.Machine

/-! ## The invariant of a command boundary -/

/-- R25. -/
abbrev B64Enc.Wf (x : B64Enc) : Prop :=
  (x.phase = .zero → x.pend = 0) ∧
  (x.phase = .one → x.pend.toNat % 16 = 0) ∧
  (x.phase = .two → x.pend.toNat % 4 = 0)

/-- R27. -/
abbrev B64Dec.Wf (x : B64Dec) : Prop :=
  (x.phase = .zero → x.pend = 0) ∧
  (x.phase = .one → x.pend.toNat < 64) ∧
  (x.phase = .two → x.pend.toNat < 16) ∧
  (x.phase = .three → x.pend.toNat < 4)

/-- The legal values of R28. IDX has no bound of 2^32 of its own: DESIGN CHOICE for builds with HEX_WIN_MAX > 2^31 (notes/assumptions/15.md). -/
abbrev HexEnc.Wf (p : Params) (x : HexEnc) : Prop :=
  x.buf.length = 2 * p.hexWinMax ∧ x.size ≤ p.hexWinMax ∧ x.size < 2 ^ 32 ∧ x.idx % 2 = 0 ∧
  (x.size = 0 → x.idx = 0) ∧ (0 < x.size → x.idx < 2 * x.size)

/-- The legal values of R29. -/
abbrev HexDec.Wf (p : Params) (x : HexDec) : Prop :=
  x.buf.length = p.hexWinMax ∧ x.size ≤ p.hexWinMax ∧ x.size < 2 ^ 32 ∧
  (x.size = 0 → x.idx = 0) ∧ (0 < x.size → x.idx < x.size) ∧ (x.nph = false → x.nhi = 0)

/-- The legal configuration of R30, and of R31 what both units share. -/
abbrev BitField.Wf (p : Params) (x : BitField) : Prop :=
  x.widths.length ≤ p.fieldListMax ∧ (∀ w ∈ x.widths, 1 ≤ w ∧ w ≤ 32) ∧
  (x.ws = 8 ∨ x.ws = 16 ∨ x.ws = 24 ∨ x.ws = 32) ∧
  x.fidx < x.widths.length ∧
  (x.reps ≠ 0 → x.done = false → x.cyc.toNat < x.reps.toNat) ∧
  (x.done = true → x.nb = 0 ∧ x.acc = 0)

/-- The packer's part of R31 and R32. -/
abbrev BitField.PackWf (p : Params) (x : BitField) : Prop :=
  x.Wf p ∧ x.nb < x.ws ∧ x.acc.toNat < 2 ^ x.nb

/-- The unpacker's part of R31: NB < L[FIDX]. -/
abbrev BitField.UnpackWf (p : Params) (x : BitField) : Prop :=
  x.Wf p ∧ x.nb < x.widths.getD x.fidx 0

/-- No BYTES event is empty (R37), and an error carries RET NONE (R148). -/
def Output.wf : Output → Bool
  | .event _ (.bytes s) => !s.isEmpty
  | .event _ (.value _) => true
  | .event _ .empty => true
  | .response r => !r.status.isError || r.ret == .none

/-- What holds at every command boundary. -/
abbrev State.Wf (s : State) : Prop :=
  s.params.Wf ∧ s.b64e.Wf ∧ s.b64d.Wf ∧ s.hexe.Wf s.params ∧ s.hexd.Wf s.params ∧
  s.bfp.PackWf s.params ∧ s.bfu.UnpackWf s.params ∧ ∀ o ∈ s.trace, o.wf = true

/-! ## What a statement says of a unit -/

/-- The two states hold the same registers of unit `u`. -/
def SameUnit (u : UnitId) (s t : State) : Prop :=
  match u with
  | .b64e => s.b64e = t.b64e
  | .b64d => s.b64d = t.b64d
  | .hexe => s.hexe = t.hexe
  | .hexd => s.hexd = t.hexd
  | .bfp => s.bfp = t.bfp
  | .bfu => s.bfu = t.bfu
  | .crc => s.crc = t.crc
  | .cks => s.cks = t.cks

/-- The two states hold the same registers of every unit, the same parameters and the same port. -/
def SameRegisters (s t : State) : Prop :=
  (∀ u, SameUnit u s t) ∧ s.params = t.params ∧ s.port = t.port

/-- The outputs of one command: its events on the SINK of unit `u`, in order, then its response. -/
def outputs (u : UnitId) (events : List Event) (status : Status) (ret : Ret) : List Output :=
  events.map (Output.event u) ++ [.response { status := status, ret := ret }]

/-! ## Encodings in numbers -/

/-- CMD = (UNIT << 28) | (OP << 24) | N (30_encoding.md, section 4). -/
def cmdNumber (unit op n : Nat) : Word := BitVec.ofNat 32 (unit * 2 ^ 28 + op * 2 ^ 24 + n)

/-- Command `i` is UNIT, OP with N = 0, and any other N is BAD_COUNT. -/
def TakesNoData (unit op : Nat) (i : Instr) : Prop :=
  ∀ (p : Params) (data rest : List Word), data.length ≤ 65535 →
    decode p (cmdNumber unit op data.length :: (data ++ rest)) =
      if data = [] then .instr i rest else .rejected .badCount rest

/-- Command `i` is UNIT, FEED with N = 0. -/
def IsFinalize (unit : Nat) (i : Instr) : Prop :=
  ∀ (p : Params) (rest : List Word), decode p (cmdNumber unit 3 0 :: rest) = .instr i rest

/-- UNIT, OP with at least `least` DB words is the command of their bytes, and DATA_RANGE if some DATA[31:8] is not zero. -/
def TakesBytes (unit op least : Nat) (mk : List Byte → Instr) : Prop :=
  ∀ (p : Params) (data rest : List Word), least ≤ data.length → data.length ≤ 65535 →
    decode p (cmdNumber unit op data.length :: (data ++ rest)) =
      if ∀ d ∈ data, d.toNat < 256 then .instr (mk (data.map fun d => BitVec.ofNat 8 d.toNat)) rest
      else .rejected .dataRange rest

/-- UNIT, FEED with at least one DV word is the command of those values. -/
def TakesValues (unit : Nat) (mk : List Word → Instr) : Prop :=
  ∀ (p : Params) (data rest : List Word), 1 ≤ data.length → data.length ≤ 65535 →
    decode p (cmdNumber unit 3 data.length :: (data ++ rest)) = .instr (mk data) rest

/-- UNIT, CONFIG with at most `most` DP words is the command of those parameters, and BAD_COUNT with more. -/
def TakesParams (unit : Nat) (most : Params → Nat) (mk : List Word → Instr) : Prop :=
  ∀ (p : Params) (data rest : List Word), data.length ≤ 65535 →
    decode p (cmdNumber unit 2 data.length :: (data ++ rest)) =
      if data.length ≤ most p then .instr (mk data) rest else .rejected .badCount rest

/-! ## Reference functions -/

/-- The character of a 6-bit number (R20). -/
def b64CharOf (n : Nat) : Byte := b64Char (BitVec.ofNat 6 n)

/-- Standard base64 (20_memory.md R48, 40_base64.md R77): each 3 bytes are one 24-bit number written as four 6-bit characters, and a rest of
1 or 2 bytes is padded with zero bits and with `==` or `=`. -/
def base64Text : List Byte → List Byte
  | a :: b :: c :: rest =>
    let n := a.toNat * 65536 + b.toNat * 256 + c.toNat
    b64CharOf (n / 262144) :: b64CharOf (n / 4096 % 64) :: b64CharOf (n / 64 % 64) :: b64CharOf (n % 64) :: base64Text rest
  | [a, b] =>
    let n := a.toNat * 65536 + b.toNat * 256
    [b64CharOf (n / 262144), b64CharOf (n / 4096 % 64), b64CharOf (n / 64 % 64), 0x3D]
  | [a] =>
    let n := a.toNat * 65536
    [b64CharOf (n / 262144), b64CharOf (n / 4096 % 64), 0x3D, 0x3D]
  | [] => []

/-- The upper-case hex text of a byte string, two characters a byte, high nibble first (R49, R97). -/
def hexText (s : List Byte) : List Byte :=
  s.flatMap fun b => [hexChar (BitVec.ofNat 4 (b.toNat / 16)), hexChar (BitVec.ofNat 4 (b.toNat % 16))]

/-- A letter in upper case; every other character as it is. -/
def upperCase (c : Byte) : Byte := if 0x61 ≤ c.toNat ∧ c.toNat ≤ 0x7A then c - 0x20 else c

/-- The bytes of the BYTES events of a list of events, joined in order. -/
def eventBytes (events : List Event) : List Byte :=
  events.flatMap fun
    | .bytes s => s
    | .value _ => []
    | .empty => []

/-- The sum of the bytes of a string, as a number (R135). -/
def byteSum (s : List Byte) : Nat := (s.map BitVec.toNat).sum

/-- Bit-serial CRC: shift one message bit in (43_checksum_crc.md R136: "XOR with the polynomial whenever the top bit is set before the shift"). -/
def crcBit (poly : Half) (r : Half) (bit : Bool) : Half :=
  if r.getLsbD 15 ^^ bit then (r <<< 1) ^^^ poly else r <<< 1

/-- The bits of a byte in the order the CRC takes them: bit 7 first, or bit 0 first when the input is reflected (R137). -/
def crcBitsOf (refin : Bool) (b : Byte) : List Bool :=
  (List.range 8).map fun i => b.getLsbD (if refin then i else 7 - i)

/-- The CRC register after a message, bit by bit. -/
def crcSerial (poly : Half) (refin : Bool) (reg : Half) (s : List Byte) : Half :=
  (s.flatMap (crcBitsOf refin)).foldl (crcBit poly) reg

/-- The value a CRC register is reported as (R138), with the reversal said bit by bit: bit 15−i of it is bit i of the register. -/
def crcReported (reg : Half) (refout : Bool) (xorout : Half) : Half :=
  (if refout then reg.reverse else reg) ^^^ xorout

/-- The bit-field unit is configured for the only order the CORE realises and for no start offset (R111). -/
abbrev BitField.Supported (x : BitField) : Prop := x.bigEnd = true ∧ x.ofs = 0

/-- The width of the j-th field from the current one on: L[(FIDX + j) mod K] (R112). -/
def widthAhead (x : BitField) (j : Nat) : Nat := x.widths.getD ((x.fidx + j) % x.widths.length) 0

/-- The bits that the next `m` fields take. -/
def bitsAhead (x : BitField) (m : Nat) : Nat := ((List.range m).map (widthAhead x)).sum

/-- Fields read as one number, the first field in the most significant bits (R47). -/
def fieldsNumber (x : BitField) : List Nat → Nat → Nat → Nat
  | [], _, n => n
  | f :: fs, j, n => fieldsNumber x fs (j + 1) (n * 2 ^ widthAhead x j + f)

/-- The WS/8 bytes of a word number, most significant first (R47, R113). -/
def bytesOfWord (ws n : Nat) : List Byte :=
  (List.range (ws / 8)).map fun i => BitVec.ofNat 8 (n / 2 ^ (ws - 8 - 8 * i))

end Sys2Proof.Machine
end

