-- ==== Sys2Proof/Certificates/Slice0/Obligations.lean ====
section
/-! DEFINITION. The statements for the provers. Each formalises the rules R<n> of spec/ that its entry in OBLIGATIONS.json cites. -/

open Sys2Proof Sys2Proof.Machine

/-! ## Encoding, framing and the step -/

/-- Decode after encode: every well-formed command, with every operand, is read back, and the words after it are left (R63 to R70). -/
def Obligations.DecodeOfEncodeIsTheCommand : Prop :=
  ∀ (p : Params) (i : Instr) (rest : List Word), i.WellFormed p = true → decode p (encode i ++ rest) = .instr i rest

/-- Encode after decode: words that decode are exactly the encoding of the command, and the command is well-formed; no bit is dropped (R63 to R73). -/
def Obligations.DecodedWordsAreTheEncoding : Prop :=
  ∀ (p : Params) (ws : List Word) (i : Instr) (rest : List Word),
    decode p ws = .instr i rest → i.WellFormed p = true ∧ ws = encode i ++ rest

/-- Words written out from the spec's encodings decode to the commands they stand for, one per unit (section 4 and the example of R74). -/
def Obligations.WrittenOutWordsDecode : Prop :=
  ∀ p : Params,
    decode p [0x03000002, 0x0000004D, 0x00000061] = .instr (.b64eFeed [0x4D, 0x61]) [] ∧
    decode p [0x13000000] = .instr .b64dFin [] ∧
    decode p [0x22000001, 0x00000002] = .instr (.hexeConfig [2]) [] ∧
    decode p [0x34000000] = .instr .hexdQuery [] ∧
    decode p [0x43000002, 0x00000ABC, 0xDEADBEEF] = .instr (.bfpFeed [0xABC, 0xDEADBEEF]) [] ∧
    decode p [0x51000000] = .instr .bfuReset [] ∧
    decode p [0x65000001, 0x00000041] = .instr (.crcOneshot [0x41]) [] ∧
    decode p [0x70000000] = .instr .cksDescribe []

/-- When the words at the port decode to a command, the step is that command's meaning on the state whose port has passed the command's
words, and nothing else. -/
def Obligations.StepRunsTheDecodedCommand : Prop :=
  ∀ (s : State) (i : Instr) (rest : List Word),
    decode s.params s.port = .instr i rest → step s = exec i { s with port := rest }

/-- While the 1 + N words of a command are not all there, or there is no word, a step changes nothing: the first two clauses are the model's reading of
a waiting CORE (DEDUCED, notes/assumptions/3.md; R39, R167 item 1, I17). Once the words are there, a step consumes exactly them (R39, R65) and delivers one
response (R38). -/
def Obligations.CommandRunsOnlyWhenWhole : Prop :=
  (∀ s : State, s.port = [] → step s = .next s) ∧
  (∀ (s : State) (cmd : Word) (ws : List Word),
    s.port = cmd :: ws → ws.length < cmd.toNat % 65536 → step s = .next s) ∧
  (∀ (s : State) (cmd : Word) (data rest : List Word),
    s.port = cmd :: (data ++ rest) → data.length = cmd.toNat % 65536 →
      ∃ t, step s = .next t ∧ t.port = rest ∧ t.responses.length = s.responses.length + 1)

/-- The common checks, in the order of R72, on the fields of CMD as numbers: the first failed one gives its status and nothing else changes but
the consumed words; with none failed, the command of that UNIT, OP and DATA is executed (the well-formed one: FEED with N ≥ 1, FINALIZE with N = 0). -/
def Obligations.ChecksAreMadeInTheOrderOfTheSpec : Prop :=
  ∀ (s : State) (cmd : Word) (data rest : List Word),
    s.port = cmd :: (data ++ rest) → data.length = cmd.toNat % 65536 →
      let u := cmd.toNat / 2 ^ 28
      let op := cmd.toNat / 2 ^ 24 % 16
      let rsv := cmd.toNat / 2 ^ 16 % 256
      let n := cmd.toNat % 2 ^ 16
      let maxp :=
        if u = 2 ∨ u = 3 then 1 else if u = 6 then 5 else if u = 4 ∨ u = 5 then 4 + s.params.fieldListMax else 0
      let refusedWith := fun st : Status =>
        step s = .next { s with port := rest, trace := s.trace ++ [.response { status := st, ret := .none }] }
      if 8 ≤ u then refusedWith .illegalUnit
      else if 6 ≤ op ∨ (op = 4 ∧ u ≤ 1) ∨ (op = 5 ∧ u ≠ 0 ∧ u ≠ 6) then refusedWith .illegalOp
      else if rsv ≠ 0 then refusedWith .reservedBits
      else if (op = 0 ∨ op = 1 ∨ op = 4) ∧ n ≠ 0 then refusedWith .badCount
      else if op = 2 ∧ maxp < n then refusedWith .badCount
      else if (op = 3 ∨ op = 5) ∧ u ≠ 4 ∧ ∃ d ∈ data, 256 ≤ d.toNat then refusedWith .dataRange
      else
        ∃ i : Instr, step s = exec i { s with port := rest } ∧
          i.unit.number.toNat = u ∧ i.op.number.toNat = op ∧ i.data = data ∧ i.WellFormed s.params = true

/-- The status codes and their classes (R148): the twelve codes, errors exactly 0x01..0x0F, and no other code is ever produced. -/
def Obligations.StatusCodesAreThoseOfTheTable : Prop :=
  (Status.code .ok = 0x00 ∧ Status.code .illegalUnit = 0x01 ∧ Status.code .illegalOp = 0x02 ∧
    Status.code .reservedBits = 0x03 ∧ Status.code .badCount = 0x04 ∧ Status.code .dataRange = 0x05 ∧
    Status.code .cfgInvalid = 0x06 ∧ Status.code .cfgNoSpace = 0x07 ∧ Status.code .unsupported = 0x08 ∧
    Status.code .okInputRejected = 0x10 ∧ Status.code .okCfgDefaulted = 0x11 ∧ Status.code .okStreamComplete = 0x12) ∧
  (∀ st : Status, st.code.toNat ≤ 0x08 ∨ (0x10 ≤ st.code.toNat ∧ st.code.toNat ≤ 0x12)) ∧
  (∀ st : Status, st.isError = true ↔ 1 ≤ st.code.toNat ∧ st.code.toNat ≤ 0x0F) ∧
  ∀ st : Status, st.isError = false ↔ st = .ok ∨ st = .okInputRejected ∨ st = .okCfgDefaulted ∨ st = .okStreamComplete

/-- A step never faults and never refuses: every command, a rejected one too, and waiting for one, answers a next state (R38, R151). -/
def Obligations.StepAlwaysAnswersNext : Prop :=
  ∀ s : State, ∃ t, step s = .next t

/-- Every whole command appends, after everything delivered before, events of the unit its CMD addresses and then exactly one response; the
streams are append-only (R37, R38, R56 to R58). -/
def Obligations.EventsOfTheUnitThenOneResponse : Prop :=
  ∀ (s : State) (cmd : Word) (data rest : List Word),
    s.port = cmd :: (data ++ rest) → data.length = cmd.toNat % 65536 →
      ∃ t events r, step s = .next t ∧
        t.trace = s.trace ++ (events ++ [.response r]) ∧
        ∀ o ∈ events, ∃ u e, o = .event u e ∧ u.number.toNat = cmd.toNat / 2 ^ 28

/-- A command that ends with an error status has no effect except its response, whose RET is NONE (R16): for a command that was decoded, and for
every whole command at the port, a rejected one too, whose words are consumed. -/
def Obligations.ErrorStatusMeansNoOtherEffect : Prop :=
  (∀ (i : Instr) (s t : State) (r : Response),
    exec i s = .next t → t.trace.getLast? = some (.response r) → r.status.isError = true →
      r.ret = .none ∧ t = { s with trace := s.trace ++ [.response r] }) ∧
  ∀ (s t : State) (cmd : Word) (data rest : List Word) (r : Response),
    s.port = cmd :: (data ++ rest) → data.length = cmd.toNat % 65536 →
    step s = .next t → t.trace.getLast? = some (.response r) → r.status.isError = true →
      r.ret = .none ∧ t = { s with port := rest, trace := s.trace ++ [.response r] }

/-- A command changes only the unit it addresses: no other unit's registers, no other unit's SINK, not the parameters, not the port (R19, R10). -/
def Obligations.CommandChangesOnlyItsUnit : Prop :=
  ∀ (i : Instr) (s : State), ∃ t, exec i s = .next t ∧
    (∀ v, v ≠ i.unit → SameUnit v t s ∧ t.sink v = s.sink v) ∧ t.params = s.params ∧ t.port = s.port

/-- No unit reads another unit's registers: from two states that agree on the addressed unit, a command leaves that unit the same and delivers
the same outputs, whatever the rest of the states holds (R19). -/
def Obligations.CommandReadsOnlyItsUnit : Prop :=
  ∀ (i : Instr) (s1 s2 : State), SameUnit i.unit s1 s2 → s1.params = s2.params →
    ∃ t1 t2 out, exec i s1 = .next t1 ∧ exec i s2 = .next t2 ∧ SameUnit i.unit t1 t2 ∧
      t1.trace = s1.trace ++ out ∧ t2.trace = s2.trace ++ out

/-- Commands to different units commute: in either order every register ends the same, and so does every SINK stream (R19, R57, R168). -/
def Obligations.CommandsToDifferentUnitsCommute : Prop :=
  ∀ (i j : Instr) (s : State), i.unit ≠ j.unit →
    ∃ ti tj tij tji, exec i s = .next ti ∧ exec j ti = .next tij ∧ exec j s = .next tj ∧ exec i tj = .next tji ∧
      SameRegisters tij tji ∧ ∀ v, tij.sink v = tji.sink v

/-! ## The invariant, reset and describe -/

/-- Every step keeps the conditions of a command boundary (R25, R27 to R32, R37, R148) and the parameters. -/
def Obligations.StepKeepsTheBoundaryConditions : Prop :=
  ∀ s t : State, s.Wf → step s = .next t → t.Wf ∧ t.params = s.params

/-- Power-on meets the conditions of a command boundary, for any parameters at least 1. -/
def Obligations.PowerOnMeetsTheBoundaryConditions : Prop :=
  ∀ p : Params, p.Wf → (State.resetWith p).Wf

/-- Power-on: every unit in its reset state, every SINK stream empty, no response, the port at a command boundary (R163, R164). -/
def Obligations.PowerOnHoldsTheResetState : Prop :=
  ∀ p : Params,
    (State.resetWith p).b64e = { phase := .zero, pend := 0 } ∧
    (State.resetWith p).b64d = { phase := .zero, pend := 0 } ∧
    (State.resetWith p).hexe = { size := 0, idx := 0, buf := List.replicate (2 * p.hexWinMax) 0x00 } ∧
    (State.resetWith p).hexd =
      { size := 0, idx := 0, buf := List.replicate p.hexWinMax 0x00, nph := false, nhi := 0 } ∧
    (State.resetWith p).bfp =
      { widths := [8], ofs := 0, reps := 0, ws := 8, bigEnd := true,
        acc := 0, nb := 0, fidx := 0, cyc := 0, done := false, last := 0 } ∧
    (State.resetWith p).bfu = (State.resetWith p).bfp ∧
    (State.resetWith p).crc =
      { poly := 0x8005, init := 0x0000, refin := true, refout := true, xorout := 0x0000, reg := 0x0000 } ∧
    (State.resetWith p).cks = { acc := 0 } ∧
    (∀ u, (State.resetWith p).sink u = []) ∧ (State.resetWith p).responses = [] ∧ (State.resetWith p).port = []

/-- `<unit>.reset` sets every register of its unit to the reset value and changes nothing else; RET NONE, no event (R164 and the rule of each unit). -/
def Obligations.ResetCommandsRestoreTheTable : Prop :=
  (TakesNoData 0 1 .b64eReset ∧ TakesNoData 1 1 .b64dReset ∧ TakesNoData 2 1 .hexeReset ∧ TakesNoData 3 1 .hexdReset ∧
    TakesNoData 4 1 .bfpReset ∧ TakesNoData 5 1 .bfuReset ∧ TakesNoData 6 1 .crcReset ∧ TakesNoData 7 1 .cksReset) ∧
  ∀ s : State,
    let answered := s.trace ++ [.response { status := .ok, ret := .none }]
    let fields : BitField :=
      { widths := [8], ofs := 0, reps := 0, ws := 8, bigEnd := true,
        acc := 0, nb := 0, fidx := 0, cyc := 0, done := false, last := 0 }
    exec .b64eReset s = .next { s with b64e := { phase := .zero, pend := 0 }, trace := answered } ∧
    exec .b64dReset s = .next { s with b64d := { phase := .zero, pend := 0 }, trace := answered } ∧
    exec .hexeReset s =
      .next { s with hexe := { size := 0, idx := 0, buf := List.replicate (2 * s.params.hexWinMax) 0x00 }, trace := answered } ∧
    exec .hexdReset s =
      .next { s with
        hexd := { size := 0, idx := 0, buf := List.replicate s.params.hexWinMax 0x00, nph := false, nhi := 0 }, trace := answered } ∧
    exec .bfpReset s = .next { s with bfp := fields, trace := answered } ∧
    exec .bfuReset s = .next { s with bfu := fields, trace := answered } ∧
    exec .crcReset s =
      .next { s with
        crc := { poly := 0x8005, init := 0, refin := true, refout := true, xorout := 0, reg := 0 }, trace := answered } ∧
    exec .cksReset s = .next { s with cks := { acc := 0 }, trace := answered }

/-- `<unit>.describe` returns the unit's text, changes no register and emits no event (R78, R85, R94, R102, R114, R121, R129, R139). -/
def Obligations.DescribeReturnsTheTextOnly : Prop :=
  (TakesNoData 0 0 .b64eDescribe ∧ TakesNoData 1 0 .b64dDescribe ∧ TakesNoData 2 0 .hexeDescribe ∧ TakesNoData 3 0 .hexdDescribe ∧
    TakesNoData 4 0 .bfpDescribe ∧ TakesNoData 5 0 .bfuDescribe ∧ TakesNoData 6 0 .crcDescribe ∧ TakesNoData 7 0 .cksDescribe) ∧
  ∀ s : State,
    let answered := fun u : UnitId =>
      { s with trace := s.trace ++ [.response { status := .ok, ret := .bytes (Config.describeText u) }] }
    exec .b64eDescribe s = .next (answered .b64e) ∧ exec .b64dDescribe s = .next (answered .b64d) ∧
    exec .hexeDescribe s = .next (answered .hexe) ∧ exec .hexdDescribe s = .next (answered .hexd) ∧
    exec .bfpDescribe s = .next (answered .bfp) ∧ exec .bfuDescribe s = .next (answered .bfu) ∧
    exec .crcDescribe s = .next (answered .crc) ∧ exec .cksDescribe s = .next (answered .cks)

/-! ## base64 -/

/-- B64_ALPHABET in its order, the character the encoder emits for each 6-bit value, and the decode values: exactly the 64 characters have one, '=' has
none (R20). -/
def Obligations.Base64AlphabetAndItsDecodeValues : Prop :=
  b64Alphabet = "ABCDEFGHIJKLMNOPQRSTUVWXYZabcdefghijklmnopqrstuvwxyz0123456789+/".toList.map (fun c => BitVec.ofNat 8 c.toNat) ∧
  (∀ v : BitVec 6, b64Alphabet[v.toNat]? = some (b64Char v)) ∧
  (∀ (c : Byte) (v : BitVec 6), b64Value c = some v ↔ b64Alphabet[v.toNat]? = some c) ∧
  b64Value 0x3D = none

/-- `b64e.feed` of one byte in each phase (R76): which characters, as one event and in RET, and PHASE and PEND after. -/
def Obligations.EncoderFeedOfOneByte : Prop :=
  TakesBytes 0 3 1 .b64eFeed ∧
  ∀ (s : State) (b : Byte),
    let n := b.toNat
    let after := fun (phase : EncPhase) (pend : Nat) (out : List Byte) =>
      { s with
        b64e := { phase := phase, pend := BitVec.ofNat 6 pend },
        trace := s.trace ++ outputs .b64e [.bytes out] .ok (.bytes out) }
    (s.b64e.phase = .zero → exec (.b64eFeed [b]) s = .next (after .one (n % 4 * 16) [b64CharOf (n / 4)])) ∧
    (s.b64e.phase = .one →
      exec (.b64eFeed [b]) s =
        .next (after .two (n % 16 * 4) [b64Char (s.b64e.pend ||| BitVec.ofNat 6 (n / 16))])) ∧
    (s.b64e.phase = .two →
      exec (.b64eFeed [b]) s =
        .next (after .zero 0 [b64Char (s.b64e.pend ||| BitVec.ofNat 6 (n / 64)), b64CharOf (n % 64)]))

/-- `b64e.fin` (R77, R82): nothing at PHASE 0, one character and `==` at PHASE 1, one character and `=` at PHASE 2; PHASE and PEND are then 0. -/
def Obligations.EncoderFinalizePads : Prop :=
  IsFinalize 0 .b64eFin ∧
  ∀ s : State,
    let after := fun (events : List Event) (out : List Byte) =>
      { s with b64e := { phase := .zero, pend := 0 }, trace := s.trace ++ outputs .b64e events .ok (.bytes out) }
    (s.b64e.phase = .zero → exec .b64eFin s = .next (after [] [])) ∧
    (s.b64e.phase = .one →
      exec .b64eFin s = .next (after [.bytes [b64Char s.b64e.pend, 0x3D, 0x3D]] [b64Char s.b64e.pend, 0x3D, 0x3D])) ∧
    (s.b64e.phase = .two →
      exec .b64eFin s = .next (after [.bytes [b64Char s.b64e.pend, 0x3D]] [b64Char s.b64e.pend, 0x3D]))

/-- `b64e.config`, `b64d.config`, `b64d.fin` and `cks.config` clear the stream state of their unit and emit nothing (R80, R87, R89, R131). -/
def Obligations.ConfigWithoutParametersClears : Prop :=
  (TakesNoData 0 2 .b64eConfig ∧ TakesNoData 1 2 .b64dConfig ∧ IsFinalize 1 .b64dFin ∧ TakesNoData 7 2 .cksConfig) ∧
  ∀ s : State,
    exec .b64eConfig s =
      .next { s with b64e := { phase := .zero, pend := 0 }, trace := s.trace ++ outputs .b64e [] .ok .none } ∧
    exec .b64dConfig s =
      .next { s with b64d := { phase := .zero, pend := 0 }, trace := s.trace ++ outputs .b64d [] .ok .none } ∧
    exec .b64dFin s =
      .next { s with b64d := { phase := .zero, pend := 0 }, trace := s.trace ++ outputs .b64d [] .ok (.bytes []) } ∧
    exec .cksConfig s = .next { s with cks := { acc := 0 }, trace := s.trace ++ outputs .cks [] .ok .none }

/-- `b64e.oneshot` returns the standard base64 text of its bytes, changes no register and emits no event (R83 with R76, R77 and R48). -/
def Obligations.OneshotIsStandardBase64 : Prop :=
  TakesBytes 0 5 0 .b64eOneshot ∧
  ∀ (s : State) (bytes : List Byte),
    exec (.b64eOneshot bytes) s = .next { s with trace := s.trace ++ outputs .b64e [] .ok (.bytes (base64Text bytes)) }

/-- From PHASE 0, the RET of `b64e.oneshot` is the RET of `b64e.feed` followed by the RET of `b64e.fin`; for no bytes, of `b64e.fin` alone (R91). -/
def Obligations.OneshotIsFeedThenFinalize : Prop :=
  ∀ (s : State), s.b64e.phase = .zero →
    (∀ bytes : List Byte, bytes ≠ [] →
      ∃ t0 t1 t2 events1 events2 ret1 ret2,
        exec (.b64eOneshot bytes) s = .next t0 ∧ exec (.b64eFeed bytes) s = .next t1 ∧ exec .b64eFin t1 = .next t2 ∧
        t1.trace = s.trace ++ outputs .b64e events1 .ok (.bytes ret1) ∧
        t2.trace = t1.trace ++ outputs .b64e events2 .ok (.bytes ret2) ∧
        t0.trace = s.trace ++ outputs .b64e [] .ok (.bytes (ret1 ++ ret2))) ∧
    (∃ t0 t2 ret,
      exec (.b64eOneshot []) s = .next t0 ∧ exec .b64eFin s = .next t2 ∧
      t2.trace = s.trace ++ outputs .b64e [] .ok (.bytes ret) ∧
      t0.trace = s.trace ++ outputs .b64e [] .ok (.bytes ret))

/-- `b64d.feed` of one character (R84, R88): a character with no decode value resets the group and gives 0x10; a character of value v gives the byte
of its phase, 6 bits at a time. -/
def Obligations.DecoderFeedOfOneCharacter : Prop :=
  TakesBytes 1 3 1 .b64dFeed ∧
  ∀ (s : State) (c : Byte),
    let p := s.b64d.pend.toNat
    let after := fun (phase : DecPhase) (pend : Nat) (out : List Byte) =>
      { s with
        b64d := { phase := phase, pend := BitVec.ofNat 6 pend },
        trace := s.trace ++ outputs .b64d (if out = [] then [] else [.bytes out]) .ok (.bytes out) }
    (b64Value c = none →
      exec (.b64dFeed [c]) s =
        .next { s with
          b64d := { phase := .zero, pend := 0 }, trace := s.trace ++ outputs .b64d [] .okInputRejected (.bytes []) }) ∧
    ∀ v : BitVec 6, b64Value c = some v →
      let n := v.toNat
      (s.b64d.phase = .zero → exec (.b64dFeed [c]) s = .next (after .one n [])) ∧
      (s.b64d.phase = .one →
        exec (.b64dFeed [c]) s = .next (after .two (n % 16) [BitVec.ofNat 8 (p * 4 + n / 16)])) ∧
      (s.b64d.phase = .two → p < 16 →
        exec (.b64dFeed [c]) s = .next (after .three (n % 4) [BitVec.ofNat 8 (p * 16 + n / 4)])) ∧
      (s.b64d.phase = .three → p < 4 →
        exec (.b64dFeed [c]) s = .next (after .zero 0 [BitVec.ofNat 8 (p * 64 + n)]))

/-- For both base64 units a FEED may be split anywhere: the registers after, the events and the joined RETs are the same, and the decoder's status is
0x10 exactly if one of the parts gave it (R90, R168). -/
def Obligations.Base64FeedSplitsAnywhere : Prop :=
  (∀ (s : State) (a b : List Byte),
    ∃ t t1 t2 events1 events2 ret1 ret2,
      exec (.b64eFeed a) s = .next t1 ∧ exec (.b64eFeed b) t1 = .next t2 ∧ exec (.b64eFeed (a ++ b)) s = .next t ∧
      t1.trace = s.trace ++ outputs .b64e events1 .ok (.bytes ret1) ∧
      t2.trace = t1.trace ++ outputs .b64e events2 .ok (.bytes ret2) ∧
      t.trace = s.trace ++ outputs .b64e (events1 ++ events2) .ok (.bytes (ret1 ++ ret2)) ∧
      SameRegisters t t2) ∧
  (∀ (s : State) (a b : List Byte),
    ∃ t t1 t2 events1 events2 ret1 ret2 flag1 flag2,
      exec (.b64dFeed a) s = .next t1 ∧ exec (.b64dFeed b) t1 = .next t2 ∧ exec (.b64dFeed (a ++ b)) s = .next t ∧
      t1.trace = s.trace ++ outputs .b64d events1 (inputStatus flag1) (.bytes ret1) ∧
      t2.trace = t1.trace ++ outputs .b64d events2 (inputStatus flag2) (.bytes ret2) ∧
      t.trace = s.trace ++ outputs .b64d (events1 ++ events2) (inputStatus (flag1 || flag2)) (.bytes (ret1 ++ ret2)) ∧
      SameRegisters t t2)

/-- Base64 round trip (R92): feeding the RET of `b64e.oneshot` to the decoder at PHASE 0 returns the bytes, with 0x10 exactly if there is padding. -/
def Obligations.Base64RoundTrip : Prop :=
  ∀ (s1 s2 : State) (bytes text : List Byte) (t1 : State), bytes ≠ [] →
    exec (.b64eOneshot bytes) s1 = .next t1 →
    t1.trace.getLast? = some (.response { status := .ok, ret := .bytes text }) →
    s2.b64d.phase = .zero →
      ∃ t2, exec (.b64dFeed text) s2 = .next t2 ∧
        t2.trace.getLast? =
          some (.response { status := if bytes.length % 3 = 0 then .ok else .okInputRejected, ret := .bytes bytes })

/-! ## hex -/

/-- HEX_ALPHABET in its order, the character the encoder emits for each nibble (in upper case), and the decode values, upper and lower case (R21). -/
def Obligations.HexAlphabetAndItsDecodeValues : Prop :=
  hexAlphabet = "0123456789ABCDEF".toList.map (fun c => BitVec.ofNat 8 c.toNat) ∧
  (∀ v : BitVec 4, hexAlphabet[v.toNat]? = some (hexChar v)) ∧
  ∀ (c : Byte) (v : BitVec 4),
    hexValue c = some v ↔ hexAlphabet[v.toNat]? = some c ∨ (10 ≤ v.toNat ∧ hexAlphabet[v.toNat]? = some (c - 0x20))

/-- `hexe.config` and `hexd.config` (R96, R104): a window above HEX_WIN_MAX is CFG_NO_SPACE with nothing changed; else the size is set, default 0, and
the partial window and the pending nibble are discarded without an event. -/
def Obligations.HexConfigSetsTheWindow : Prop :=
  (TakesParams 2 (fun _ => 1) .hexeConfig ∧ TakesParams 3 (fun _ => 1) .hexdConfig) ∧
  ∀ (s : State) (ps : List Word),
    let size := if 1 ≤ ps.length then (ps.getD 0 0).toNat else 0
    (if s.params.hexWinMax < size then
      exec (.hexeConfig ps) s = .next { s with trace := s.trace ++ [.response { status := .cfgNoSpace, ret := .none }] } ∧
      exec (.hexdConfig ps) s = .next { s with trace := s.trace ++ [.response { status := .cfgNoSpace, ret := .none }] }
    else
      exec (.hexeConfig ps) s =
        .next { s with
          hexe := { size := size, idx := 0, buf := s.hexe.buf }, trace := s.trace ++ outputs .hexe [] .ok .none } ∧
      exec (.hexdConfig ps) s =
        .next { s with
          hexd := { size := size, idx := 0, buf := s.hexd.buf, nph := false, nhi := 0 },
          trace := s.trace ++ outputs .hexd [] .ok .none })

/-- `hexe.feed` of one byte (R93, R97): at once in continuous mode; into the window otherwise, which is emitted whole when it fills. -/
def Obligations.HexEncoderFeedOfOneByte : Prop :=
  TakesBytes 2 3 1 .hexeFeed ∧
  ∀ (s : State) (b : Byte),
    let x := s.hexe
    let hi := hexChar (BitVec.ofNat 4 (b.toNat / 16))
    let lo := hexChar (BitVec.ofNat 4 (b.toNat % 16))
    let buf := (x.buf.set x.idx hi).set (x.idx + 1) lo
    let after := fun (y : HexEnc) (events : List Event) =>
      { s with hexe := y, trace := s.trace ++ outputs .hexe events .ok (.bytes [hi, lo]) }
    (x.size = 0 → exec (.hexeFeed [b]) s = .next (after x [.bytes [hi, lo]])) ∧
    (0 < x.size → x.idx + 2 ≠ 2 * x.size →
      exec (.hexeFeed [b]) s = .next (after { size := x.size, idx := x.idx + 2, buf := buf } [])) ∧
    (0 < x.size → x.idx + 2 = 2 * x.size →
      exec (.hexeFeed [b]) s =
        .next (after { size := x.size, idx := 0, buf := buf } [.bytes (buf.take (2 * x.size))]))

/-- `hexd.feed` of one character (R100, R101, R105): a non-hex character drops the pending nibble and gives 0x10; the first digit of a pair is kept; the
second gives a byte, emitted at once or put in the window, which is emitted whole when it fills. -/
def Obligations.HexDecoderFeedOfOneCharacter : Prop :=
  TakesBytes 3 3 1 .hexdFeed ∧
  ∀ (s : State) (c : Byte),
    let x := s.hexd
    (hexValue c = none →
      exec (.hexdFeed [c]) s =
        .next { s with
          hexd := { x with nph := false, nhi := 0 }, trace := s.trace ++ outputs .hexd [] .okInputRejected (.bytes []) }) ∧
    ∀ v : BitVec 4, hexValue c = some v →
      let byte : Byte := BitVec.ofNat 8 (x.nhi.toNat * 16 + v.toNat)
      let buf := x.buf.set x.idx byte
      let after := fun (idx : Nat) (buf : List Byte) (events : List Event) =>
        { s with
          hexd := { size := x.size, idx := idx, buf := buf, nph := false, nhi := 0 },
          trace := s.trace ++ outputs .hexd events .ok (.bytes [byte]) }
      (x.nph = false →
        exec (.hexdFeed [c]) s =
          .next { s with hexd := { x with nph := true, nhi := v }, trace := s.trace ++ outputs .hexd [] .ok (.bytes []) }) ∧
      (x.nph = true → x.size = 0 → exec (.hexdFeed [c]) s = .next (after x.idx x.buf [.bytes [byte]])) ∧
      (x.nph = true → 0 < x.size → x.idx + 1 ≠ x.size →
        exec (.hexdFeed [c]) s = .next (after (x.idx + 1) buf [])) ∧
      (x.nph = true → 0 < x.size → x.idx + 1 = x.size →
        exec (.hexdFeed [c]) s = .next (after 0 buf [.bytes (buf.take x.size)]))

/-- FINALIZE and QUERY of the hex units (R98, R99, R106, R107): both reset IDX and emit nothing; QUERY returns the buffered bytes and keeps a pending
nibble, FINALIZE returns no byte and discards it. -/
def Obligations.HexFinalizeAndQuery : Prop :=
  (IsFinalize 2 .hexeFin ∧ TakesNoData 2 4 .hexeQuery ∧ IsFinalize 3 .hexdFin ∧ TakesNoData 3 4 .hexdQuery) ∧
  ∀ s : State,
    exec .hexeFin s =
      .next { s with hexe := { s.hexe with idx := 0 }, trace := s.trace ++ outputs .hexe [] .ok (.bytes []) } ∧
    exec .hexeQuery s =
      .next { s with
        hexe := { s.hexe with idx := 0 },
        trace := s.trace ++ outputs .hexe [] .ok (.bytes (s.hexe.buf.take s.hexe.idx)) } ∧
    exec .hexdFin s =
      .next { s with
        hexd := { s.hexd with idx := 0, nph := false, nhi := 0 }, trace := s.trace ++ outputs .hexd [] .ok (.bytes []) } ∧
    exec .hexdQuery s =
      .next { s with
        hexd := { s.hexd with idx := 0 },
        trace := s.trace ++ outputs .hexd [] .ok (.bytes (s.hexd.buf.take s.hexd.idx)) }

/-- For both hex units, in either mode, a FEED may be split anywhere (R109, R168). -/
def Obligations.HexFeedSplitsAnywhere : Prop :=
  (∀ (s : State) (a b : List Byte),
    ∃ t t1 t2 events1 events2 ret1 ret2,
      exec (.hexeFeed a) s = .next t1 ∧ exec (.hexeFeed b) t1 = .next t2 ∧ exec (.hexeFeed (a ++ b)) s = .next t ∧
      t1.trace = s.trace ++ outputs .hexe events1 .ok (.bytes ret1) ∧
      t2.trace = t1.trace ++ outputs .hexe events2 .ok (.bytes ret2) ∧
      t.trace = s.trace ++ outputs .hexe (events1 ++ events2) .ok (.bytes (ret1 ++ ret2)) ∧
      SameRegisters t t2) ∧
  (∀ (s : State) (a b : List Byte),
    ∃ t t1 t2 events1 events2 ret1 ret2 flag1 flag2,
      exec (.hexdFeed a) s = .next t1 ∧ exec (.hexdFeed b) t1 = .next t2 ∧ exec (.hexdFeed (a ++ b)) s = .next t ∧
      t1.trace = s.trace ++ outputs .hexd events1 (inputStatus flag1) (.bytes ret1) ∧
      t2.trace = t1.trace ++ outputs .hexd events2 (inputStatus flag2) (.bytes ret2) ∧
      t.trace = s.trace ++ outputs .hexd (events1 ++ events2) (inputStatus (flag1 || flag2)) (.bytes (ret1 ++ ret2)) ∧
      SameRegisters t t2)

/-- The hex encoder returns the whole hex text of a FEED in both modes, and in windowed mode loses and invents nothing: what was buffered, then the new
text, is the emitted windows, each of 2·SIZE characters, then what is buffered after (R93, R97). -/
def Obligations.HexEncoderWindowsConserveTheText : Prop :=
  ∀ (s : State) (bytes : List Byte), s.Wf →
    ∃ t events, exec (.hexeFeed bytes) s = .next t ∧
      t.trace = s.trace ++ outputs .hexe events .ok (.bytes (hexText bytes)) ∧
      eventBytes events ++ t.hexe.buf.take t.hexe.idx = s.hexe.buf.take s.hexe.idx ++ hexText bytes ∧
      (0 < s.hexe.size → ∀ e ∈ events, ∃ w, e = .bytes w ∧ w.length = 2 * s.hexe.size) ∧
      t.hexe.size = s.hexe.size

/-- Hex round trip (R108): feeding the RET of `hexe.feed`, in any mixture of upper and lower case, to the decoder with no pending nibble returns the bytes
with status OK. -/
def Obligations.HexRoundTrip : Prop :=
  ∀ (s1 s2 : State) (bytes text variant : List Byte) (t1 : State), bytes ≠ [] →
    exec (.hexeFeed bytes) s1 = .next t1 →
    t1.trace.getLast? = some (.response { status := .ok, ret := .bytes text }) →
    variant.map upperCase = text →
    s2.hexd.nph = false →
      ∃ t2, exec (.hexdFeed variant) s2 = .next t2 ∧
        t2.trace.getLast? = some (.response { status := .ok, ret := .bytes bytes })

/-! ## bit fields -/

/-- BF_CONFIG for both units (R110, R116, R123): a width outside 1..32 is CFG_INVALID with nothing changed; WS and END fall back with 0x11; the stream
registers are cleared and LAST is kept. -/
def Obligations.BitFieldConfigSetsOrRefuses : Prop :=
  (TakesParams 4 (fun p => 4 + p.fieldListMax) .bfpConfig ∧ TakesParams 5 (fun p => 4 + p.fieldListMax) .bfuConfig) ∧
  ∀ (s : State) (ps : List Word),
    let w0 := if 0 < ps.length then (ps.getD 0 0).toNat else 8
    let ofs := if 1 < ps.length then ps.getD 1 0 else 0
    let reps := if 2 < ps.length then ps.getD 2 0 else 0
    let ws := if 3 < ps.length then (ps.getD 3 0).toNat else 8
    let en := if 4 < ps.length then (ps.getD 4 0).toNat else 1
    let widths := w0 :: (ps.drop 5).map BitVec.toNat
    let wsOk := ws = 8 ∨ ws = 16 ∨ ws = 24 ∨ ws = 32
    let enOk := en = 0 ∨ en = 1
    let status : Status := if wsOk ∧ enOk then .ok else .okCfgDefaulted
    let cleared := fun last : Word => ({
      widths := widths, ofs := ofs, reps := reps, ws := if wsOk then ws else 8, bigEnd := if enOk then en == 1 else true,
      acc := 0, nb := 0, fidx := 0, cyc := 0, done := false, last := last } : BitField)
    if ∃ w ∈ widths, w < 1 ∨ 32 < w then
      exec (.bfpConfig ps) s = .next { s with trace := s.trace ++ [.response { status := .cfgInvalid, ret := .none }] } ∧
      exec (.bfuConfig ps) s = .next { s with trace := s.trace ++ [.response { status := .cfgInvalid, ret := .none }] }
    else
      exec (.bfpConfig ps) s =
        .next { s with bfp := cleared s.bfp.last, trace := s.trace ++ outputs .bfp [] status .none } ∧
      exec (.bfuConfig ps) s =
        .next { s with bfu := cleared s.bfu.last, trace := s.trace ++ outputs .bfu [] status .none }

/-- A bit-field FEED under END ≠ 1 or OFS ≠ 0 is UNSUPPORTED and changes nothing; the unit's other commands make no such check (R111). -/
def Obligations.BitFieldFeedIsRefusedWhenUnsupported : Prop :=
  (TakesValues 4 .bfpFeed ∧ TakesBytes 5 3 1 .bfuFeed) ∧
  ∀ s : State,
    let refused := State.mk s.params s.b64e s.b64d s.hexe s.hexd s.bfp s.bfu s.crc s.cks s.port
      (s.trace ++ [.response { status := .unsupported, ret := .none }])
    (¬ s.bfp.Supported → ∀ values : List Word, values ≠ [] → exec (.bfpFeed values) s = .next refused) ∧
    (¬ s.bfu.Supported → ∀ bytes : List Byte, bytes ≠ [] → exec (.bfuFeed bytes) s = .next refused) ∧
    ∀ i : Instr, (i.unit = .bfp ∨ i.unit = .bfu) → (∀ vs, i ≠ .bfpFeed vs) → (∀ bs, i ≠ .bfuFeed bs) →
      ∃ t r, exec i s = .next t ∧ t.trace.getLast? = some (.response r) ∧ r.status ≠ .unsupported

/-- Once REPS cycles are complete, a bit-field unit ignores every element until FINALIZE, CONFIG or RESET and reports 0x12 (R112, R117, R124, D20). -/
def Obligations.CompletedStreamIgnoresElements : Prop :=
  ∀ s : State,
    (s.bfp.Supported → s.bfp.done = true → ∀ values : List Word, values ≠ [] →
      exec (.bfpFeed values) s = .next { s with trace := s.trace ++ outputs .bfp [] .okStreamComplete .none }) ∧
    (s.bfu.Supported → s.bfu.done = true → ∀ bytes : List Byte, bytes ≠ [] →
      exec (.bfuFeed bytes) s = .next { s with trace := s.trace ++ outputs .bfu [] .okStreamComplete .none })

/-- `bfp.feed` of one value, with the loop of BFP_STEP in closed form (R112, R113, R117): the pending bits and the low w bits of the value are one number of
n bits; its ⌊n/WS⌋ whole words are emitted, most significant first and each most significant byte first, and the n mod WS bits left stay, or are
dropped if the last cycle is complete. -/
def Obligations.PackerEmitsTheWholeWords : Prop :=
  ∀ (s : State) (v : Word), s.Wf → s.bfp.Supported → s.bfp.done = false →
    let x := s.bfp
    let w := x.widths.getD x.fidx 0
    let n := x.nb + w
    let value := x.acc.toNat * 2 ^ w + v.toNat % 2 ^ w
    let words := (List.range (n / x.ws)).map fun k => value / 2 ^ (n - x.ws * (k + 1)) % 2 ^ x.ws
    let last : Word := (words.getLast?.map (BitVec.ofNat 32)).getD x.last
    let wraps := x.fidx + 1 = x.widths.length
    let cyc := if wraps then x.cyc + 1 else x.cyc
    let done := decide (wraps ∧ x.reps ≠ 0 ∧ x.cyc + 1 = x.reps)
    exec (.bfpFeed [v]) s =
      .next { s with
        bfp := { x with
          acc := if done then 0 else BitVec.ofNat 64 (value % 2 ^ (n % x.ws)),
          nb := if done then 0 else n % x.ws,
          fidx := if wraps then 0 else x.fidx + 1, cyc := cyc, done := done, last := last },
        trace := s.trace ++ outputs .bfp (words.map fun m => .bytes (bytesOfWord x.ws m)) .ok .none }

/-- `bfu.feed` of one byte (R112, R120, R124): the pending bits and the byte are one number of n bits; the fields emitted are its leading bits cut at the widths
of the cycle from FIDX on, as many as are complete or as the last of REPS cycles has; FIDX and CYC move by that many fields, CYC never past REPS; the bits left stay, or are dropped if
the last cycle is complete. -/
def Obligations.UnpackerCutsTheBitStream : Prop :=
  ∀ (s : State) (b : Byte), s.Wf → s.bfu.Supported → s.bfu.done = false →
    let x := s.bfu
    let k := x.widths.length
    let n := x.nb + 8
    let value := x.acc.toNat % 2 ^ x.nb * 256 + b.toNat
    ∃ (fields : List Nat) (y : BitField),
      let m := fields.length
      exec (.bfuFeed [b]) s =
        .next { s with
          bfu := y, trace := s.trace ++ outputs .bfu (fields.map fun f => .value (BitVec.ofNat 32 f)) .ok .none } ∧
      (∀ j, j < m → fields.getD j 0 < 2 ^ widthAhead x j) ∧
      bitsAhead x m ≤ n ∧
      fieldsNumber x fields 0 0 = value / 2 ^ (n - bitsAhead x m) ∧
      y.widths = x.widths ∧ y.ofs = x.ofs ∧ y.reps = x.reps ∧ y.ws = x.ws ∧ y.bigEnd = x.bigEnd ∧
      y.fidx = (x.fidx + m) % k ∧
      y.cyc = x.cyc + BitVec.ofNat 32 ((x.fidx + m) / k) ∧
      y.done = decide (x.reps ≠ 0 ∧ y.cyc = x.reps) ∧
      (x.reps ≠ 0 → x.cyc.toNat + (x.fidx + m) / k ≤ x.reps.toNat) ∧
      y.last = (fields.getLast?.map (BitVec.ofNat 32)).getD x.last ∧
      (y.done = false →
        y.nb = n - bitsAhead x m ∧ y.nb < y.widths.getD y.fidx 0 ∧ y.acc.toNat % 2 ^ y.nb = value % 2 ^ y.nb) ∧
      (y.done = true → y.nb = 0 ∧ y.acc = 0 ∧ y.fidx = 0)

/-- The bits of BFU.ACC at and above NB are never read: two states that differ only there answer every command alike and differ only there after (R32, I15; so
a model that clears ACC at FINALIZE is equivalent, C9). -/
def Obligations.UnpackerDeadBitsAreNeverRead : Prop :=
  ∀ (i : Instr) (s : State) (a : BitVec 64), s.Wf → a.toNat % 2 ^ s.bfu.nb = s.bfu.acc.toNat % 2 ^ s.bfu.nb →
    ∃ t a', exec i s = .next t ∧
      exec i { s with bfu := { s.bfu with acc := a } } = .next { t with bfu := { t.bfu with acc := a' } } ∧
      a'.toNat % 2 ^ t.bfu.nb = t.bfu.acc.toNat % 2 ^ t.bfu.nb

/-- For both bit-field units a FEED may be split anywhere; the status is 0x12 exactly if one of the parts gave it (R128). -/
def Obligations.BitFieldFeedSplitsAnywhere : Prop :=
  (∀ (s : State) (a b : List Word), s.bfp.Supported →
    ∃ t t1 t2 events1 events2 flag1 flag2,
      exec (.bfpFeed a) s = .next t1 ∧ exec (.bfpFeed b) t1 = .next t2 ∧ exec (.bfpFeed (a ++ b)) s = .next t ∧
      t1.trace = s.trace ++ outputs .bfp events1 (streamStatus flag1) .none ∧
      t2.trace = t1.trace ++ outputs .bfp events2 (streamStatus flag2) .none ∧
      t.trace = s.trace ++ outputs .bfp (events1 ++ events2) (streamStatus (flag1 || flag2)) .none ∧
      SameRegisters t t2) ∧
  (∀ (s : State) (a b : List Byte), s.bfu.Supported →
    ∃ t t1 t2 events1 events2 flag1 flag2,
      exec (.bfuFeed a) s = .next t1 ∧ exec (.bfuFeed b) t1 = .next t2 ∧ exec (.bfuFeed (a ++ b)) s = .next t ∧
      t1.trace = s.trace ++ outputs .bfu events1 (streamStatus flag1) .none ∧
      t2.trace = t1.trace ++ outputs .bfu events2 (streamStatus flag2) .none ∧
      t.trace = s.trace ++ outputs .bfu (events1 ++ events2) (streamStatus (flag1 || flag2)) .none ∧
      SameRegisters t t2)

/-- FINALIZE and QUERY of the bit-field units (R118, R119, R125, R126): FINALIZE emits nothing, keeps the configuration and LAST, and clears the stream
registers, but BFU keeps ACC; QUERY returns LAST and changes nothing. -/
def Obligations.BitFieldFinalizeAndQuery : Prop :=
  (IsFinalize 4 .bfpFin ∧ TakesNoData 4 4 .bfpQuery ∧ IsFinalize 5 .bfuFin ∧ TakesNoData 5 4 .bfuQuery) ∧
  ∀ s : State,
    exec .bfpFin s =
      .next { s with
        bfp := { s.bfp with acc := 0, nb := 0, fidx := 0, cyc := 0, done := false }, trace := s.trace ++ outputs .bfp [] .ok .none } ∧
    exec .bfpQuery s = .next { s with trace := s.trace ++ outputs .bfp [] .ok (.value s.bfp.last) } ∧
    exec .bfuFin s =
      .next { s with
        bfu := { s.bfu with nb := 0, fidx := 0, cyc := 0, done := false }, trace := s.trace ++ outputs .bfu [] .ok .none } ∧
    exec .bfuQuery s = .next { s with trace := s.trace ++ outputs .bfu [] .ok (.value s.bfu.last) }

/-- Bit-field round trip for one width (R127): pack v1..vk with width W and word size S, unpack the emitted bytes with width W: the first
⌊⌊k·W/S⌋·S/W⌋ values come back modulo 2^W. -/
def Obligations.BitFieldRoundTrip : Prop :=
  ∀ (s : State) (w ws : Nat) (values : List Word), 1 ≤ w → w ≤ 32 → (ws = 8 ∨ ws = 16 ∨ ws = 24 ∨ ws = 32) →
    let m := values.length * w / ws * ws / w
    ∃ s1 s2 s3 s4 words,
      exec (.bfpConfig [BitVec.ofNat 32 w, 0, 0, BitVec.ofNat 32 ws]) s = .next s1 ∧
      exec (.bfpFeed values) s1 = .next s2 ∧
      s2.trace = s1.trace ++ outputs .bfp words .ok .none ∧
      exec (.bfuConfig [BitVec.ofNat 32 w]) s2 = .next s3 ∧
      exec (.bfuFeed (eventBytes words)) s3 = .next s4 ∧
      s4.trace = s3.trace ++
        outputs .bfu ((values.take m).map fun v => .value (BitVec.ofNat 32 (v.toNat % 2 ^ w))) .ok .none ∧
      (ws ∣ values.length * w → m = values.length)

/-- Bit-field round trip for any field list L given to both units (R127, last sentence): the packed values come back modulo 2^(their field's width), as many as
lie whole in the ⌊bits / S⌋ words emitted. -/
def Obligations.BitFieldRoundTripWithAnyFieldList : Prop :=
  ∀ (s : State) (first : Nat) (others : List Nat) (ws : Nat) (values : List Word),
    (∀ w ∈ first :: others, 1 ≤ w ∧ w ≤ 32) → (ws = 8 ∨ ws = 16 ∨ ws = 24 ∨ ws = 32) →
    let width := fun j : Nat => (first :: others).getD (j % (others.length + 1)) 0
    let bits := fun n : Nat => ((List.range n).map width).sum
    let whole := bits values.length / ws * ws
    let params := fun size : Nat => [BitVec.ofNat 32 first, 0, 0, BitVec.ofNat 32 size, 1] ++ others.map (BitVec.ofNat 32)
    ∃ m s1 s2 s3 s4 words,
      m ≤ values.length ∧ bits m ≤ whole ∧ whole < bits (m + 1) ∧
      exec (.bfpConfig (params ws)) s = .next s1 ∧
      exec (.bfpFeed values) s1 = .next s2 ∧
      s2.trace = s1.trace ++ outputs .bfp words .ok .none ∧
      exec (.bfuConfig (params 8)) s2 = .next s3 ∧
      exec (.bfuFeed (eventBytes words)) s3 = .next s4 ∧
      s4.trace = s3.trace ++
        outputs .bfu ((List.range m).map fun j => .value (BitVec.ofNat 32 ((values.getD j 0).toNat % 2 ^ width j))) .ok .none ∧
      (ws ∣ bits values.length → m = values.length)

/-! ## CRC-16 and checksum -/

/-- rev8 and rev16 reverse the bits (R13, R22). -/
def Obligations.ReflectionsReverseTheBits : Prop :=
  (∀ (b : Byte) (i : Nat), i < 8 → (rev8 b).getLsbD (7 - i) = b.getLsbD i) ∧
  (∀ (x : Half) (i : Nat), i < 16 → (rev16 x).getLsbD (15 - i) = x.getLsbD i)

/-- Entries of the default table that the spec prints (R136), and the table of polynomial 0. -/
def Obligations.CrcTableEntriesOfTheSpec : Prop :=
  (crcTable 0x8005 0 = 0 ∧ crcTable 0x8005 1 = 0x8005 ∧ crcTable 0x8005 2 = 0x800F ∧ crcTable 0x8005 3 = 0x000A ∧
    crcTable 0x8005 128 = 0x8303 ∧ crcTable 0x8005 255 = 0x0202) ∧
  ∀ i : Byte, crcTable 0 i = 0

/-- `crc.feed` and `crc.oneshot` (R136, R137, R142, R145): the table-driven update is the bit-serial CRC of the message bits, taken bit 0 first in each byte when
REFIN = 1; ONESHOT is poly 0x8005, init 0, both reflections, and touches no register. -/
def Obligations.CrcFeedIsTheBitSerialCrc : Prop :=
  (TakesBytes 6 3 1 .crcFeed ∧ TakesBytes 6 5 0 .crcOneshot) ∧
  ∀ (s : State) (bytes : List Byte),
    exec (.crcFeed bytes) s =
      .next { s with
        crc := { s.crc with reg := crcSerial s.crc.poly s.crc.refin s.crc.reg bytes },
        trace := s.trace ++ outputs .crc [] .ok .none } ∧
    exec (.crcOneshot bytes) s =
      .next { s with
        trace := s.trace ++
          outputs .crc [] .ok (.value ((crcReported (crcSerial 0x8005 true 0 bytes) true 0).setWidth 32)) }

/-- `crc.config` (R141): each parameter in its order with its own default, out-of-range values fall back with 0x11, and REG restarts at the new INIT. -/
def Obligations.CrcConfigSetsEachParameter : Prop :=
  TakesParams 6 (fun _ => 5) .crcConfig ∧
  ∀ (s : State) (ps : List Word),
    let given := fun k : Nat => k < ps.length
    let v := fun k : Nat => (ps.getD k 0).toNat
    let half := fun (k : Nat) (dflt : Half) => if given k ∧ v k ≤ 0xFFFF then BitVec.ofNat 16 (v k) else dflt
    let flag := fun k : Nat => if given k ∧ v k ≤ 1 then v k == 1 else true
    let outOfRange := fun k limit : Nat => given k ∧ limit < v k
    let status : Status :=
      if outOfRange 0 0xFFFF ∨ outOfRange 1 0xFFFF ∨ outOfRange 2 1 ∨ outOfRange 3 1 ∨ outOfRange 4 0xFFFF then .okCfgDefaulted
      else .ok
    exec (.crcConfig ps) s =
      .next { s with
        crc := { poly := half 0 0x8005, init := half 1 0, refin := flag 2, refout := flag 3, xorout := half 4 0, reg := half 1 0 },
        trace := s.trace ++ outputs .crc [] status .none }

/-- `crc.fin` and `crc.query` (R138, R143, R144, R50): both return the register, bit-reversed if REFOUT = 1, XORed with XOROUT; FIN also emits it high byte first
and restarts REG at INIT; QUERY changes nothing. -/
def Obligations.CrcFinalizeAndQuery : Prop :=
  (IsFinalize 6 .crcFin ∧ TakesNoData 6 4 .crcQuery) ∧
  ∀ s : State,
    let v := crcReported s.crc.reg s.crc.refout s.crc.xorout
    exec .crcFin s =
      .next { s with
        crc := { s.crc with reg := s.crc.init },
        trace := s.trace ++
          outputs .crc [.bytes [BitVec.ofNat 8 (v.toNat / 256), BitVec.ofNat 8 (v.toNat % 256)]] .ok (.value (v.setWidth 32)) } ∧
    exec .crcQuery s = .next { s with trace := s.trace ++ outputs .crc [] .ok (.value (v.setWidth 32)) }

/-- `crc.feed` may be split anywhere, and `crc.oneshot` returns what `crc.fin` returns after `crc.reset` and `crc.feed` of the same bytes, or after `crc.reset`
alone for no bytes (R146). -/
def Obligations.CrcOneshotIsResetFeedFinalize : Prop :=
  (∀ (s : State) (a b : List Byte),
    ∃ t t1 t2, exec (.crcFeed a) s = .next t1 ∧ exec (.crcFeed b) t1 = .next t2 ∧ exec (.crcFeed (a ++ b)) s = .next t ∧
      t.crc = t2.crc) ∧
  (∀ (s : State) (bytes : List Byte), bytes ≠ [] →
    ∃ t0 t1 t2 t3 v, exec (.crcOneshot bytes) s = .next t0 ∧
      exec .crcReset s = .next t1 ∧ exec (.crcFeed bytes) t1 = .next t2 ∧ exec .crcFin t2 = .next t3 ∧
      t0.trace.getLast? = some (.response { status := .ok, ret := .value v }) ∧
      t3.trace.getLast? = some (.response { status := .ok, ret := .value v })) ∧
  (∀ s : State,
    ∃ t0 t1 t2 v, exec (.crcOneshot []) s = .next t0 ∧ exec .crcReset s = .next t1 ∧ exec .crcFin t1 = .next t2 ∧
      t0.trace.getLast? = some (.response { status := .ok, ret := .value v }) ∧
      t2.trace.getLast? = some (.response { status := .ok, ret := .value v }))

/-- The values of R147, from any state: "123456789" gives 0xBB3D by ONESHOT and under the default configuration and 0x4B37 under the MODBUS configuration; the empty
message gives 0 under every configuration with INIT = 0 and XOROUT = 0. -/
def Obligations.CrcKnownValues : Prop :=
  ∀ s : State,
    let digits : List Byte := [0x31, 0x32, 0x33, 0x34, 0x35, 0x36, 0x37, 0x38, 0x39]
    (∃ t, exec (.crcOneshot digits) s = .next t ∧ t.trace = s.trace ++ outputs .crc [] .ok (.value 0xBB3D)) ∧
    (∃ t1 t2 t3, exec (.crcConfig []) s = .next t1 ∧ exec (.crcFeed digits) t1 = .next t2 ∧ exec .crcFin t2 = .next t3 ∧
      t3.trace = t2.trace ++ outputs .crc [.bytes [0xBB, 0x3D]] .ok (.value 0xBB3D)) ∧
    (∃ t1 t2 t3, exec (.crcConfig [0x8005, 0xFFFF, 1, 1, 0]) s = .next t1 ∧ exec (.crcFeed digits) t1 = .next t2 ∧
      exec .crcFin t2 = .next t3 ∧ t3.trace = t2.trace ++ outputs .crc [.bytes [0x4B, 0x37]] .ok (.value 0x4B37)) ∧
    (∀ poly refin refout : Word,
      ∃ t1 t2, exec (.crcConfig [poly, 0, refin, refout, 0]) s = .next t1 ∧ exec .crcFin t1 = .next t2 ∧
        t2.trace = t1.trace ++ outputs .crc [.bytes [0, 0]] .ok (.value 0))

/-- `cks.feed` adds every byte modulo 256, with no event (R132). -/
def Obligations.ChecksumFeedAddsEveryByte : Prop :=
  TakesBytes 7 3 1 .cksFeed ∧
  ∀ (s : State) (bytes : List Byte),
    exec (.cksFeed bytes) s =
      .next { s with
        cks := { acc := BitVec.ofNat 8 ((s.cks.acc.toNat + byteSum bytes) % 256) },
        trace := s.trace ++ outputs .cks [] .ok .none }

/-- `cks.fin` emits and returns (256 − ACC) mod 256 and clears ACC; `cks.query` returns ACC, keeps it, and emits EMPTY exactly when it is 0 (R133, R134). -/
def Obligations.ChecksumFinalizeAndQuery : Prop :=
  (IsFinalize 7 .cksFin ∧ TakesNoData 7 4 .cksQuery) ∧
  ∀ s : State,
    let neg := (256 - s.cks.acc.toNat) % 256
    exec .cksFin s =
      .next { s with
        cks := { acc := 0 },
        trace := s.trace ++ outputs .cks [.bytes [BitVec.ofNat 8 neg]] .ok (.value (BitVec.ofNat 32 neg)) } ∧
    exec .cksQuery s =
      .next { s with
        trace := s.trace ++
          outputs .cks (if s.cks.acc.toNat = 0 then [.empty] else []) .ok (.value (BitVec.ofNat 32 s.cks.acc.toNat)) }

/-- The checksum invariant (R135): from ACC = 0, the value n that `cks.fin` returns after `cks.feed s` makes the sum of the bytes and n a multiple of 256;
feeding the bytes and n and then querying gives 0 and one EMPTY. -/
def Obligations.ChecksumInvariant : Prop :=
  ∀ (s : State) (bytes : List Byte), s.cks.acc = 0 →
    ∃ t1 t2 t3 t4 n, exec (.cksFeed bytes) s = .next t1 ∧ exec .cksFin t1 = .next t2 ∧
      t2.trace = t1.trace ++ outputs .cks [.bytes [BitVec.ofNat 8 n]] .ok (.value (BitVec.ofNat 32 n)) ∧
      n < 256 ∧ (byteSum bytes + n) % 256 = 0 ∧
      exec (.cksFeed (bytes ++ [BitVec.ofNat 8 n])) s = .next t3 ∧ exec .cksQuery t3 = .next t4 ∧
      t4.trace = t3.trace ++ outputs .cks [.empty] .ok (.value 0)

/-! ## Side effects of QUERY, repeated FINALIZE, the assembler -/

/-- Which commands have effects beyond their RET (R54): a second QUERY of a hex unit returns nothing; QUERY of CKS at ACC = 0 emits EMPTY each time; QUERY of
BFP, BFU and CRC repeats its value and changes no register; DESCRIBE and ONESHOT change no register and emit no event. -/
def Obligations.SideEffectsOfQueryDescribeOneshot : Prop :=
  ∀ s : State,
    (∃ t1 t2, exec .hexeQuery s = .next t1 ∧ exec .hexeQuery t1 = .next t2 ∧ t1.hexe.idx = 0 ∧
      t2.trace = t1.trace ++ outputs .hexe [] .ok (.bytes [])) ∧
    (∃ t1 t2, exec .hexdQuery s = .next t1 ∧ exec .hexdQuery t1 = .next t2 ∧ t1.hexd.idx = 0 ∧
      t2.trace = t1.trace ++ outputs .hexd [] .ok (.bytes [])) ∧
    (s.cks.acc = 0 → ∃ t1 t2, exec .cksQuery s = .next t1 ∧ exec .cksQuery t1 = .next t2 ∧
      t1.trace = s.trace ++ outputs .cks [.empty] .ok (.value 0) ∧ t2.trace = t1.trace ++ outputs .cks [.empty] .ok (.value 0)) ∧
    (∀ i : Instr, i = .bfpQuery ∨ i = .bfuQuery ∨ i = .crcQuery →
      ∃ t1 t2 v, exec i s = .next t1 ∧ exec i t1 = .next t2 ∧ SameRegisters t1 s ∧ SameRegisters t2 s ∧
        t1.trace = s.trace ++ outputs i.unit [] .ok (.value v) ∧ t2.trace = t1.trace ++ outputs i.unit [] .ok (.value v)) ∧
    (∀ i : Instr, i.op = .describe ∨ i.op = .oneshot →
      ∃ t ret, exec i s = .next t ∧ SameRegisters t s ∧ t.trace = s.trace ++ outputs i.unit [] .ok ret)

/-- No FINALIZE returns an error, and a second FINALIZE in a row emits nothing for B64E, B64D, HEXE, HEXD, BFP and BFU, and changes no register of any unit (90_conflicts.md
C3; R82, R98, R118, R125). -/
def Obligations.SecondFinalizeChangesNothing : Prop :=
  ∀ (s : State) (i : Instr),
    (i = .b64eFin ∨ i = .b64dFin ∨ i = .hexeFin ∨ i = .hexdFin ∨ i = .bfpFin ∨ i = .bfuFin ∨ i = .crcFin ∨ i = .cksFin) →
      ∃ t1 t2 events ret events' ret', exec i s = .next t1 ∧ exec i t1 = .next t2 ∧
        t1.trace = s.trace ++ outputs i.unit events .ok ret ∧ t2.trace = t1.trace ++ outputs i.unit events' .ok ret' ∧
        SameRegisters t2 t1 ∧ (i ≠ .crcFin → i ≠ .cksFin → events' = [])

/-- An assembled FEED of a string literal decodes to the FEED of its characters, for every unit with DB elements, and a string is refused for BFP and for CONFIG (R74). -/
def Obligations.AssembledStringFeedDecodes : Prop :=
  assemble { unit := .b64e, op := .feed, operands := [.text [0x4D, 0x61]] } = some [0x03000002, 0x0000004D, 0x00000061] ∧
  (∀ (p : Params) (chars : List Byte) (rest : List Word), 1 ≤ chars.length → chars.length ≤ 65535 →
    ∀ mk : UnitId × (List Byte → Instr),
      mk ∈ [(UnitId.b64e, Instr.b64eFeed), (.b64d, .b64dFeed), (.hexe, .hexeFeed), (.hexd, .hexdFeed), (.bfu, .bfuFeed),
        (.crc, .crcFeed), (.cks, .cksFeed)] →
      ∃ ws, assemble { unit := mk.1, op := .feed, operands := [.text chars] } = some ws ∧
        decode p (ws ++ rest) = .instr (mk.2 chars) rest) ∧
  (∀ chars : List Byte, assemble { unit := .bfp, op := .feed, operands := [.text chars] } = none) ∧
  (∀ (u : UnitId) (chars : List Byte), assemble { unit := u, op := .config, operands := [.text chars] } = none)

/-- The pseudo-instructions (R75): `restart` is the FINALIZE of the units whose FINALIZE emits nothing, and undefined for the three whose FINALIZE emits; `defaults` is
CONFIG with no operands; `encode`, `check` and `sum` are a FEED and a FINALIZE. What `restart` assembles to runs with no event. -/
def Obligations.PseudoInstructionsExpand : Prop :=
  (∀ u : UnitId,
    expandPseudo (.restart u) =
      if u = .b64e ∨ u = .crc ∨ u = .cks then none else some [{ unit := u, op := .fin, operands := [] }]) ∧
  (∀ u : UnitId, expandPseudo (.defaults u) = some [{ unit := u, op := .config, operands := [] }]) ∧
  (∀ s : List Byte,
    expandPseudo (.b64eEncode s) =
      (if s = [] then none
      else some [{ unit := .b64e, op := .feed, operands := [.text s] }, { unit := .b64e, op := .fin, operands := [] }]) ∧
    expandPseudo (.crcCheck s) =
      some [{ unit := .crc, op := .feed, operands := [.text s] }, { unit := .crc, op := .fin, operands := [] }] ∧
    expandPseudo (.cksSum s) =
      some [{ unit := .cks, op := .feed, operands := [.text s] }, { unit := .cks, op := .fin, operands := [] }]) ∧
  (∀ u : UnitId,
    assemble { unit := u, op := .fin, operands := [] } = some [cmdNumber u.number.toNat 3 0] ∧
    assemble { unit := u, op := .config, operands := [] } = some [cmdNumber u.number.toNat 2 0]) ∧
  ∀ (u : UnitId) (s : State), u = .b64d ∨ u = .hexe ∨ u = .hexd ∨ u = .bfp ∨ u = .bfu → s.port = [cmdNumber u.number.toNat 3 0] →
    ∃ t ret, step s = .next t ∧ t.port = [] ∧ t.trace = s.trace ++ outputs u [] .ok ret
end

