-- ==== Sys2Proof/Laws/State.lean ====
section
/-! SUPPORT. One lemma per field per state update, true by rfl, so that no proof unfolds a record update. -/

namespace Sys2Proof.Machine


@[simp] theorem State.setB64e_params (s : State) (x : B64Enc) : (s.setB64e x).params = s.params := rfl
@[simp] theorem State.setB64e_b64e (s : State) (x : B64Enc) : (s.setB64e x).b64e = x := rfl
@[simp] theorem State.setB64e_b64d (s : State) (x : B64Enc) : (s.setB64e x).b64d = s.b64d := rfl
@[simp] theorem State.setB64e_hexe (s : State) (x : B64Enc) : (s.setB64e x).hexe = s.hexe := rfl
@[simp] theorem State.setB64e_hexd (s : State) (x : B64Enc) : (s.setB64e x).hexd = s.hexd := rfl
@[simp] theorem State.setB64e_bfp (s : State) (x : B64Enc) : (s.setB64e x).bfp = s.bfp := rfl
@[simp] theorem State.setB64e_bfu (s : State) (x : B64Enc) : (s.setB64e x).bfu = s.bfu := rfl
@[simp] theorem State.setB64e_crc (s : State) (x : B64Enc) : (s.setB64e x).crc = s.crc := rfl
@[simp] theorem State.setB64e_cks (s : State) (x : B64Enc) : (s.setB64e x).cks = s.cks := rfl
@[simp] theorem State.setB64e_port (s : State) (x : B64Enc) : (s.setB64e x).port = s.port := rfl
@[simp] theorem State.setB64e_trace (s : State) (x : B64Enc) : (s.setB64e x).trace = s.trace := rfl

@[simp] theorem State.setB64d_params (s : State) (x : B64Dec) : (s.setB64d x).params = s.params := rfl
@[simp] theorem State.setB64d_b64e (s : State) (x : B64Dec) : (s.setB64d x).b64e = s.b64e := rfl
@[simp] theorem State.setB64d_b64d (s : State) (x : B64Dec) : (s.setB64d x).b64d = x := rfl
@[simp] theorem State.setB64d_hexe (s : State) (x : B64Dec) : (s.setB64d x).hexe = s.hexe := rfl
@[simp] theorem State.setB64d_hexd (s : State) (x : B64Dec) : (s.setB64d x).hexd = s.hexd := rfl
@[simp] theorem State.setB64d_bfp (s : State) (x : B64Dec) : (s.setB64d x).bfp = s.bfp := rfl
@[simp] theorem State.setB64d_bfu (s : State) (x : B64Dec) : (s.setB64d x).bfu = s.bfu := rfl
@[simp] theorem State.setB64d_crc (s : State) (x : B64Dec) : (s.setB64d x).crc = s.crc := rfl
@[simp] theorem State.setB64d_cks (s : State) (x : B64Dec) : (s.setB64d x).cks = s.cks := rfl
@[simp] theorem State.setB64d_port (s : State) (x : B64Dec) : (s.setB64d x).port = s.port := rfl
@[simp] theorem State.setB64d_trace (s : State) (x : B64Dec) : (s.setB64d x).trace = s.trace := rfl

@[simp] theorem State.setHexe_params (s : State) (x : HexEnc) : (s.setHexe x).params = s.params := rfl
@[simp] theorem State.setHexe_b64e (s : State) (x : HexEnc) : (s.setHexe x).b64e = s.b64e := rfl
@[simp] theorem State.setHexe_b64d (s : State) (x : HexEnc) : (s.setHexe x).b64d = s.b64d := rfl
@[simp] theorem State.setHexe_hexe (s : State) (x : HexEnc) : (s.setHexe x).hexe = x := rfl
@[simp] theorem State.setHexe_hexd (s : State) (x : HexEnc) : (s.setHexe x).hexd = s.hexd := rfl
@[simp] theorem State.setHexe_bfp (s : State) (x : HexEnc) : (s.setHexe x).bfp = s.bfp := rfl
@[simp] theorem State.setHexe_bfu (s : State) (x : HexEnc) : (s.setHexe x).bfu = s.bfu := rfl
@[simp] theorem State.setHexe_crc (s : State) (x : HexEnc) : (s.setHexe x).crc = s.crc := rfl
@[simp] theorem State.setHexe_cks (s : State) (x : HexEnc) : (s.setHexe x).cks = s.cks := rfl
@[simp] theorem State.setHexe_port (s : State) (x : HexEnc) : (s.setHexe x).port = s.port := rfl
@[simp] theorem State.setHexe_trace (s : State) (x : HexEnc) : (s.setHexe x).trace = s.trace := rfl

@[simp] theorem State.setHexd_params (s : State) (x : HexDec) : (s.setHexd x).params = s.params := rfl
@[simp] theorem State.setHexd_b64e (s : State) (x : HexDec) : (s.setHexd x).b64e = s.b64e := rfl
@[simp] theorem State.setHexd_b64d (s : State) (x : HexDec) : (s.setHexd x).b64d = s.b64d := rfl
@[simp] theorem State.setHexd_hexe (s : State) (x : HexDec) : (s.setHexd x).hexe = s.hexe := rfl
@[simp] theorem State.setHexd_hexd (s : State) (x : HexDec) : (s.setHexd x).hexd = x := rfl
@[simp] theorem State.setHexd_bfp (s : State) (x : HexDec) : (s.setHexd x).bfp = s.bfp := rfl
@[simp] theorem State.setHexd_bfu (s : State) (x : HexDec) : (s.setHexd x).bfu = s.bfu := rfl
@[simp] theorem State.setHexd_crc (s : State) (x : HexDec) : (s.setHexd x).crc = s.crc := rfl
@[simp] theorem State.setHexd_cks (s : State) (x : HexDec) : (s.setHexd x).cks = s.cks := rfl
@[simp] theorem State.setHexd_port (s : State) (x : HexDec) : (s.setHexd x).port = s.port := rfl
@[simp] theorem State.setHexd_trace (s : State) (x : HexDec) : (s.setHexd x).trace = s.trace := rfl

@[simp] theorem State.setBfp_params (s : State) (x : BitField) : (s.setBfp x).params = s.params := rfl
@[simp] theorem State.setBfp_b64e (s : State) (x : BitField) : (s.setBfp x).b64e = s.b64e := rfl
@[simp] theorem State.setBfp_b64d (s : State) (x : BitField) : (s.setBfp x).b64d = s.b64d := rfl
@[simp] theorem State.setBfp_hexe (s : State) (x : BitField) : (s.setBfp x).hexe = s.hexe := rfl
@[simp] theorem State.setBfp_hexd (s : State) (x : BitField) : (s.setBfp x).hexd = s.hexd := rfl
@[simp] theorem State.setBfp_bfp (s : State) (x : BitField) : (s.setBfp x).bfp = x := rfl
@[simp] theorem State.setBfp_bfu (s : State) (x : BitField) : (s.setBfp x).bfu = s.bfu := rfl
@[simp] theorem State.setBfp_crc (s : State) (x : BitField) : (s.setBfp x).crc = s.crc := rfl
@[simp] theorem State.setBfp_cks (s : State) (x : BitField) : (s.setBfp x).cks = s.cks := rfl
@[simp] theorem State.setBfp_port (s : State) (x : BitField) : (s.setBfp x).port = s.port := rfl
@[simp] theorem State.setBfp_trace (s : State) (x : BitField) : (s.setBfp x).trace = s.trace := rfl

@[simp] theorem State.setBfu_params (s : State) (x : BitField) : (s.setBfu x).params = s.params := rfl
@[simp] theorem State.setBfu_b64e (s : State) (x : BitField) : (s.setBfu x).b64e = s.b64e := rfl
@[simp] theorem State.setBfu_b64d (s : State) (x : BitField) : (s.setBfu x).b64d = s.b64d := rfl
@[simp] theorem State.setBfu_hexe (s : State) (x : BitField) : (s.setBfu x).hexe = s.hexe := rfl
@[simp] theorem State.setBfu_hexd (s : State) (x : BitField) : (s.setBfu x).hexd = s.hexd := rfl
@[simp] theorem State.setBfu_bfp (s : State) (x : BitField) : (s.setBfu x).bfp = s.bfp := rfl
@[simp] theorem State.setBfu_bfu (s : State) (x : BitField) : (s.setBfu x).bfu = x := rfl
@[simp] theorem State.setBfu_crc (s : State) (x : BitField) : (s.setBfu x).crc = s.crc := rfl
@[simp] theorem State.setBfu_cks (s : State) (x : BitField) : (s.setBfu x).cks = s.cks := rfl
@[simp] theorem State.setBfu_port (s : State) (x : BitField) : (s.setBfu x).port = s.port := rfl
@[simp] theorem State.setBfu_trace (s : State) (x : BitField) : (s.setBfu x).trace = s.trace := rfl

@[simp] theorem State.setCrc_params (s : State) (x : Crc) : (s.setCrc x).params = s.params := rfl
@[simp] theorem State.setCrc_b64e (s : State) (x : Crc) : (s.setCrc x).b64e = s.b64e := rfl
@[simp] theorem State.setCrc_b64d (s : State) (x : Crc) : (s.setCrc x).b64d = s.b64d := rfl
@[simp] theorem State.setCrc_hexe (s : State) (x : Crc) : (s.setCrc x).hexe = s.hexe := rfl
@[simp] theorem State.setCrc_hexd (s : State) (x : Crc) : (s.setCrc x).hexd = s.hexd := rfl
@[simp] theorem State.setCrc_bfp (s : State) (x : Crc) : (s.setCrc x).bfp = s.bfp := rfl
@[simp] theorem State.setCrc_bfu (s : State) (x : Crc) : (s.setCrc x).bfu = s.bfu := rfl
@[simp] theorem State.setCrc_crc (s : State) (x : Crc) : (s.setCrc x).crc = x := rfl
@[simp] theorem State.setCrc_cks (s : State) (x : Crc) : (s.setCrc x).cks = s.cks := rfl
@[simp] theorem State.setCrc_port (s : State) (x : Crc) : (s.setCrc x).port = s.port := rfl
@[simp] theorem State.setCrc_trace (s : State) (x : Crc) : (s.setCrc x).trace = s.trace := rfl

@[simp] theorem State.setCks_params (s : State) (x : Cks) : (s.setCks x).params = s.params := rfl
@[simp] theorem State.setCks_b64e (s : State) (x : Cks) : (s.setCks x).b64e = s.b64e := rfl
@[simp] theorem State.setCks_b64d (s : State) (x : Cks) : (s.setCks x).b64d = s.b64d := rfl
@[simp] theorem State.setCks_hexe (s : State) (x : Cks) : (s.setCks x).hexe = s.hexe := rfl
@[simp] theorem State.setCks_hexd (s : State) (x : Cks) : (s.setCks x).hexd = s.hexd := rfl
@[simp] theorem State.setCks_bfp (s : State) (x : Cks) : (s.setCks x).bfp = s.bfp := rfl
@[simp] theorem State.setCks_bfu (s : State) (x : Cks) : (s.setCks x).bfu = s.bfu := rfl
@[simp] theorem State.setCks_crc (s : State) (x : Cks) : (s.setCks x).crc = s.crc := rfl
@[simp] theorem State.setCks_cks (s : State) (x : Cks) : (s.setCks x).cks = x := rfl
@[simp] theorem State.setCks_port (s : State) (x : Cks) : (s.setCks x).port = s.port := rfl
@[simp] theorem State.setCks_trace (s : State) (x : Cks) : (s.setCks x).trace = s.trace := rfl

@[simp] theorem State.setPort_params (s : State) (x : List Word) : (s.setPort x).params = s.params := rfl
@[simp] theorem State.setPort_b64e (s : State) (x : List Word) : (s.setPort x).b64e = s.b64e := rfl
@[simp] theorem State.setPort_b64d (s : State) (x : List Word) : (s.setPort x).b64d = s.b64d := rfl
@[simp] theorem State.setPort_hexe (s : State) (x : List Word) : (s.setPort x).hexe = s.hexe := rfl
@[simp] theorem State.setPort_hexd (s : State) (x : List Word) : (s.setPort x).hexd = s.hexd := rfl
@[simp] theorem State.setPort_bfp (s : State) (x : List Word) : (s.setPort x).bfp = s.bfp := rfl
@[simp] theorem State.setPort_bfu (s : State) (x : List Word) : (s.setPort x).bfu = s.bfu := rfl
@[simp] theorem State.setPort_crc (s : State) (x : List Word) : (s.setPort x).crc = s.crc := rfl
@[simp] theorem State.setPort_cks (s : State) (x : List Word) : (s.setPort x).cks = s.cks := rfl
@[simp] theorem State.setPort_port (s : State) (x : List Word) : (s.setPort x).port = x := rfl
@[simp] theorem State.setPort_trace (s : State) (x : List Word) : (s.setPort x).trace = s.trace := rfl

@[simp] theorem State.hostWrite_params (s : State) (ws : List Word) : (s.hostWrite ws).params = s.params := rfl
@[simp] theorem State.hostWrite_b64e (s : State) (ws : List Word) : (s.hostWrite ws).b64e = s.b64e := rfl
@[simp] theorem State.hostWrite_b64d (s : State) (ws : List Word) : (s.hostWrite ws).b64d = s.b64d := rfl
@[simp] theorem State.hostWrite_hexe (s : State) (ws : List Word) : (s.hostWrite ws).hexe = s.hexe := rfl
@[simp] theorem State.hostWrite_hexd (s : State) (ws : List Word) : (s.hostWrite ws).hexd = s.hexd := rfl
@[simp] theorem State.hostWrite_bfp (s : State) (ws : List Word) : (s.hostWrite ws).bfp = s.bfp := rfl
@[simp] theorem State.hostWrite_bfu (s : State) (ws : List Word) : (s.hostWrite ws).bfu = s.bfu := rfl
@[simp] theorem State.hostWrite_crc (s : State) (ws : List Word) : (s.hostWrite ws).crc = s.crc := rfl
@[simp] theorem State.hostWrite_cks (s : State) (ws : List Word) : (s.hostWrite ws).cks = s.cks := rfl
@[simp] theorem State.hostWrite_port (s : State) (ws : List Word) : (s.hostWrite ws).port = s.port ++ ws := rfl
@[simp] theorem State.hostWrite_trace (s : State) (ws : List Word) : (s.hostWrite ws).trace = s.trace := rfl

@[simp] theorem State.deliver_params (s : State) (u : UnitId) (es : List Event) (r : Response) :
    (s.deliver u es r).params = s.params := rfl
@[simp] theorem State.deliver_b64e (s : State) (u : UnitId) (es : List Event) (r : Response) :
    (s.deliver u es r).b64e = s.b64e := rfl
@[simp] theorem State.deliver_b64d (s : State) (u : UnitId) (es : List Event) (r : Response) :
    (s.deliver u es r).b64d = s.b64d := rfl
@[simp] theorem State.deliver_hexe (s : State) (u : UnitId) (es : List Event) (r : Response) :
    (s.deliver u es r).hexe = s.hexe := rfl
@[simp] theorem State.deliver_hexd (s : State) (u : UnitId) (es : List Event) (r : Response) :
    (s.deliver u es r).hexd = s.hexd := rfl
@[simp] theorem State.deliver_bfp (s : State) (u : UnitId) (es : List Event) (r : Response) :
    (s.deliver u es r).bfp = s.bfp := rfl
@[simp] theorem State.deliver_bfu (s : State) (u : UnitId) (es : List Event) (r : Response) :
    (s.deliver u es r).bfu = s.bfu := rfl
@[simp] theorem State.deliver_crc (s : State) (u : UnitId) (es : List Event) (r : Response) :
    (s.deliver u es r).crc = s.crc := rfl
@[simp] theorem State.deliver_cks (s : State) (u : UnitId) (es : List Event) (r : Response) :
    (s.deliver u es r).cks = s.cks := rfl
@[simp] theorem State.deliver_port (s : State) (u : UnitId) (es : List Event) (r : Response) :
    (s.deliver u es r).port = s.port := rfl
@[simp] theorem State.deliver_trace (s : State) (u : UnitId) (es : List Event) (r : Response) :
    (s.deliver u es r).trace = s.trace ++ (es.map (Output.event u) ++ [Output.response r]) := rfl

end Sys2Proof.Machine
end

