-- ==== Sys2Proof/Laws/Ops.lean ====
section
/-! SUPPORT. What the shared operations do: completing and refusing a command, and feeding elements one by one. -/

namespace Sys2Proof.Machine

/-! ## complete and raise -/

/-- A completed command answers the state with its outputs appended, and nothing else. -/
theorem complete_eq_next_iff {u : UnitId} {events : List Event} {status : Status} {ret : Ret} {s t : State} :
    complete u events status ret s = .next t ↔ t = { s with trace := s.trace ++ outputs u events status ret } := by
  simp only [complete, State.deliver, outputs, Host.Outcome.next.injEq]
  exact ⟨fun h => h.symm, fun h => h.symm⟩

/-- A refused command answers the state with its response appended, and nothing else. -/
theorem raise_eq_next_iff {e : Status} {s t : State} :
    raise e s = .next t ↔ t = { s with trace := s.trace ++ [.response { status := e, ret := .none }] } := by
  simp only [raise, Host.Outcome.next.injEq]
  exact ⟨fun h => h.symm, fun h => h.symm⟩

/-- The outputs of a command end in its response. -/
theorem getLast?_append_outputs (l : List Output) (u : UnitId) (events : List Event) (status : Status) (ret : Ret) :
    (l ++ outputs u events status ret).getLast? = some (.response { status := status, ret := ret }) := by
  simp [outputs, ← List.append_assoc]

/-! ## Feeding elements -/

section
variable {σ α : Type} (step : σ → α → Fed σ)

@[simp] theorem feedWith_nil (x : σ) : feedWith step x [] = { regs := x, events := [], bytes := [], flagged := false } := rfl

theorem feedWith_cons (x : σ) (e : α) (es : List α) :
    feedWith step x (e :: es) =
      { regs := (feedWith step (step x e).regs es).regs
        events := (step x e).events ++ (feedWith step (step x e).regs es).events
        bytes := (step x e).bytes ++ (feedWith step (step x e).regs es).bytes
        flagged := (step x e).flagged || (feedWith step (step x e).regs es).flagged } := rfl

@[simp] theorem feedWith_singleton (x : σ) (e : α) : feedWith step x [e] = step x e := by
  simp [feedWith_cons]

/-- Feeding may be split anywhere (the fold of R90, R109 and R128). -/
theorem feedWith_append (x : σ) (a b : List α) :
    feedWith step x (a ++ b) =
      { regs := (feedWith step (feedWith step x a).regs b).regs
        events := (feedWith step x a).events ++ (feedWith step (feedWith step x a).regs b).events
        bytes := (feedWith step x a).bytes ++ (feedWith step (feedWith step x a).regs b).bytes
        flagged := (feedWith step x a).flagged || (feedWith step (feedWith step x a).regs b).flagged } := by
  induction a generalizing x with
  | nil => simp
  | cons e es ih => simp only [List.cons_append, feedWith_cons, ih, List.append_assoc, Bool.or_assoc]

/-- What every element's step keeps, feeding keeps. -/
theorem feedWith_keeps {inv : σ → Prop} (h : ∀ x e, inv x → inv (step x e).regs) (x : σ) (es : List α) (hx : inv x) :
    inv (feedWith step x es).regs := by
  induction es generalizing x with
  | nil => exact hx
  | cons e es ih => exact ih _ (h x e hx)

/-- An invariant of the registers together with what it says of every event. -/
theorem feedWith_events {inv : σ → Prop} {good : Event → Prop}
    (h : ∀ x e, inv x → inv (step x e).regs) (hev : ∀ x e, inv x → ∀ ev ∈ (step x e).events, good ev)
    (x : σ) (es : List α) (hx : inv x) : ∀ ev ∈ (feedWith step x es).events, good ev := by
  induction es generalizing x with
  | nil => simp
  | cons e es ih =>
    intro ev hmem
    rw [feedWith_cons] at hmem
    rcases List.mem_append.mp hmem with h1 | h1
    · exact hev x e hx ev h1
    · exact ih _ (h x e hx) ev h1

end

end Sys2Proof.Machine
end

