-- ==== Sys2Proof/Laws/Base64.lean ====
section
/-! SUPPORT. The base64 steps in numbers, and what one element keeps (40_base64.md R76, R84; 10_state.md R25, R27). -/

namespace Sys2Proof.Machine

/-- The six bit pieces that ENC_STEP takes from a byte. -/
theorem encPieces (b : Byte) :
    b.extractLsb' 2 6 = BitVec.ofNat 6 (b.toNat / 4) ∧
    (b.extractLsb' 0 2).setWidth 6 <<< 4 = BitVec.ofNat 6 (b.toNat % 4 * 16) ∧
    (b.extractLsb' 0 4).setWidth 6 <<< 2 = BitVec.ofNat 6 (b.toNat % 16 * 4) ∧
    (b.extractLsb' 4 4).setWidth 6 = BitVec.ofNat 6 (b.toNat / 16) ∧
    (b.extractLsb' 6 2).setWidth 6 = BitVec.ofNat 6 (b.toNat / 64) ∧
    b.extractLsb' 0 6 = BitVec.ofNat 6 (b.toNat % 64) := by
  revert b
  decide

/-- The decoder's byte after the second character. -/
theorem decByte_one : ∀ q v : BitVec 6,
    (q.setWidth 8 <<< 2) ||| (v.extractLsb' 4 2).setWidth 8 = BitVec.ofNat 8 (q.toNat * 4 + v.toNat / 16) := by
  decide +kernel

/-- The decoder's byte after the third character. -/
theorem decByte_two : ∀ q v : BitVec 6, q.toNat < 16 →
    (q.setWidth 8 <<< 4) ||| (v.extractLsb' 2 4).setWidth 8 = BitVec.ofNat 8 (q.toNat * 16 + v.toNat / 4) := by
  decide +kernel

/-- The decoder's byte after the fourth character. -/
theorem decByte_three : ∀ q v : BitVec 6, q.toNat < 4 →
    (q.setWidth 8 <<< 6) ||| v.setWidth 8 = BitVec.ofNat 8 (q.toNat * 64 + v.toNat) := by
  decide +kernel

/-- The bits the decoder keeps. -/
theorem decKept : ∀ v : BitVec 6,
    (v.extractLsb' 0 4).setWidth 6 = BitVec.ofNat 6 (v.toNat % 16) ∧ (v.extractLsb' 0 2).setWidth 6 = BitVec.ofNat 6 (v.toNat % 4) := by
  decide +kernel

/-- Every character of the alphabet decodes to its value. -/
theorem b64Value_b64Char : ∀ v : BitVec 6, b64Value (b64Char v) = some v := by
  decide +kernel

/-- One element leaves the encoder legal and emits one event with characters in it. -/
theorem b64eElement_keeps (x : B64Enc) (b : Byte) :
    (b64eElement x b).regs.Wf ∧ ∀ e ∈ (b64eElement x b).events, ∃ w, e = .bytes w ∧ w ≠ [] := by
  have e2 : ∀ b : Byte, ((b.extractLsb' 0 2).setWidth 6 <<< 4).toNat % 16 = 0 := by decide
  have e3 : ∀ b : Byte, ((b.extractLsb' 0 4).setWidth 6 <<< 2).toNat % 4 = 0 := by decide
  simp only [B64Enc.Wf, b64eElement, encStep]
  obtain ⟨phase, pend⟩ := x
  cases phase
  · exact ⟨⟨by simp, fun _ => e2 b, by simp⟩, by simp⟩
  · exact ⟨⟨by simp, by simp, fun _ => e3 b⟩, by simp⟩
  · simp

/-- One element leaves the decoder legal and emits at most one event, of one byte. -/
theorem b64dElement_keeps (x : B64Dec) (c : Byte) :
    (b64dElement x c).regs.Wf ∧ ∀ e ∈ (b64dElement x c).events, ∃ w, e = .bytes w ∧ w ≠ [] := by
  have f1 : ∀ v : BitVec 6, ((v.extractLsb' 0 4).setWidth 6).toNat < 16 := by decide +kernel
  have f2 : ∀ v : BitVec 6, ((v.extractLsb' 0 2).setWidth 6).toNat < 4 := by decide +kernel
  simp only [B64Dec.Wf, b64dElement]
  obtain ⟨phase, pend⟩ := x
  split
  · simp
  · cases phase
    · exact ⟨⟨by simp, fun _ => BitVec.isLt _, by simp, by simp⟩, by simp⟩
    · exact ⟨⟨by simp, by simp, fun _ => f1 _, by simp⟩, by simp⟩
    · exact ⟨⟨by simp, by simp, by simp, fun _ => f2 _⟩, by simp⟩
    · simp

end Sys2Proof.Machine
end

