-- ==== Sys2Proof/Laws/Operands.lean ====
section
/-! SUPPORT. What the operand forms of the CONFIG commands give, case by case (30_encoding.md R71). -/

namespace Sys2Proof.Machine

theorem paramOr_given {ps : List Word} {k : Nat} (h : k < ps.length) (dflt : Word) : paramOr ps k dflt = ps.getD k 0 := by
  simp [paramOr, h]

theorem paramOr_absent {ps : List Word} {k : Nat} (h : ¬ k < ps.length) (dflt : Word) : paramOr ps k dflt = dflt := by
  simp [paramOr, h]

/-- A 16-bit parameter: given and in range, given and out of range, or absent. -/
theorem param16_eq (ps : List Word) (k : Nat) (dflt : Half) :
    param16 ps k dflt =
      if k < ps.length then
        if (ps.getD k 0).toNat ≤ 0xFFFF then (BitVec.ofNat 16 (ps.getD k 0).toNat, false) else (dflt, true)
      else (dflt, false) := by
  simp only [param16]
  by_cases h : k < ps.length
  · simp only [paramOr_given h, h, if_true]
    split <;> simp [BitVec.ofNat_toNat]
  · have := dflt.isLt
    simp only [paramOr_absent h, h, if_false]
    have e : (BitVec.setWidth 32 dflt).toNat ≤ 0xFFFF := by simp; omega
    simp only [e, if_true]
    simp

/-- A one-bit parameter: given and in range, given and out of range, or absent. -/
theorem paramBit_eq (ps : List Word) (k : Nat) (dflt : Bool) :
    paramBit ps k dflt =
      if k < ps.length then
        if (ps.getD k 0).toNat ≤ 1 then ((ps.getD k 0).toNat == 1, false) else (dflt, true)
      else (dflt, false) := by
  simp only [paramBit]
  by_cases h : k < ps.length
  · simp only [paramOr_given h, h, if_true]
  · simp only [paramOr_absent h, h, if_false]
    cases dflt <;> rfl

/-- A word-size parameter: given and one of the four sizes, given and not, or absent. -/
theorem paramWordSize_eq (ps : List Word) (k : Nat) :
    paramWordSize ps k =
      if k < ps.length then
        if (ps.getD k 0).toNat = 8 ∨ (ps.getD k 0).toNat = 16 ∨ (ps.getD k 0).toNat = 24 ∨ (ps.getD k 0).toNat = 32 then
          ((ps.getD k 0).toNat, false)
        else (8, true)
      else (8, false) := by
  simp only [paramWordSize]
  by_cases h : k < ps.length
  · simp only [paramOr_given h, h, if_true]
  · simp only [paramOr_absent h, h, if_false]
    rfl

end Sys2Proof.Machine
end

