-- ==== Sys2Proof/Laws/BitFields.lean ====
section
/-! SUPPORT. The loops of the bit-field units in closed form (42_bitfield.md R112, R113, R120). -/

namespace Sys2Proof.Machine

/-! ## Masks and word bytes -/

theorem and_mask64_toNat (a : BitVec 64) (w : Nat) (h : w ≤ 64) : (a &&& mask64 w).toNat = a.toNat % 2 ^ w := by
  have : 2 ^ w ≤ 2 ^ 64 := Nat.pow_le_pow_right (by omega) h
  have : 1 ≤ 2 ^ w := Nat.one_le_two_pow
  rw [BitVec.toNat_and, mask64, BitVec.toNat_ofNat, Nat.mod_eq_of_lt (by omega), Nat.and_two_pow_sub_one_eq_mod]

theorem wordBytes_eq (ws : Nat) (word : BitVec 64) : wordBytes ws word = bytesOfWord ws word.toNat := by
  simp only [wordBytes, bytesOfWord]
  apply List.map_congr_left
  intro i _
  apply BitVec.eq_of_toNat_eq
  rw [BitVec.toNat_setWidth, BitVec.toNat_ushiftRight, BitVec.toNat_ofNat, Nat.shiftRight_eq_div_pow,
    show ws - 8 * (i + 1) = ws - 8 - 8 * i by omega]

/-- Bits q..q+r-1 of a number are those of its low p bits, if they lie below p. -/
theorem mod_div_mod_pow (a p q r : Nat) (h : q + r ≤ p) : a % 2 ^ p / 2 ^ q % 2 ^ r = a / 2 ^ q % 2 ^ r := by
  obtain ⟨d, rfl⟩ := Nat.exists_eq_add_of_le h
  rw [Nat.add_assoc, Nat.pow_add 2 q, Nat.mod_mul_right_div_self, Nat.pow_add, Nat.mod_mul_right_mod]

/-! ## The packer's loop -/

/-- The words that `nb` bits with value `a` hold, most significant first. -/
def wordsOf (ws nb a : Nat) : List Nat := (List.range (nb / ws)).map fun k => a / 2 ^ (nb - ws * (k + 1)) % 2 ^ ws

theorem wordsOf_short {ws nb : Nat} (a : Nat) (h : nb < ws) : wordsOf ws nb a = [] := by
  simp [wordsOf, Nat.div_eq_of_lt h]

theorem wordsOf_long {ws nb : Nat} (a : Nat) (h0 : 0 < ws) (h : ws ≤ nb) :
    wordsOf ws nb a = a / 2 ^ (nb - ws) % 2 ^ ws :: wordsOf ws (nb - ws) (a % 2 ^ (nb - ws)) := by
  have hd : nb / ws = (nb - ws) / ws + 1 := by rw [← Nat.add_div_right _ h0, Nat.sub_add_cancel h]
  simp only [wordsOf, hd, List.range_succ_eq_map, List.map_cons, List.map_map, Nat.zero_add, Nat.mul_one, List.cons.injEq, true_and]
  apply List.map_congr_left
  intro k hk
  have hk := List.mem_range.mp hk
  have : ws * (k + 1) ≤ nb - ws := by
    calc ws * (k + 1) ≤ ws * ((nb - ws) / ws) := Nat.mul_le_mul_left _ hk
      _ ≤ nb - ws := Nat.mul_div_le _ _
  simp only [Function.comp_apply, Nat.succ_eq_add_one]
  rw [show nb - ws * (k + 1 + 1) = nb - ws - ws * (k + 1) by rw [Nat.mul_add ws (k + 1)]; omega]
  have : ws ≤ ws * (k + 1) := Nat.le_mul_of_pos_right _ (by omega)
  rw [mod_div_mod_pow _ _ _ _ (by omega)]

/-- The `while NB >= WS` loop: the whole words are emitted, most significant first, and the rest of the bits stays. -/
theorem packWords_eq (fuel : Nat) (x : BitField) (h0 : 0 < x.ws) (hw : x.ws ≤ 64) (hn : x.nb ≤ 64) (hf : x.nb ≤ fuel)
    (ha : x.acc.toNat < 2 ^ x.nb) :
    packWords fuel x =
      ({ x with
          acc := BitVec.ofNat 64 (x.acc.toNat % 2 ^ (x.nb % x.ws))
          nb := x.nb % x.ws
          last := ((wordsOf x.ws x.nb x.acc.toNat).getLast?.map (BitVec.ofNat 32)).getD x.last },
        (wordsOf x.ws x.nb x.acc.toNat).map fun m => .bytes (bytesOfWord x.ws m)) := by
  induction fuel generalizing x with
  | zero =>
    have : x.nb = 0 := by omega
    have hlt : x.nb < x.ws := by omega
    simp only [packWords, wordsOf_short _ hlt, Nat.mod_eq_of_lt hlt, Nat.mod_eq_of_lt ha, List.getLast?_nil, Option.map_none,
      Option.getD_none, List.map_nil, BitVec.ofNat_toNat, BitVec.setWidth_eq]
  | succ fuel ih =>
    rw [packWords]
    by_cases h : x.ws ≤ x.nb
    · have hm := and_mask64_toNat x.acc (x.nb - x.ws) (by omega)
      have hword : ((x.acc >>> (x.nb - x.ws)) &&& mask64 x.ws).toNat = x.acc.toNat / 2 ^ (x.nb - x.ws) % 2 ^ x.ws := by
        rw [and_mask64_toNat _ _ hw, BitVec.toNat_ushiftRight, Nat.shiftRight_eq_div_pow]
      simp only [h, if_true]
      rw [ih]
      · simp only [hm, wordBytes_eq, hword]
        have e1 : (x.nb - x.ws) % x.ws = x.nb % x.ws := (Nat.mod_eq_sub_mod h).symm
        have e2 : x.acc.toNat % 2 ^ (x.nb - x.ws) % 2 ^ (x.nb % x.ws) = x.acc.toNat % 2 ^ (x.nb % x.ws) := by
          apply Nat.mod_mod_of_dvd
          apply Nat.pow_dvd_pow
          rw [← e1]
          exact Nat.mod_le _ _
        have e3 : BitVec.setWidth 32 ((x.acc >>> (x.nb - x.ws)) &&& mask64 x.ws) =
            BitVec.ofNat 32 (x.acc.toNat / 2 ^ (x.nb - x.ws) % 2 ^ x.ws) := by
          apply BitVec.eq_of_toNat_eq
          rw [BitVec.toNat_setWidth, hword, BitVec.toNat_ofNat]
        rw [wordsOf_long x.acc.toNat h0 h, e1, e2, e3, List.getLast?_cons]
        simp only [List.map_cons, Option.map_some, Option.getD_some]
        cases (wordsOf x.ws (x.nb - x.ws) (x.acc.toNat % 2 ^ (x.nb - x.ws))).getLast? <;> rfl
      · exact h0
      · exact hw
      · simp only; omega
      · simp only; omega
      · simp only [hm]
        exact Nat.mod_lt _ (Nat.two_pow_pos _)
    · have hlt : x.nb < x.ws := by omega
      simp only [h, if_false, wordsOf_short _ hlt, Nat.mod_eq_of_lt hlt, Nat.mod_eq_of_lt ha, List.getLast?_nil, Option.map_none,
        Option.getD_none, List.map_nil, BitVec.ofNat_toNat, BitVec.setWidth_eq]

/-! ## The packer's step -/

theorem getD_mem_widths {l : List Nat} {i : Nat} (h : i < l.length) : l.getD i 0 ∈ l := by simp [h]

/-- ADVANCE of a stream that is not complete (R112). -/
theorem advance_eq (x : BitField) (h : x.done = false) :
    x.advance =
      { x with
        fidx := if x.fidx + 1 = x.widths.length then 0 else x.fidx + 1
        cyc := if x.fidx + 1 = x.widths.length then x.cyc + 1 else x.cyc
        done := decide (x.fidx + 1 = x.widths.length ∧ x.reps ≠ 0 ∧ x.cyc + 1 = x.reps) } := by
  simp only [BitField.advance]
  split
  · rename_i hw
    simp only [h, hw, true_and, Bool.false_or]
    congr 1
    rw [Bool.eq_iff_iff]
    simp
  · rename_i hw
    simp only [hw, false_and, decide_false, ← h]

/-- The pending bits and the low bits of the value as one number (R113). -/
theorem appended_toNat (acc : BitVec 64) (nb w : Nat) (v : Word) (ha : acc.toNat < 2 ^ nb) (h : nb + w ≤ 64) :
    ((acc <<< w) ||| (v.setWidth 64 &&& mask64 w)).toNat = acc.toNat * 2 ^ w + v.toNat % 2 ^ w ∧
      acc.toNat * 2 ^ w + v.toNat % 2 ^ w < 2 ^ (nb + w) := by
  have hv := v.isLt
  have hm := Nat.mod_lt v.toNat (Nat.two_pow_pos w)
  have h1 : (acc.toNat + 1) * 2 ^ w ≤ 2 ^ nb * 2 ^ w := Nat.mul_le_mul_right _ ha
  have hp : 2 ^ (nb + w) ≤ 2 ^ 64 := Nat.pow_le_pow_right (by omega) h
  rw [Nat.add_mul, ← Nat.pow_add] at h1
  refine ⟨?_, by omega⟩
  rw [BitVec.toNat_or, BitVec.toNat_shiftLeft, and_mask64_toNat _ _ (by omega), Nat.shiftLeft_eq,
    Nat.mod_eq_of_lt (by omega : acc.toNat * 2 ^ w < 2 ^ 64), BitVec.toNat_setWidth, Nat.mod_eq_of_lt (by omega : v.toNat < 2 ^ 64),
    ← Nat.shiftLeft_eq, ← Nat.shiftLeft_add_eq_or_of_lt hm]

/-- BFP_STEP on a legal unit whose stream is not complete, all it does. -/
theorem packStep_eq (p : Params) (x : BitField) (v : Word) (hx : x.PackWf p) (hd : x.done = false) :
    packStep x v =
      (({ x with
          acc := BitVec.ofNat 64 ((x.acc.toNat * 2 ^ x.width + v.toNat % 2 ^ x.width) % 2 ^ ((x.nb + x.width) % x.ws))
          nb := (x.nb + x.width) % x.ws
          fidx := if x.fidx + 1 = x.widths.length then 0 else x.fidx + 1
          cyc := if x.fidx + 1 = x.widths.length then x.cyc + 1 else x.cyc
          done := decide (x.fidx + 1 = x.widths.length ∧ x.reps ≠ 0 ∧ x.cyc + 1 = x.reps)
          last := ((wordsOf x.ws (x.nb + x.width) (x.acc.toNat * 2 ^ x.width + v.toNat % 2 ^ x.width)).getLast?.map
            (BitVec.ofNat 32)).getD x.last } : BitField).dropIfDone,
        (wordsOf x.ws (x.nb + x.width) (x.acc.toNat * 2 ^ x.width + v.toNat % 2 ^ x.width)).map
          fun m => .bytes (bytesOfWord x.ws m)) := by
  obtain ⟨⟨-, hr, hws, hf, -, -⟩, hnb, hacc⟩ := hx
  have hw := hr _ (getD_mem_widths hf)
  have hw32 : x.width ≤ 32 := hw.2
  obtain ⟨e1, e2⟩ := appended_toNat x.acc x.nb x.width v hacc (by omega)
  simp only [packStep]
  rw [advance_eq _ (by exact hd), packWords_eq]
  · simp only [e1]
  · simp only; omega
  · simp only; omega
  · simp only; omega
  · simp only; omega
  · simp only [e1]
    exact e2

/-- A unit after the last line of a step, when the step's registers are legal. -/
theorem packWf_dropIfDone (p : Params) (y : BitField) (hl : y.widths.length ≤ p.fieldListMax) (hr : ∀ w ∈ y.widths, 1 ≤ w ∧ w ≤ 32)
    (hws : y.ws = 8 ∨ y.ws = 16 ∨ y.ws = 24 ∨ y.ws = 32) (hf : y.fidx < y.widths.length)
    (hc : y.reps ≠ 0 → y.done = false → y.cyc.toNat < y.reps.toNat) (hnb : y.nb < y.ws) (hacc : y.acc.toNat < 2 ^ y.nb) :
    y.dropIfDone.PackWf p := by
  unfold BitField.dropIfDone
  split
  · exact ⟨⟨hl, hr, hws, hf, hc, fun _ => ⟨rfl, rfl⟩⟩, by show 0 < y.ws; omega, by simp⟩
  · rename_i h
    exact ⟨⟨hl, hr, hws, hf, hc, fun h' => absurd h' h⟩, hnb, hacc⟩

/-- The cycle counter stays below REPS until the stream is complete. -/
theorem cyc_lt_reps_of_not_done {x : BitField} (hc : x.cyc.toNat < x.reps.toNat) (h0 : x.reps ≠ 0)
    (hd : ¬ (x.fidx + 1 = x.widths.length ∧ x.reps ≠ 0 ∧ x.cyc + 1 = x.reps)) :
    (if x.fidx + 1 = x.widths.length then x.cyc + 1 else x.cyc).toNat < x.reps.toNat := by
  split
  · rename_i hw
    have hne : (x.cyc + 1).toNat ≠ x.reps.toNat := fun h => hd ⟨hw, h0, BitVec.eq_of_toNat_eq h⟩
    rw [BitVec.toNat_add] at hne ⊢
    simp at hne ⊢
    omega
  · exact hc

/-- One value leaves the packer legal, and every event it emits has a byte in it. -/
theorem bfpElement_keeps (p : Params) (x : BitField) (v : Word) (hx : x.PackWf p) :
    (bfpElement x v).regs.PackWf p ∧ ∀ e ∈ (bfpElement x v).events, ∃ w, e = .bytes w ∧ w ≠ [] := by
  by_cases hd : x.done = true
  · simp only [bfpElement, hd]
    exact ⟨hx, by simp⟩
  · have hd : x.done = false := by simpa using hd
    have e : bfpElement x v = { regs := (packStep x v).1, events := (packStep x v).2, bytes := [], flagged := false } := by
      simp only [bfpElement, hd]
      rfl
    rw [e, packStep_eq p x v hx hd]
    obtain ⟨⟨hl, hr, hws, hf, hc, -⟩, -, -⟩ := hx
    have hws0 : 0 < x.ws := by omega
    refine ⟨packWf_dropIfDone _ _ hl hr hws (by simp only; split <;> omega) ?_ (Nat.mod_lt _ hws0) ?_, ?_⟩
    · intro h0 hn
      exact cyc_lt_reps_of_not_done (hc h0 hd) h0 (of_decide_eq_false hn)
    · simp only [BitVec.toNat_ofNat]
      exact Nat.lt_of_le_of_lt (Nat.mod_le _ _) (Nat.mod_lt _ (Nat.two_pow_pos _))
    · intro e he
      obtain ⟨m, -, rfl⟩ := List.mem_map.mp he
      refine ⟨_, rfl, ?_⟩
      rw [← List.length_pos_iff]
      simp only [bytesOfWord, List.length_map, List.length_range]
      omega

/-! ## The unpacker's loop -/

/-- The pending bits and the byte as one number (R120). -/
theorem appendedByte_toNat (acc : BitVec 64) (nb : Nat) (b : Byte) (h : nb ≤ 56) :
    ((acc <<< 8) ||| b.setWidth 64).toNat % 2 ^ (nb + 8) = acc.toNat % 2 ^ nb * 256 + b.toNat := by
  have split : ∀ a c : Nat, c < 2 ^ 8 → (a * 2 ^ 8 + c) % 2 ^ 8 = c ∧ (a * 2 ^ 8 + c) / 2 ^ 8 = a := by intro a c _; omega
  have hb := b.isLt
  have hs : acc.toNat * 2 ^ 8 % 2 ^ 64 = (acc.toNat % 2 ^ 56) <<< 8 := by rw [Nat.shiftLeft_eq]; omega
  rw [BitVec.toNat_or, BitVec.toNat_setWidth, Nat.mod_eq_of_lt (by omega : b.toNat < 2 ^ 64), BitVec.toNat_shiftLeft, Nat.shiftLeft_eq, hs,
    ← Nat.shiftLeft_add_eq_or_of_lt hb, Nat.shiftLeft_eq, ← Nat.mod_mod_of_dvd acc.toNat (Nat.pow_dvd_pow 2 h)]
  generalize acc.toNat % 2 ^ 56 = a
  obtain ⟨h1, h2⟩ := split a b.toNat hb
  rw [Nat.pow_add, Nat.mul_comm (2 ^ nb), Nat.mod_mul, h1, h2, Nat.mul_comm, Nat.add_comm]

/-- The field index after one field. -/
def nextIndex (x : BitField) : Nat := if x.fidx + 1 = x.widths.length then 0 else x.fidx + 1

theorem nextIndex_add_mod (x : BitField) (h : x.fidx < x.widths.length) (j : Nat) :
    (nextIndex x + j) % x.widths.length = (x.fidx + (j + 1)) % x.widths.length := by
  unfold nextIndex
  split
  · rename_i hw
    rw [show x.fidx + (j + 1) = j + x.widths.length by omega, Nat.add_mod_right, Nat.zero_add]
  · rw [show x.fidx + (j + 1) = x.fidx + 1 + j by omega]

theorem nextIndex_add_div (x : BitField) (h : x.fidx < x.widths.length) (j : Nat) :
    (if x.fidx + 1 = x.widths.length then 1 else 0) + (nextIndex x + j) / x.widths.length =
      (x.fidx + (j + 1)) / x.widths.length := by
  unfold nextIndex
  split
  · rename_i hw
    rw [show x.fidx + (j + 1) = j + x.widths.length by omega, Nat.add_div_right _ (by omega), Nat.zero_add, Nat.add_comm]
  · rw [show x.fidx + (j + 1) = x.fidx + 1 + j by omega, Nat.zero_add]

theorem widthAhead_zero (x : BitField) (h : x.fidx < x.widths.length) : widthAhead x 0 = x.width := by
  simp only [widthAhead, BitField.width, Nat.add_zero, Nat.mod_eq_of_lt h]

/-- Looking ahead from the next field. -/
theorem widthAhead_next {x y : BitField} (h : x.fidx < x.widths.length) (hw : y.widths = x.widths) (hf : y.fidx = nextIndex x) (j : Nat) :
    widthAhead y j = widthAhead x (j + 1) := by
  simp only [widthAhead, hw, hf, nextIndex_add_mod x h]

theorem bitsAhead_next {x y : BitField} (h : x.fidx < x.widths.length) (hw : y.widths = x.widths) (hf : y.fidx = nextIndex x) (m : Nat) :
    bitsAhead x (m + 1) = x.width + bitsAhead y m := by
  simp only [bitsAhead, List.range_succ_eq_map, List.map_cons, List.map_map, List.sum_cons, widthAhead_zero x h]
  congr 2
  apply List.map_congr_left
  intro j _
  exact (widthAhead_next h hw hf j).symm

theorem fieldsNumber_next {x y : BitField} (h : x.fidx < x.widths.length) (hw : y.widths = x.widths) (hf : y.fidx = nextIndex x)
    (fs : List Nat) (j n : Nat) : fieldsNumber x fs (j + 1) n = fieldsNumber y fs j n := by
  induction fs generalizing j n with
  | nil => rfl
  | cons f fs ih => simp only [fieldsNumber, ih, widthAhead_next h hw hf]

theorem fieldsNumber_from (x : BitField) (fs : List Nat) (j n : Nat) :
    fieldsNumber x fs j n = n * 2 ^ ((List.range fs.length).map fun i => widthAhead x (j + i)).sum + fieldsNumber x fs j 0 := by
  induction fs generalizing j n with
  | nil => simp [fieldsNumber]
  | cons f fs ih =>
    have e : ((List.range (fs.length + 1)).map fun i => widthAhead x (j + i)).sum =
        widthAhead x j + ((List.range fs.length).map fun i => widthAhead x (j + 1 + i)).sum := by
      simp only [List.range_succ_eq_map, List.map_cons, List.map_map, List.sum_cons, Nat.add_zero]
      congr 2
      apply List.map_congr_left
      intro i _
      simp only [Function.comp_apply, Nat.succ_eq_add_one]
      rw [show j + (i + 1) = j + 1 + i by omega]
    simp only [fieldsNumber, List.length_cons, e]
    rw [ih (j + 1) (n * 2 ^ widthAhead x j + f), ih (j + 1) (0 * 2 ^ widthAhead x j + f), Nat.pow_add]
    ring

/-- `fields` are the fields that the loop `while DONE == 0 and NB >= L[FIDX]` cuts from the front of the pending bits of `x`, and `y` is the unit after it:
everything the loop can do. -/
structure Cuts (x : BitField) (fields : List Nat) (y : BitField) : Prop where
  small : ∀ j, j < fields.length → fields.getD j 0 < 2 ^ widthAhead x j
  enough : bitsAhead x fields.length ≤ x.nb
  number : fieldsNumber x fields 0 0 = x.acc.toNat % 2 ^ x.nb / 2 ^ (x.nb - bitsAhead x fields.length)
  config : y.widths = x.widths ∧ y.ofs = x.ofs ∧ y.reps = x.reps ∧ y.ws = x.ws ∧ y.bigEnd = x.bigEnd
  acc : y.acc = x.acc
  nb : y.nb = x.nb - bitsAhead x fields.length
  fidx : y.fidx = (x.fidx + fields.length) % x.widths.length
  cyc : y.cyc = x.cyc + BitVec.ofNat 32 ((x.fidx + fields.length) / x.widths.length)
  done : y.done = decide (x.reps ≠ 0 ∧ y.cyc = x.reps)
  bounded : x.reps ≠ 0 → x.cyc.toNat + (x.fidx + fields.length) / x.widths.length ≤ x.reps.toNat
  last : y.last = (fields.getLast?.map (BitVec.ofNat 32)).getD x.last
  going : y.done = false → y.nb < y.width ∧ (y.reps ≠ 0 → y.cyc.toNat < y.reps.toNat)
  complete : y.done = true → y.fidx = 0

/-- The loop that takes no field. -/
theorem cuts_nil {x : BitField} (hf : x.fidx < x.widths.length) (hc : x.reps ≠ 0 → x.cyc.toNat < x.reps.toNat) (hd : x.done = false)
    (h : x.nb < x.width) : Cuts x [] x where
  small := by simp
  enough := by simp [bitsAhead]
  number := by simp [fieldsNumber, bitsAhead, Nat.div_eq_of_lt (Nat.mod_lt x.acc.toNat (Nat.two_pow_pos x.nb))]
  config := by simp
  acc := rfl
  nb := by simp [bitsAhead]
  fidx := by simp [Nat.mod_eq_of_lt hf]
  cyc := by simp [Nat.div_eq_of_lt hf]
  done := by
    rw [hd, eq_comm, decide_eq_false_iff_not]
    rintro ⟨h0, h1⟩
    have := hc h0
    rw [h1] at this
    omega
  bounded := fun h0 => by
    have := hc h0
    rw [List.length_nil, Nat.add_zero, Nat.div_eq_of_lt hf]
    omega
  last := rfl
  going := fun _ => ⟨h, hc⟩
  complete := fun h => by rw [hd] at h; cases h

/-- The unit after one field of the loop. -/
def afterField (x : BitField) : BitField :=
  { x with
    nb := x.nb - x.width
    last := BitVec.ofNat 32 (x.acc.toNat % 2 ^ x.nb / 2 ^ (x.nb - x.width))
    fidx := nextIndex x
    cyc := if x.fidx + 1 = x.widths.length then x.cyc + 1 else x.cyc
    done := decide (x.fidx + 1 = x.widths.length ∧ x.reps ≠ 0 ∧ x.cyc + 1 = x.reps) }

theorem unpackFields_succ {x : BitField} (fuel : Nat) (hd : x.done = false) (hn : x.nb ≤ 64) (h : x.width ≤ x.nb) :
    unpackFields (fuel + 1) x =
      ((unpackFields fuel (afterField x)).1,
        .value (BitVec.ofNat 32 (x.acc.toNat % 2 ^ x.nb / 2 ^ (x.nb - x.width))) :: (unpackFields fuel (afterField x)).2) := by
  have e : BitVec.setWidth 32 ((x.acc >>> (x.nb - x.width)) &&& mask64 x.width) =
      BitVec.ofNat 32 (x.acc.toNat % 2 ^ x.nb / 2 ^ (x.nb - x.width)) := by
    apply BitVec.eq_of_toNat_eq
    rw [BitVec.toNat_setWidth, and_mask64_toNat _ _ (by omega), BitVec.toNat_ushiftRight, Nat.shiftRight_eq_div_pow, BitVec.toNat_ofNat]
    congr 1
    rw [← mod_div_mod_pow _ x.nb _ _ (by omega), Nat.mod_eq_of_lt]
    apply Nat.div_lt_of_lt_mul
    rw [← Nat.pow_add, Nat.sub_add_cancel h]
    exact Nat.mod_lt _ (Nat.two_pow_pos _)
  rw [unpackFields, if_pos ⟨hd, h⟩]
  simp only [e]
  rw [advance_eq _ (by exact hd)]
  rfl

/-- A field cut from the front, and then the rest of the loop. -/
theorem cuts_cons {x y : BitField} {fields : List Nat} (hr : ∀ w ∈ x.widths, 1 ≤ w ∧ w ≤ 32) (hf : x.fidx < x.widths.length)
    (hc : x.reps ≠ 0 → x.cyc.toNat < x.reps.toNat) (h : x.width ≤ x.nb) (hy : Cuts (afterField x) fields y) : Cuts x (x.acc.toNat % 2 ^ x.nb / 2 ^ (x.nb - x.width) :: fields) y := by
  have hw : 1 ≤ x.width ∧ x.width ≤ 32 := hr _ (getD_mem_widths hf)
  have hw' : (afterField x).widths = x.widths := rfl
  have hf' : (afterField x).fidx = nextIndex x := rfl
  have hb := bitsAhead_next hf hw' hf' fields.length
  have hnb : (afterField x).nb = x.nb - x.width := rfl
  have hacc : (afterField x).acc = x.acc := rfl
  have henough := hy.enough
  rw [hnb] at henough
  exact {
    small := by
      intro j hj
      cases j with
      | zero =>
        rw [widthAhead_zero x hf, List.getD_cons_zero]
        apply Nat.div_lt_of_lt_mul
        rw [← Nat.pow_add, Nat.sub_add_cancel h]
        exact Nat.mod_lt _ (Nat.two_pow_pos _)
      | succ j =>
        rw [List.getD_cons_succ, ← widthAhead_next hf hw' hf']
        exact hy.small j (by simpa using hj)
    enough := by rw [List.length_cons, hb]; omega
    number := by
      have hnum := hy.number
      rw [hnb, hacc] at hnum
      rw [fieldsNumber, fieldsNumber_next hf hw' hf', fieldsNumber_from, hnum, List.length_cons, hb]
      have hB : ((List.range fields.length).map fun i => widthAhead (afterField x) (0 + i)).sum = bitsAhead (afterField x) fields.length := by
        simp only [Nat.zero_add, bitsAhead]
      rw [hB]
      generalize bitsAhead (afterField x) fields.length = B at *
      obtain ⟨c, hc⟩ := Nat.exists_eq_add_of_le henough
      have e1 : x.nb - (x.width + B) = c := by omega
      have e2 : x.nb - x.width - B = c := by omega
      have e3 : 2 ^ (x.nb - x.width) = 2 ^ B * 2 ^ c := by rw [hc, Nat.pow_add]
      have e4 : x.acc.toNat % 2 ^ (x.nb - x.width) = x.acc.toNat % 2 ^ x.nb % (2 ^ B * 2 ^ c) := by
        rw [← e3, Nat.mod_mod_of_dvd]
        exact Nat.pow_dvd_pow _ (by omega)
      rw [e1, e2, e4, e3, Nat.zero_mul, Nat.zero_add]
      generalize x.acc.toNat % 2 ^ x.nb = a
      have hq := Nat.div_add_mod a (2 ^ B * 2 ^ c)
      conv_rhs => rw [← hq, show 2 ^ B * 2 ^ c * (a / (2 ^ B * 2 ^ c)) = 2 ^ c * (2 ^ B * (a / (2 ^ B * 2 ^ c))) by ring]
      rw [Nat.mul_add_div (Nat.two_pow_pos c), Nat.mul_comm (2 ^ B) (a / (2 ^ B * 2 ^ c))]
    config := hy.config
    acc := hy.acc
    nb := by rw [hy.nb, List.length_cons, hb, hnb]; omega
    fidx := by rw [hy.fidx, hf', hw', nextIndex_add_mod x hf, List.length_cons]
    cyc := by
      rw [hy.cyc, hf', hw', List.length_cons, ← nextIndex_add_div x hf fields.length]
      apply BitVec.eq_of_toNat_eq
      have : (afterField x).cyc = if x.fidx + 1 = x.widths.length then x.cyc + 1 else x.cyc := rfl
      rw [this]
      split <;> simp
      omega
    done := hy.done
    bounded := fun h0 => by
      have hb := hy.bounded h0
      have hlt := hc h0
      have e : (afterField x).cyc.toNat = x.cyc.toNat + if x.fidx + 1 = x.widths.length then 1 else 0 := by
        show (if x.fidx + 1 = x.widths.length then x.cyc + 1 else x.cyc).toNat = _
        split
        · rw [BitVec.toNat_add, Nat.mod_eq_of_lt]
          · rfl
          · show x.cyc.toNat + 1 < _
            omega
        · rfl
      rw [hf', hw', e] at hb
      rw [List.length_cons, ← nextIndex_add_div x hf fields.length]
      have e' : (afterField x).reps = x.reps := rfl
      rw [e'] at hb
      omega
    last := by
      rw [hy.last, List.getLast?_cons]
      cases fields.getLast? <;> rfl
    going := hy.going
    complete := hy.complete }

/-- What the loop gives on a legal unit whose stream is not complete, with enough rounds. -/
theorem unpackFields_cuts (fuel : Nat) (x : BitField) (hr : ∀ w ∈ x.widths, 1 ≤ w ∧ w ≤ 32) (hf : x.fidx < x.widths.length)
    (hc : x.reps ≠ 0 → x.cyc.toNat < x.reps.toNat) (hd : x.done = false) (hn : x.nb ≤ 64) (hfuel : x.nb ≤ fuel) :
    ∃ (fields : List Nat) (y : BitField),
      unpackFields fuel x = (y, fields.map fun f => .value (BitVec.ofNat 32 f)) ∧ Cuts x fields y := by
  induction fuel generalizing x with
  | zero =>
    have hw : 1 ≤ x.width ∧ x.width ≤ 32 := hr _ (getD_mem_widths hf)
    exact ⟨[], x, rfl, cuts_nil hf hc hd (by omega)⟩
  | succ fuel ih =>
    have hw : 1 ≤ x.width ∧ x.width ≤ 32 := hr _ (getD_mem_widths hf)
    by_cases h : x.width ≤ x.nb
    · have hf' : (afterField x).fidx < (afterField x).widths.length := by
        show nextIndex x < x.widths.length
        unfold nextIndex
        split <;> omega
      rw [unpackFields_succ fuel hd hn h]
      by_cases hd' : (afterField x).done = true
      · have hstop : unpackFields fuel (afterField x) = (afterField x, []) := by
          cases fuel with
          | zero => rfl
          | succ g => rw [unpackFields, if_neg (by simp [hd'])]
        obtain ⟨hwrap, h0, hcyc⟩ := of_decide_eq_true hd'
        refine ⟨[_], afterField x, by rw [hstop]; rfl, cuts_cons hr hf hc h ?_⟩
        exact {
          small := by simp
          enough := by simp [bitsAhead]
          number := by
            simp [fieldsNumber, bitsAhead, Nat.div_eq_of_lt (Nat.mod_lt (afterField x).acc.toNat (Nat.two_pow_pos (afterField x).nb))]
          config := ⟨rfl, rfl, rfl, rfl, rfl⟩
          acc := rfl
          nb := by simp [bitsAhead]
          fidx := by simp [Nat.mod_eq_of_lt hf']
          cyc := by simp [Nat.div_eq_of_lt hf']
          done := by
            rw [hd', eq_comm, decide_eq_true_eq]
            refine ⟨h0, ?_⟩
            show (if x.fidx + 1 = x.widths.length then x.cyc + 1 else x.cyc) = x.reps
            rw [if_pos hwrap, hcyc]
          bounded := fun _ => by
            rw [List.length_nil, Nat.add_zero, Nat.div_eq_of_lt hf']
            show (if x.fidx + 1 = x.widths.length then x.cyc + 1 else x.cyc).toNat + 0 ≤ x.reps.toNat
            rw [if_pos hwrap, hcyc, Nat.add_zero]
          last := rfl
          going := fun h => by rw [hd'] at h; cases h
          complete := fun _ => if_pos hwrap }
      · have hd' : (afterField x).done = false := by simpa using hd'
        obtain ⟨fields, y, e, hy⟩ := ih (afterField x) hr hf'
          (fun h0 => cyc_lt_reps_of_not_done (hc h0) h0 (of_decide_eq_false hd')) hd' (by show x.nb - x.width ≤ 64; omega) (by show x.nb - x.width ≤ fuel; omega)
        exact ⟨_ :: fields, y, by rw [e]; rfl, cuts_cons hr hf hc h hy⟩
    · refine ⟨[], x, ?_, cuts_nil hf hc hd (by omega)⟩
      rw [unpackFields, if_neg (by omega)]
      rfl

/-- One byte on a legal unpacker whose stream is not complete. -/
theorem bfuElement_cuts (p : Params) (x : BitField) (b : Byte) (hx : x.UnpackWf p) (hd : x.done = false) :
    ∃ (fields : List Nat) (y : BitField),
      bfuElement x b =
        { regs := y.dropIfDone, events := fields.map fun f => .value (BitVec.ofNat 32 f), bytes := [], flagged := false } ∧
      Cuts { x with acc := (x.acc <<< 8) ||| b.setWidth 64, nb := x.nb + 8 } fields y := by
  obtain ⟨⟨-, hr, -, hf, hc, -⟩, hnb⟩ := hx
  have hw := hr _ (getD_mem_widths hf)
  obtain ⟨fields, y, e, hy⟩ := unpackFields_cuts (x.nb + 8) { x with acc := (x.acc <<< 8) ||| b.setWidth 64, nb := x.nb + 8 } hr hf
    (fun h => hc h hd) hd (by show x.nb + 8 ≤ 64; omega) (Nat.le_refl _)
  refine ⟨fields, y, ?_, hy⟩
  have h : bfuElement x b =
      { regs := (unpackFields (x.nb + 8) { x with acc := (x.acc <<< 8) ||| b.setWidth 64, nb := x.nb + 8 }).1.dropIfDone
        events := (unpackFields (x.nb + 8) { x with acc := (x.acc <<< 8) ||| b.setWidth 64, nb := x.nb + 8 }).2
        bytes := [], flagged := false } := by
    rw [bfuElement, if_neg (by simp [hd])]
    rfl
  rw [h, e]

/-- One byte leaves the unpacker legal and emits only values. -/
theorem bfuElement_keeps (p : Params) (x : BitField) (b : Byte) (hx : x.UnpackWf p) :
    (bfuElement x b).regs.UnpackWf p ∧ ∀ e ∈ (bfuElement x b).events, ∃ v, e = .value v := by
  by_cases hd : x.done = true
  · simp only [bfuElement, hd]
    exact ⟨hx, by simp⟩
  · obtain ⟨fields, y, e, hy⟩ := bfuElement_cuts p x b hx (by simpa using hd)
    obtain ⟨⟨hl, hr, hws, hf, hc, -⟩, -⟩ := hx
    rw [e]
    obtain ⟨c1, -, -, c4, -⟩ := hy.config
    have hlt : y.fidx < y.widths.length := by
      rw [hy.fidx, c1]
      exact Nat.mod_lt _ (by simp only; omega)
    have hm := getD_mem_widths hlt
    refine ⟨?_, by simp⟩
    unfold BitField.dropIfDone
    split
    · rename_i h
      refine ⟨⟨by simp only [c1]; exact hl, by simp only [c1]; exact hr, by simp only [c4]; exact hws, hlt, ?_,
        fun _ => ⟨rfl, rfl⟩⟩, ?_⟩
      · intro _ h'
        simp only at h'
        rw [h] at h'
        cases h'
      · show 0 < y.widths.getD y.fidx 0
        rw [c1] at hm ⊢
        exact (hr _ hm).1
    · rename_i h
      have h : y.done = false := by simpa using h
      refine ⟨⟨by simp only [c1]; exact hl, by simp only [c1]; exact hr, by simp only [c4]; exact hws, hlt,
        fun h0 _ => (hy.going h).2 h0, ?_⟩, (hy.going h).1⟩
      intro h'
      rw [h] at h'
      cases h'

/-! ## The configuration -/

/-- A configuration that BF_CONFIG accepts is legal for both units, if its parameter count was (R69, R110). -/
theorem bitFieldConfig_keeps {p : Params} {x : BitField} {ps : List Word} {r : BitField × Bool} (hl : ps.length ≤ p.fieldListMax + 4)
    (hp : 1 ≤ p.fieldListMax) (h : bitFieldConfig x ps = some r) : r.1.PackWf p ∧ r.1.UnpackWf p := by
  unfold bitFieldConfig at h
  simp only at h
  split at h
  · rename_i hall
    simp only [Option.some.injEq] at h
    subst h
    have hw : ∀ w ∈ (paramOr ps 0 8).toNat :: (ps.drop 5).map BitVec.toNat, 1 ≤ w ∧ w ≤ 32 := by
      intro w hw
      simpa [widthLegal] using List.all_eq_true.mp hall w hw
    have hlen : ((paramOr ps 0 8).toNat :: (ps.drop 5).map BitVec.toNat).length ≤ p.fieldListMax := by
      simp
      omega
    have hws : (paramWordSize ps 3).1 = 8 ∨ (paramWordSize ps 3).1 = 16 ∨ (paramWordSize ps 3).1 = 24 ∨ (paramWordSize ps 3).1 = 32 := by
      rw [paramWordSize_eq]
      split_ifs with h1 h2
      · exact h2
      · simp
      · simp
    have hwf : BitField.Wf p
        { widths := (paramOr ps 0 8).toNat :: (ps.drop 5).map BitVec.toNat, ofs := paramOr ps 1 0, reps := paramOr ps 2 0,
          ws := (paramWordSize ps 3).1, bigEnd := (paramBit ps 4 true).1, acc := 0, nb := 0, fidx := 0, cyc := 0, done := false,
          last := x.last } := by
      refine ⟨hlen, hw, hws, by simp, ?_, by simp⟩
      intro h0 _
      exact Nat.pos_of_ne_zero fun h => h0 (BitVec.eq_of_toNat_eq h)
    refine ⟨⟨hwf, ?_, by simp⟩, hwf, ?_⟩
    · show 0 < (paramWordSize ps 3).1
      omega
    · exact (hw _ (by simp)).1
  · simp at h

end Sys2Proof.Machine
end

