-- ==== Sys2Proof/Laws/Checksum.lean ====
section
/-! SUPPORT. The CRC table and its update as the bit-serial register, and the checksum as a sum (43_checksum_crc.md R132, R133, R136, R137). -/

namespace Sys2Proof.Machine

/-! ## Reflection -/

theorem rev8_getLsbD (b : Byte) (i : Nat) (hi : i < 8) : (rev8 b).getLsbD (7 - i) = b.getLsbD i := by
  have h : ∀ (i : Fin 8) (b : Byte), (rev8 b).getLsbD (7 - i.val) = b.getLsbD i.val := by decide +kernel
  exact h ⟨i, hi⟩ b

/-! ## The table is linear -/

/-- A round on a register with low bits added: they only move up. -/
theorem crcShift_xor (p r a : Half) (h : a.toNat < 2 ^ 15) : crcShift p (r ^^^ a) = crcShift p r ^^^ (a <<< 1) := by
  have hm : a.msb = false := by
    rw [BitVec.msb_eq_false_iff_two_mul_lt]
    omega
  unfold crcShift
  rw [BitVec.msb_xor, hm]
  simp only [Bool.xor_false]
  split
  · rw [BitVec.shiftLeft_xor_distrib]
    ac_rfl
  · rw [BitVec.shiftLeft_xor_distrib]

theorem crcShifts_xor (p : Half) (n : Nat) (r a : Half) (h : a.toNat * 2 ^ n < 2 ^ 16) :
    crcShifts p n (r ^^^ a) = crcShifts p n r ^^^ (a <<< n) := by
  induction n generalizing r a with
  | zero => simp [crcShifts]
  | succ n ih =>
    have h1 : 1 ≤ 2 ^ n := Nat.one_le_two_pow
    rw [pow_succ] at h
    rw [crcShifts, crcShift_xor _ _ _ (by nlinarith), ih, crcShifts, ← BitVec.shiftLeft_add, Nat.add_comm]
    simp only [BitVec.toNat_shiftLeft, Nat.shiftLeft_eq]
    rw [Nat.mod_eq_of_lt]
    · nlinarith
    · nlinarith

/-! ## The bit-serial register -/

/-- Shifting one bit in is a round on the register with the bit added at the top. -/
theorem crcBit_eq_crcShift (p r : Half) (b : Bool) : crcBit p r b = crcShift p (r ^^^ (if b then 0x8000 else 0)) := by
  unfold crcBit crcShift
  rw [BitVec.msb_xor, BitVec.shiftLeft_xor_distrib]
  have hr : r.msb = r.getLsbD 15 := by simp [BitVec.msb, BitVec.getMsbD]
  have h8 : (0x8000#16 : Half).msb = true := by decide
  cases b
  · simp [hr]
  · rw [if_pos rfl, show (32768 : Half) = 0x8000#16 from rfl, h8, show (0x8000#16 <<< 1) = 0#16 by decide, hr]
    cases r.getLsbD 15 <;> simp

/-- A word is its top bit and the rest. -/
theorem topBit_xor_rest (a : Half) : a = (if a.getLsbD 15 then 0x8000#16 else 0#16) ^^^ (a &&& 0x7FFF#16) := by
  apply BitVec.eq_of_getLsbD_eq
  intro i hi
  by_cases h15 : i = 15
  · subst h15
    rw [BitVec.getLsbD_xor, BitVec.getLsbD_and]
    cases a.getLsbD 15 <;> decide
  · have e : ∀ i : Fin 15, (0x7FFF#16).getLsbD i.val = true ∧ (0x8000#16).getLsbD i.val = false := by decide
    obtain ⟨e1, e2⟩ := e ⟨i, by omega⟩
    dsimp only at e1 e2
    rw [BitVec.getLsbD_xor, BitVec.getLsbD_and, e1]
    cases a.getLsbD 15 <;> simp [e2]

/-- Shifting in the top bits of a word, most significant first, is as many rounds on the register with the word added. -/
theorem foldl_crcBit (p r : Half) (bs : List Bool) (a : Half) (hl : bs.length ≤ 16)
    (hb : ∀ i, i < bs.length → bs.getD i false = a.getLsbD (15 - i)) (h0 : a.toNat % 2 ^ (16 - bs.length) = 0) :
    bs.foldl (crcBit p) r = crcShifts p bs.length (r ^^^ a) := by
  induction bs generalizing r a with
  | nil =>
    have ha : a = 0 := by
      apply BitVec.eq_of_toNat_eq
      have := a.isLt
      simp at *
      omega
    subst ha
    simp [crcShifts]
  | cons b bs ih =>
    have hb0 := hb 0 (by simp)
    simp only [List.getD_cons_zero, Nat.sub_zero] at hb0
    have hsplit : a = (if b then 0x8000#16 else 0#16) ^^^ (a &&& 0x7FFF#16) := hb0 ▸ topBit_xor_rest a
    have hsm : (a &&& 0x7FFF#16).toNat = a.toNat % 2 ^ 15 := by
      rw [BitVec.toNat_and]
      exact Nat.and_two_pow_sub_one_eq_mod _ 15
    simp only [List.length_cons] at hl h0
    rw [List.foldl_cons, ih (a := a <<< 1)]
    · rw [List.length_cons, crcShifts, crcBit_eq_crcShift]
      congr 1
      conv_rhs => rw [hsplit, ← BitVec.xor_assoc, crcShift_xor _ _ _ (by omega)]
      congr 1
      apply BitVec.eq_of_toNat_eq
      rw [BitVec.toNat_shiftLeft, BitVec.toNat_shiftLeft, hsm]
      simp [Nat.shiftLeft_eq]
      omega
    · omega
    · intro i hi
      have h := hb (i + 1) (by simpa using hi)
      rw [List.getD_cons_succ] at h
      rw [h, BitVec.getLsbD_shiftLeft, show 15 - (i + 1) = 15 - i - 1 by omega]
      simp
      omega
    · rw [BitVec.toNat_shiftLeft, Nat.shiftLeft_eq]
      have h1 : 2 ^ (16 - bs.length) = 2 * 2 ^ (16 - (bs.length + 1)) := by
        rw [← pow_succ']
        congr 1
        omega
      have h16 : 2 ^ 16 = 2 * 2 ^ (16 - (bs.length + 1)) * 2 ^ bs.length := by
        rw [mul_assoc, ← pow_add, ← pow_succ']
        congr 1
        omega
      obtain ⟨k, hk⟩ : 2 ^ (16 - (bs.length + 1)) ∣ a.toNat := Nat.dvd_of_mod_eq_zero h0
      rw [h1, h16, Nat.mod_mul_right_mod, hk]
      apply Nat.mod_eq_zero_of_dvd
      exact ⟨k, by ring⟩

/-- CRC_UPDATE is the eight bits of the byte shifted in (R136, R137). -/
theorem crcUpdate_eq_bits (p : Half) (refin : Bool) (r : Half) (b : Byte) :
    crcUpdate p refin r b = (crcBitsOf refin b).foldl (crcBit p) r := by
  have hlen : (crcBitsOf refin b).length = 8 := by simp [crcBitsOf]
  generalize hd : (if refin then rev8 b else b) = d
  rw [foldl_crcBit p r (crcBitsOf refin b) (d.setWidth 16 <<< 8) (by omega) ?_ ?_]
  · rw [hlen, crcUpdate, hd]
    unfold crcTable
    have h : r ^^^ d.setWidth 16 <<< 8 =
        ((((r >>> 8).setWidth 8 : Byte) ^^^ d).setWidth 16 <<< 8) ^^^ (r.setWidth 8).setWidth 16 := by
      apply BitVec.eq_of_getLsbD_eq
      intro i hi
      simp only [BitVec.getLsbD_xor, BitVec.getLsbD_shiftLeft, BitVec.getLsbD_setWidth, BitVec.getLsbD_ushiftRight]
      by_cases h8 : i < 8
      · simp [h8, hi]
      · simp [h8, hi, (by omega : i - 8 < 8), (by omega : 8 + (i - 8) = i), (by omega : i - 8 < 16)]
    rw [h, crcShifts_xor, BitVec.xor_comm]
    · congr 1
      apply BitVec.eq_of_toNat_eq
      simp [Nat.shiftLeft_eq]
      omega
    · have := (r.setWidth 8).isLt
      rw [BitVec.toNat_setWidth]
      omega
  · intro i hi
    rw [hlen] at hi
    have hr := rev8_getLsbD b i hi
    subst hd
    simp [crcBitsOf, hi, (by omega : 15 - i - 8 = 7 - i), (by omega : 15 - i < 16)]
    cases refin
    · simp
      omega
    · simp [hr]
      omega
  · rw [hlen, BitVec.toNat_shiftLeft]
    simp [Nat.shiftLeft_eq]

/-! ## The checksum -/

/-- Adding the bytes one by one modulo 256 adds their sum. -/
theorem foldl_add_eq_byteSum (bytes : List Byte) (a : Byte) :
    bytes.foldl (fun a b => a + b) a = BitVec.ofNat 8 ((a.toNat + byteSum bytes) % 256) := by
  induction bytes generalizing a with
  | nil =>
    have := a.isLt
    apply BitVec.eq_of_toNat_eq
    simp [byteSum]
    omega
  | cons b bs ih =>
    rw [List.foldl_cons, ih]
    apply BitVec.eq_of_toNat_eq
    simp [byteSum]
    omega

/-- The two's complement of the accumulator, as a number. -/
theorem cksNegate_eq (a : Byte) : cksNegate a = BitVec.ofNat 8 ((256 - a.toNat) % 256) := by revert a; decide

end Sys2Proof.Machine
end

