-- ==== Sys2Proof/Laws/Decode.lean ====
section
/-! SUPPORT. The fields of a header, framing, and the byte words: the lemmas the encoding statements rest on. -/

namespace Sys2Proof

/-! ## Header fields -/

theorem header_toNat (u o : BitVec 4) (r : BitVec 8) (n : Nat) (h : n < 65536) :
    (header u o r n).toNat = u.toNat * 2 ^ 28 + o.toNat * 2 ^ 24 + r.toNat * 2 ^ 16 + n := by
  have hu := u.isLt
  have ho := o.isLt
  have hr := r.isLt
  unfold header
  rw [BitVec.toNat_append, BitVec.toNat_append, BitVec.toNat_append, BitVec.toNat_ofNat, Nat.mod_eq_of_lt (by omega : n < 2 ^ 16)]
  rw [← Nat.shiftLeft_add_eq_or_of_lt (by omega : n < 2 ^ 16), ← Nat.shiftLeft_add_eq_or_of_lt hr, ← Nat.shiftLeft_add_eq_or_of_lt ho]
  simp only [Nat.shiftLeft_eq]
  omega

theorem unitField_toNat (w : Word) : (unitField w).toNat = w.toNat / 2 ^ 28 := by
  have := w.isLt
  simp only [unitField, BitVec.extractLsb'_toNat, Nat.shiftRight_eq_div_pow]
  omega

theorem opField_toNat (w : Word) : (opField w).toNat = w.toNat / 2 ^ 24 % 16 := by
  simp only [opField, BitVec.extractLsb'_toNat, Nat.shiftRight_eq_div_pow]

theorem rsvField_toNat (w : Word) : (rsvField w).toNat = w.toNat / 2 ^ 16 % 256 := by
  simp only [rsvField, BitVec.extractLsb'_toNat, Nat.shiftRight_eq_div_pow]

theorem countField_eq (w : Word) : countField w = w.toNat % 65536 := by
  simp [countField, BitVec.extractLsb'_toNat]

@[simp] theorem unitField_header (u o : BitVec 4) (r : BitVec 8) (n : Nat) (h : n < 65536) :
    unitField (header u o r n) = u := by
  have := o.isLt
  have := r.isLt
  apply BitVec.eq_of_toNat_eq
  rw [unitField_toNat, header_toNat _ _ _ _ h]
  omega

@[simp] theorem opField_header (u o : BitVec 4) (r : BitVec 8) (n : Nat) (h : n < 65536) :
    opField (header u o r n) = o := by
  have := o.isLt
  have := r.isLt
  apply BitVec.eq_of_toNat_eq
  rw [opField_toNat, header_toNat _ _ _ _ h]
  omega

@[simp] theorem rsvField_header (u o : BitVec 4) (r : BitVec 8) (n : Nat) (h : n < 65536) :
    rsvField (header u o r n) = r := by
  have := r.isLt
  apply BitVec.eq_of_toNat_eq
  rw [rsvField_toNat, header_toNat _ _ _ _ h]
  omega

@[simp] theorem countField_header (u o : BitVec 4) (r : BitVec 8) (n : Nat) (h : n < 65536) :
    countField (header u o r n) = n := by
  rw [countField_eq, header_toNat _ _ _ _ h]
  omega

/-- A CMD word is its four fields. -/
theorem header_of_fields (w : Word) : header (unitField w) (opField w) (rsvField w) (countField w) = w := by
  have := w.isLt
  apply BitVec.eq_of_toNat_eq
  rw [header_toNat _ _ _ _ (by rw [countField_eq]; omega), unitField_toNat, opField_toNat, rsvField_toNat, countField_eq]
  omega

/-! ## Field values -/

@[simp] theorem unitOf_number (u : UnitId) : unitOf u.number = some u := by cases u <;> rfl

@[simp] theorem opOf_number (o : Op) : opOf o.number = some o := by cases o <;> rfl

theorem number_of_unitOf {v : BitVec 4} {u : UnitId} (h : unitOf v = some u) : u.number = v := by
  revert h; revert u; revert v; decide

theorem number_of_opOf {v : BitVec 4} {o : Op} (h : opOf v = some o) : o.number = v := by
  revert h; revert o; revert v; decide

/-! ## Framing -/

/-- A CMD word with exactly its N DATA words before `rest`. -/
theorem fetch_command (cmd : Word) (data rest : List Word) (h : data.length = countField cmd) :
    fetch (cmd :: (data ++ rest)) = .command cmd data rest := by
  simp [fetch, ← h]

/-- What `fetch` answers determines the words. -/
theorem fetch_eq_command_iff {ws data rest : List Word} {cmd : Word} :
    fetch ws = .command cmd data rest ↔ ws = cmd :: (data ++ rest) ∧ data.length = countField cmd := by
  constructor
  · intro h
    cases ws with
    | nil => simp [fetch] at h
    | cons c ws =>
      simp only [fetch] at h
      split at h
      · simp only [Fetched.command.injEq] at h
        obtain ⟨rfl, rfl, rfl⟩ := h
        simp_all
      · simp at h
  · rintro ⟨rfl, h⟩
    exact fetch_command cmd data rest h

/-- Fewer words than the command has: none is fetched. -/
theorem fetch_incomplete (cmd : Word) (ws : List Word) (h : ws.length < countField cmd) : fetch (cmd :: ws) = .incomplete := by
  simp [fetch, Nat.not_le.mpr h]

theorem decode_command (p : Params) (cmd : Word) (data rest : List Word) (h : data.length = countField cmd) :
    decode p (cmd :: (data ++ rest)) =
      match decodeCommand p cmd data with
      | .error why => .rejected why rest
      | .ok i => .instr i rest := by
  cases hd : decodeCommand p cmd data <;> simp only [decode, fetch_command cmd data rest h, hd]

/-! ## Byte words -/

@[simp] theorem lowByte_byteWord (b : Byte) : lowByte (byteWord b) = b := by
  apply BitVec.eq_of_toNat_eq
  have := b.isLt
  simp [lowByte, byteWord, BitVec.extractLsb'_toNat]
  omega

@[simp] theorem isByteWord_byteWord (b : Byte) : isByteWord (byteWord b) = true := by
  have := b.isLt
  simp only [isByteWord, beq_iff_eq]
  apply BitVec.eq_of_toNat_eq
  simp [byteWord, BitVec.extractLsb'_toNat, Nat.shiftRight_eq_div_pow]
  omega

theorem isByteWord_iff (d : Word) : isByteWord d = true ↔ d.toNat < 256 := by
  have := d.isLt
  simp only [isByteWord, beq_iff_eq, ← BitVec.toNat_inj, BitVec.extractLsb'_toNat, Nat.shiftRight_eq_div_pow]
  simp
  omega

theorem byteWord_lowByte {d : Word} (h : isByteWord d = true) : byteWord (lowByte d) = d := by
  rw [isByteWord_iff] at h
  apply BitVec.eq_of_toNat_eq
  simp [lowByte, byteWord, BitVec.extractLsb'_toNat]
  omega

theorem lowByte_eq_ofNat (d : Word) : lowByte d = BitVec.ofNat 8 d.toNat := by
  apply BitVec.eq_of_toNat_eq
  simp [lowByte, BitVec.extractLsb'_toNat]

/-- A pair is legal exactly if a command stands for it (R68). -/
theorem build_isSome (u : UnitId) (op : Op) (data : List Word) : (build u op data).isSome = legalPair u op := by
  cases u <;> cases op <;> rfl

end Sys2Proof
end

