-- ==== Sys2Proof/Laws/Encoding.lean ====
section
/-! SUPPORT. What a command's words decode to: the decoder's answer for a CMD of a legal pair, and what an answer says of the words. -/

namespace Sys2Proof.Machine

/-! ## The decoder's answer -/

/-- All checks passed: the command of the pair. -/
theorem decodeCommand_of_checks {p : Params} {cmd : Word} {data : List Word} {i : Instr} {u : UnitId} {op : Op}
    (hu : unitOf (unitField cmd) = some u) (ho : opOf (opField cmd) = some op) (hl : legalPair u op = true)
    (hr : rsvField cmd = 0#8) (hc : countLegal p u op (countField cmd) = true) (hd : dataLegal u op data = true)
    (hb : build u op data = some i) : decodeCommand p cmd data = .ok i := by
  simp [decodeCommand, hu, ho, hl, hr, hc, hd, hb]

/-- A command was decoded: every check passed. -/
theorem checks_of_decodeCommand {p : Params} {cmd : Word} {data : List Word} {i : Instr} (h : decodeCommand p cmd data = .ok i) :
    ∃ u op, unitOf (unitField cmd) = some u ∧ opOf (opField cmd) = some op ∧ legalPair u op = true ∧ rsvField cmd = 0#8 ∧
      countLegal p u op (countField cmd) = true ∧ dataLegal u op data = true ∧ build u op data = some i := by
  unfold decodeCommand at h
  split at h
  · simp at h
  split at h
  · simp at h
  split_ifs at h
  split at h <;> simp at h
  subst h
  refine ⟨_, _, ‹_›, ‹_›, ?_, ?_, ?_, ?_, ‹_›⟩ <;> simp_all

/-- The command that the checks allow has the pair, the data and a legal count. -/
theorem fields_of_build {u : UnitId} {op : Op} {data : List Word} {i : Instr} (p : Params) (h : build u op data = some i)
    (hd : dataLegal u op data = true) (hc : countLegal p u op data.length = true) (hn : data.length ≤ 65535) :
    i.unit = u ∧ i.op = op ∧ i.data = data ∧ i.WellFormed p = true := by
  have hmap : (∀ x ∈ data, isByteWord x = true) → data.map (byteWord ∘ lowByte) = data := by
    intro hh
    conv_rhs => rw [← List.map_id data]
    exact List.map_congr_left fun d hd => byteWord_lowByte (hh d hd)
  cases u <;> cases op <;> simp only [build, Option.some.injEq, reduceCtorEq] at h
  all_goals subst h
  all_goals simp_all [Instr.unit, Instr.op, Instr.data, Instr.WellFormed, countLegal, dataLegal, configCountOk, maxParams, maxCount]
  all_goals cases data <;> simp_all [feedOrFin, feedCountOk, maxCount]

/-! ## CMD as a number -/

theorem cmdNumber_eq_header (u o n : Nat) (hu : u < 16) (ho : o < 16) (hn : n ≤ 65535) :
    cmdNumber u o n = header (BitVec.ofNat 4 u) (BitVec.ofNat 4 o) 0 n := by
  apply BitVec.eq_of_toNat_eq
  rw [header_toNat _ _ _ _ (by omega)]
  simp [cmdNumber]
  omega

/-- A CMD of a legal pair with RSV = 0 and its DATA: the count check, the data check, then the command. -/
theorem decode_cmdNumber (p : Params) (u : UnitId) (op : Op) (data rest : List Word) (h : data.length ≤ 65535)
    (hl : legalPair u op = true) :
    decode p (cmdNumber u.number.toNat op.number.toNat data.length :: (data ++ rest)) =
      if countLegal p u op data.length = false then .rejected .badCount rest
      else if dataLegal u op data = false then .rejected .dataRange rest
      else match build u op data with
        | some i => .instr i rest
        | none => .rejected .illegalOp rest := by
  have h' : data.length < 65536 := by omega
  rw [cmdNumber_eq_header _ _ _ u.number.isLt op.number.isLt h, decode_command _ _ _ _ (by simp [h'])]
  simp only [decodeCommand, BitVec.ofNat_toNat, BitVec.setWidth_eq]
  simp [h', hl]
  split_ifs <;> simp_all
  cases build u op data <;> rfl

/-! ## The encoding forms of Safety.lean, for a unit and an operation -/

theorem takesNoData_of (u : UnitId) (op : Op) (i : Instr)
    (h : op = .describe ∨ op = .reset ∨ op = .query ∨ (op = .config ∧ ∀ p, maxParams p u = 0)) (hb : build u op [] = some i) :
    TakesNoData u.number.toNat op.number.toNat i := by
  intro p data rest hl
  have hleg : legalPair u op = true := by
    rw [← build_isSome u op []]
    simp [hb]
  have hc : countLegal p u op data.length = decide (data = []) := by
    rcases h with rfl | rfl | rfl | ⟨rfl, h⟩ <;> simp [countLegal]
    all_goals first | (rw [Bool.eq_iff_iff]; simp; done) | simp [h]
  have hd : dataLegal u op data = true := by rcases h with rfl | rfl | rfl | ⟨rfl, h⟩ <;> simp [dataLegal]
  rw [decode_cmdNumber p u op data rest hl hleg, hc, hd]
  by_cases hx : data = []
  · subst hx
    simp [hb]
  · simp [hx]

theorem isFinalize_of (u : UnitId) (i : Instr) (hb : build u .feed [] = some i) : IsFinalize u.number.toNat i := by
  intro p rest
  have hleg : legalPair u .feed = true := by
    rw [← build_isSome u .feed []]
    simp [hb]
  have h := decode_cmdNumber p u .feed [] rest (by simp) hleg
  simp [countLegal, dataLegal, hb] at h
  exact h

theorem takesBytes_of (u : UnitId) (op : Op) (least : Nat) (mk : List Byte → Instr) (hop : op = .feed ∨ op = .oneshot) (hu : u ≠ .bfp)
    (hb : ∀ data, least ≤ data.length → build u op data = some (mk (data.map lowByte))) :
    TakesBytes u.number.toNat op.number.toNat least mk := by
  intro p data rest h0 hl
  have hleg : legalPair u op = true := by
    rw [← build_isSome u op data]
    simp [hb data h0]
  have hc : countLegal p u op data.length = true := by rcases hop with rfl | rfl <;> rfl
  have hd : dataLegal u op data = data.all isByteWord := by
    have hne : (u == UnitId.bfp) = false := by revert hu; cases u <;> decide
    rcases hop with rfl | rfl <;> simp only [dataLegal, hne, Bool.false_or]
  have hall : (∀ d ∈ data, d.toNat < 256) ↔ data.all isByteWord = true := by simp [isByteWord_iff]
  have hlow : lowByte = fun d : Word => BitVec.ofNat 8 d.toNat := funext lowByte_eq_ofNat
  rw [decode_cmdNumber p u op data rest hl hleg, hb data h0, hc, hd]
  simp only [hall]
  cases data.all isByteWord <;> simp only [hlow] <;> rfl

theorem takesValues_bfp : TakesValues 4 .bfpFeed := by
  intro p data rest h0 hl
  have h := decode_cmdNumber p .bfp .feed data rest hl rfl
  have hne : data ≠ [] := by rintro rfl; simp at h0
  simp [countLegal, dataLegal, build, hne] at h
  exact h

theorem takesParams_of (u : UnitId) (most : Params → Nat) (mk : List Word → Instr) (hm : ∀ p, maxParams p u = most p)
    (hb : ∀ data, build u .config data = some (mk data)) : TakesParams u.number.toNat most mk := by
  intro p data rest hl
  have hleg : legalPair u .config = true := by
    rw [← build_isSome u .config []]
    simp [hb]
  have h := decode_cmdNumber p u .config data rest hl hleg
  simp only [countLegal, dataLegal, hb, hm] at h
  by_cases hle : data.length ≤ most p <;> simp [hle] at h ⊢ <;> exact h

end Sys2Proof.Machine
end

