-- ==== Sys2Proof/Laws/Hex.lean ====
section
/-! SUPPORT. The hex steps in numbers, and what one element keeps (41_hex.md R93, R100, R101; 10_state.md R28, R29). -/

namespace Sys2Proof.Machine

theorem highNibble_eq (b : Byte) : b.extractLsb' 4 4 = BitVec.ofNat 4 (b.toNat / 16) := by revert b; decide

theorem lowNibble_eq (b : Byte) : b.extractLsb' 0 4 = BitVec.ofNat 4 (b.toNat % 16) := by revert b; decide

theorem nibbles_append (a b : BitVec 4) : a ++ b = BitVec.ofNat 8 (a.toNat * 16 + b.toNat) := by revert a b; decide

/-- A character that is the hex digit of `v` in either case decodes to `v`. -/
theorem hexValue_of_upperCase : ∀ (c : Byte) (v : BitVec 4), upperCase c = hexChar v → hexValue c = some v := by
  decide +kernel

/-- Two characters put at the end of what is buffered. -/
theorem take_set_pair {l : List Byte} {i : Nat} {a b : Byte} (h : i + 1 < l.length) :
    ((l.set i a).set (i + 1) b).take (i + 2) = l.take i ++ [a, b] := by
  have hb : ((l.set i a).set (i + 1) b)[i + 1]? = some b := by simp [h]
  have ha : (l.set i a)[i]? = some a := List.getElem?_set_self (by omega)
  rw [show i + 2 = i + 1 + 1 from rfl, List.take_add_one, hb, List.take_set_of_le (by omega), List.take_add_one,
    List.take_set_of_le (by omega), ha]
  simp

/-- One byte leaves the encoder legal; its two characters are in RET, and at the end of what is emitted and buffered. -/
theorem hexeElement_keeps (p : Params) (x : HexEnc) (b : Byte) (h : x.Wf p) :
    (hexeElement x b).regs.Wf p ∧ (hexeElement x b).regs.size = x.size ∧ (hexeElement x b).bytes = hexText [b] ∧
    eventBytes (hexeElement x b).events ++ (hexeElement x b).regs.buf.take (hexeElement x b).regs.idx =
      x.buf.take x.idx ++ hexText [b] ∧
    (0 < x.size → ∀ e ∈ (hexeElement x b).events, ∃ w, e = .bytes w ∧ w.length = 2 * x.size) ∧
    ∀ e ∈ (hexeElement x b).events, ∃ w, e = .bytes w ∧ w ≠ [] := by
  obtain ⟨h1, h2, h2', h3, h4, h5⟩ := h
  unfold hexeElement
  simp only [highNibble_eq, lowNibble_eq]
  by_cases hz : x.size = 0
  · simp [hz, hexText, eventBytes, HexEnc.Wf, h1, h4 hz]
  · have hlt := h5 (by omega)
    have hpair := take_set_pair (l := x.buf) (i := x.idx) (a := hexChar (BitVec.ofNat 4 (b.toNat / 16)))
      (b := hexChar (BitVec.ofNat 4 (b.toNat % 16))) (by omega)
    by_cases hf : x.idx + 2 = 2 * x.size
    · have hlen : 2 * x.size ≤ x.buf.length := by omega
      simp only [hz, hexePut, hf, if_true, if_false]
      refine ⟨⟨by simpa using h1, h2, h2', by simp, by simp, by simp; try omega⟩, by trivial, by simp [hexText], ?_, ?_, ?_⟩
      · rw [← hf]
        simp [eventBytes, hpair, hexText]
      · simp
        omega
      · simp [← List.length_eq_zero_iff]
        omega
    · simp only [hz, hexePut, hf, if_false]
      refine ⟨⟨by simpa using h1, h2, h2', by simp; omega, by simp [hz], by simp; omega⟩, by trivial, by simp [hexText], ?_,
        by simp, by simp⟩
      simp [eventBytes, hpair, hexText]

/-- One character leaves the decoder legal, and every event it emits has a byte in it. -/
theorem hexdElement_keeps (p : Params) (x : HexDec) (c : Byte) (h : x.Wf p) :
    (hexdElement x c).regs.Wf p ∧ ∀ e ∈ (hexdElement x c).events, ∃ w, e = .bytes w ∧ w ≠ [] := by
  obtain ⟨h1, h2, h2', h3, h4, h5⟩ := h
  unfold hexdElement
  split
  · exact ⟨⟨h1, h2, h2', h3, h4, fun _ => rfl⟩, by simp⟩
  · split
    · exact ⟨⟨h1, h2, h2', h3, h4, fun h => nomatch h⟩, by simp⟩
    · dsimp only
      split
      · exact ⟨⟨h1, h2, h2', h3, h4, fun _ => rfl⟩, by simp⟩
      · rename_i hz
        have hz : x.size ≠ 0 := hz
        have hlt := h4 (by omega)
        unfold hexdPut
        simp only
        split
        · refine ⟨⟨by simpa using h1, h2, h2', by simp, by simp; try omega, fun _ => rfl⟩, ?_⟩
          simp only [List.mem_singleton, forall_eq]
          refine ⟨_, rfl, ?_⟩
          rw [← List.length_pos_iff]
          simp
          omega
        · exact ⟨⟨by simpa using h1, h2, h2', by simp; omega, by simp; omega, fun _ => rfl⟩, by simp⟩

end Sys2Proof.Machine
end

