-- ==== Sys2Proof/Laws/PerInstr.lean ====
section
/-! SUPPORT. Per command: the words of its encoding are framed as its CMD and its DATA (30_encoding.md R63, R65). -/

namespace Sys2Proof.Laws

/-- The words of a well-formed command, with any words after them, are fetched as its CMD word, with UNIT, OP and RSV = 0, and its DATA words. -/
def EncodingFrames.Statement (i : Instr) : Prop :=
  ∀ (p : Params) (rest : List Word), i.WellFormed p = true →
    fetch (encode i ++ rest) = .command (header i.unit.number i.op.number 0 i.data.length) i.data rest ∧
      i.data.length ≤ maxCount

/-- Framing needs only that the count fits the N field. -/
theorem EncodingFrames.of_count {i : Instr} (h : ∀ p : Params, i.WellFormed p = true → i.data.length ≤ maxCount) :
    EncodingFrames.Statement i := by
  intro p rest hw
  have hn := h p hw
  refine ⟨?_, hn⟩
  simp only [maxCount] at hn
  rw [encode, List.cons_append]
  exact fetch_command _ _ _ (by rw [countField_header _ _ _ _ (by omega)])

theorem EncodingFrames.b64eDescribe : EncodingFrames.Statement .b64eDescribe :=
  EncodingFrames.of_count (by simp [Instr.data])

theorem EncodingFrames.b64eReset : EncodingFrames.Statement .b64eReset :=
  EncodingFrames.of_count (by simp [Instr.data])

theorem EncodingFrames.b64eConfig : EncodingFrames.Statement .b64eConfig :=
  EncodingFrames.of_count (by simp [Instr.data])

theorem EncodingFrames.b64eFeed (bytes : List Byte) : EncodingFrames.Statement (.b64eFeed bytes) :=
  EncodingFrames.of_count (by simp [Instr.WellFormed, Instr.data, feedCountOk])

theorem EncodingFrames.b64eFin : EncodingFrames.Statement .b64eFin :=
  EncodingFrames.of_count (by simp [Instr.data])

theorem EncodingFrames.b64eOneshot (bytes : List Byte) : EncodingFrames.Statement (.b64eOneshot bytes) :=
  EncodingFrames.of_count (by simp [Instr.WellFormed, Instr.data])

theorem EncodingFrames.b64dDescribe : EncodingFrames.Statement .b64dDescribe :=
  EncodingFrames.of_count (by simp [Instr.data])

theorem EncodingFrames.b64dReset : EncodingFrames.Statement .b64dReset :=
  EncodingFrames.of_count (by simp [Instr.data])

theorem EncodingFrames.b64dConfig : EncodingFrames.Statement .b64dConfig :=
  EncodingFrames.of_count (by simp [Instr.data])

theorem EncodingFrames.b64dFeed (bytes : List Byte) : EncodingFrames.Statement (.b64dFeed bytes) :=
  EncodingFrames.of_count (by simp [Instr.WellFormed, Instr.data, feedCountOk])

theorem EncodingFrames.b64dFin : EncodingFrames.Statement .b64dFin :=
  EncodingFrames.of_count (by simp [Instr.data])

theorem EncodingFrames.hexeDescribe : EncodingFrames.Statement .hexeDescribe :=
  EncodingFrames.of_count (by simp [Instr.data])

theorem EncodingFrames.hexeReset : EncodingFrames.Statement .hexeReset :=
  EncodingFrames.of_count (by simp [Instr.data])

theorem EncodingFrames.hexeConfig (params : List Word) : EncodingFrames.Statement (.hexeConfig params) :=
  EncodingFrames.of_count (by simp [Instr.WellFormed, Instr.data, configCountOk])

theorem EncodingFrames.hexeFeed (bytes : List Byte) : EncodingFrames.Statement (.hexeFeed bytes) :=
  EncodingFrames.of_count (by simp [Instr.WellFormed, Instr.data, feedCountOk])

theorem EncodingFrames.hexeFin : EncodingFrames.Statement .hexeFin :=
  EncodingFrames.of_count (by simp [Instr.data])

theorem EncodingFrames.hexeQuery : EncodingFrames.Statement .hexeQuery :=
  EncodingFrames.of_count (by simp [Instr.data])

theorem EncodingFrames.hexdDescribe : EncodingFrames.Statement .hexdDescribe :=
  EncodingFrames.of_count (by simp [Instr.data])

theorem EncodingFrames.hexdReset : EncodingFrames.Statement .hexdReset :=
  EncodingFrames.of_count (by simp [Instr.data])

theorem EncodingFrames.hexdConfig (params : List Word) : EncodingFrames.Statement (.hexdConfig params) :=
  EncodingFrames.of_count (by simp [Instr.WellFormed, Instr.data, configCountOk])

theorem EncodingFrames.hexdFeed (bytes : List Byte) : EncodingFrames.Statement (.hexdFeed bytes) :=
  EncodingFrames.of_count (by simp [Instr.WellFormed, Instr.data, feedCountOk])

theorem EncodingFrames.hexdFin : EncodingFrames.Statement .hexdFin :=
  EncodingFrames.of_count (by simp [Instr.data])

theorem EncodingFrames.hexdQuery : EncodingFrames.Statement .hexdQuery :=
  EncodingFrames.of_count (by simp [Instr.data])

theorem EncodingFrames.bfpDescribe : EncodingFrames.Statement .bfpDescribe :=
  EncodingFrames.of_count (by simp [Instr.data])

theorem EncodingFrames.bfpReset : EncodingFrames.Statement .bfpReset :=
  EncodingFrames.of_count (by simp [Instr.data])

theorem EncodingFrames.bfpConfig (params : List Word) : EncodingFrames.Statement (.bfpConfig params) :=
  EncodingFrames.of_count (by simp [Instr.WellFormed, Instr.data, configCountOk])

theorem EncodingFrames.bfpFeed (values : List Word) : EncodingFrames.Statement (.bfpFeed values) :=
  EncodingFrames.of_count (by simp [Instr.WellFormed, Instr.data, feedCountOk])

theorem EncodingFrames.bfpFin : EncodingFrames.Statement .bfpFin :=
  EncodingFrames.of_count (by simp [Instr.data])

theorem EncodingFrames.bfpQuery : EncodingFrames.Statement .bfpQuery :=
  EncodingFrames.of_count (by simp [Instr.data])

theorem EncodingFrames.bfuDescribe : EncodingFrames.Statement .bfuDescribe :=
  EncodingFrames.of_count (by simp [Instr.data])

theorem EncodingFrames.bfuReset : EncodingFrames.Statement .bfuReset :=
  EncodingFrames.of_count (by simp [Instr.data])

theorem EncodingFrames.bfuConfig (params : List Word) : EncodingFrames.Statement (.bfuConfig params) :=
  EncodingFrames.of_count (by simp [Instr.WellFormed, Instr.data, configCountOk])

theorem EncodingFrames.bfuFeed (bytes : List Byte) : EncodingFrames.Statement (.bfuFeed bytes) :=
  EncodingFrames.of_count (by simp [Instr.WellFormed, Instr.data, feedCountOk])

theorem EncodingFrames.bfuFin : EncodingFrames.Statement .bfuFin :=
  EncodingFrames.of_count (by simp [Instr.data])

theorem EncodingFrames.bfuQuery : EncodingFrames.Statement .bfuQuery :=
  EncodingFrames.of_count (by simp [Instr.data])

theorem EncodingFrames.crcDescribe : EncodingFrames.Statement .crcDescribe :=
  EncodingFrames.of_count (by simp [Instr.data])

theorem EncodingFrames.crcReset : EncodingFrames.Statement .crcReset :=
  EncodingFrames.of_count (by simp [Instr.data])

theorem EncodingFrames.crcConfig (params : List Word) : EncodingFrames.Statement (.crcConfig params) :=
  EncodingFrames.of_count (by simp [Instr.WellFormed, Instr.data, configCountOk])

theorem EncodingFrames.crcFeed (bytes : List Byte) : EncodingFrames.Statement (.crcFeed bytes) :=
  EncodingFrames.of_count (by simp [Instr.WellFormed, Instr.data, feedCountOk])

theorem EncodingFrames.crcFin : EncodingFrames.Statement .crcFin :=
  EncodingFrames.of_count (by simp [Instr.data])

theorem EncodingFrames.crcQuery : EncodingFrames.Statement .crcQuery :=
  EncodingFrames.of_count (by simp [Instr.data])

theorem EncodingFrames.crcOneshot (bytes : List Byte) : EncodingFrames.Statement (.crcOneshot bytes) :=
  EncodingFrames.of_count (by simp [Instr.WellFormed, Instr.data])

theorem EncodingFrames.cksDescribe : EncodingFrames.Statement .cksDescribe :=
  EncodingFrames.of_count (by simp [Instr.data])

theorem EncodingFrames.cksReset : EncodingFrames.Statement .cksReset :=
  EncodingFrames.of_count (by simp [Instr.data])

theorem EncodingFrames.cksConfig : EncodingFrames.Statement .cksConfig :=
  EncodingFrames.of_count (by simp [Instr.data])

theorem EncodingFrames.cksFeed (bytes : List Byte) : EncodingFrames.Statement (.cksFeed bytes) :=
  EncodingFrames.of_count (by simp [Instr.WellFormed, Instr.data, feedCountOk])

theorem EncodingFrames.cksFin : EncodingFrames.Statement .cksFin :=
  EncodingFrames.of_count (by simp [Instr.data])

theorem EncodingFrames.cksQuery : EncodingFrames.Statement .cksQuery :=
  EncodingFrames.of_count (by simp [Instr.data])

end Sys2Proof.Laws
end

