-- ==== Sys2Proof/Tests/Slice0.lean ====
section
/-! SUPPORT. Own tests: the refusals of WellFormed, the decoding of written-out words, one step per command with the expected results of
spec/95_test_vectors.md (the row is named in each docstring), and a witness for the hypotheses of every statement. -/

namespace Sys2Proof.Tests

open Sys2Proof Sys2Proof.Machine

/-! ## Helpers -/

/-- The parameters of the spec's test vectors (R5, R6). -/
def vectorParams : Params := { hexWinMax := 16, fieldListMax := 8 }

/-- Power-on of the spec's test vectors. -/
def start : State := State.resetWith vectorParams

/-- The state after a command; the state itself where the command answers no next state. -/
def after (i : Instr) (s : State) : State :=
  match exec i s with
  | .next t => t
  | .fault _ => s
  | .refused _ => s

/-- The state after a step; the state itself where it answers no next state. -/
def stepped (s : State) : State :=
  match step s with
  | .next t => t
  | .fault _ => s
  | .refused _ => s

/-- What a command delivers from a state that has delivered nothing. -/
def seen (i : Instr) (s : State) : List Output := (after i s).trace

/-- Power-on with words at the command port. -/
def withPort (ws : List Word) : State := start.hostWrite ws

/-- The characters of a string. -/
def chars (s : String) : List Byte := s.toList.map fun c => BitVec.ofNat 8 c.toNat

/-- `State.Wf` as one Bool, a unit at a time. -/
def wfAll (s : State) : Bool :=
  decide s.params.Wf && decide s.b64e.Wf && decide s.b64d.Wf && decide (s.hexe.Wf s.params) && decide (s.hexd.Wf s.params) &&
    decide (s.bfp.PackWf s.params) && decide (s.bfu.UnpackWf s.params) && decide (∀ o ∈ s.trace, o.wf = true)

theorem wf_of_wfAll {s : State} (h : wfAll s = true) : s.Wf := by
  simp only [wfAll, Bool.and_eq_true, decide_eq_true_eq] at h
  obtain ⟨⟨⟨⟨⟨⟨⟨h1, h2⟩, h3⟩, h4⟩, h5⟩, h6⟩, h7⟩, h8⟩ := h
  exact ⟨h1, h2, h3, h4, h5, h6, h7, h8⟩

/-! ## WellFormed refuses -/

theorem test_wf_feed_needs_an_element :
    Instr.WellFormed vectorParams (.b64eFeed []) = false ∧ Instr.WellFormed vectorParams (.b64dFeed []) = false ∧
    Instr.WellFormed vectorParams (.hexeFeed []) = false ∧ Instr.WellFormed vectorParams (.hexdFeed []) = false ∧
    Instr.WellFormed vectorParams (.bfpFeed []) = false ∧ Instr.WellFormed vectorParams (.bfuFeed []) = false ∧
    Instr.WellFormed vectorParams (.crcFeed []) = false ∧ Instr.WellFormed vectorParams (.cksFeed []) = false := by decide

theorem test_wf_feed_count_fits :
    Instr.WellFormed vectorParams (.b64eFeed (List.replicate 65536 0)) = false ∧
    Instr.WellFormed vectorParams (.b64dFeed (List.replicate 65536 0)) = false ∧
    Instr.WellFormed vectorParams (.hexeFeed (List.replicate 65536 0)) = false ∧
    Instr.WellFormed vectorParams (.hexdFeed (List.replicate 65536 0)) = false ∧
    Instr.WellFormed vectorParams (.bfpFeed (List.replicate 65536 0)) = false ∧
    Instr.WellFormed vectorParams (.bfuFeed (List.replicate 65536 0)) = false ∧
    Instr.WellFormed vectorParams (.crcFeed (List.replicate 65536 0)) = false ∧
    Instr.WellFormed vectorParams (.cksFeed (List.replicate 65536 0)) = false := by
  simp only [Instr.WellFormed, feedCountOk, maxCount, List.length_replicate]; decide

theorem test_wf_oneshot_count_fits :
    Instr.WellFormed vectorParams (.b64eOneshot (List.replicate 65536 0)) = false ∧
    Instr.WellFormed vectorParams (.crcOneshot (List.replicate 65536 0)) = false := by
  simp only [Instr.WellFormed, maxCount, List.length_replicate]; decide

theorem test_wf_config_count_fits :
    Instr.WellFormed vectorParams (.hexeConfig [1, 2]) = false ∧ Instr.WellFormed vectorParams (.hexdConfig [1, 2]) = false ∧
    Instr.WellFormed vectorParams (.crcConfig [1, 2, 3, 4, 5, 6]) = false ∧
    Instr.WellFormed vectorParams (.bfpConfig (List.replicate 13 8)) = false ∧
    Instr.WellFormed vectorParams (.bfuConfig (List.replicate 13 8)) = false := by decide

/-- With a FIELD_LIST_MAX so large that MAXP exceeds the count field, the count field bounds CONFIG (R63). -/
theorem test_wf_config_count_fits_the_count_field :
    Instr.WellFormed { hexWinMax := 1, fieldListMax := 100000 } (.bfpConfig (List.replicate 65536 8)) = false := by
  simp only [Instr.WellFormed, configCountOk, maxParams, maxCount, List.length_replicate]; decide

/-! ## Every constructor's decoding, from words written out from section 4 of 30_encoding.md -/

theorem test_decode_b64e :
    decode vectorParams [0x00000000] = .instr .b64eDescribe [] ∧ decode vectorParams [0x01000000] = .instr .b64eReset [] ∧
    decode vectorParams [0x02000000] = .instr .b64eConfig [] ∧
    decode vectorParams [0x03000002, 0x0000004D, 0x000000FF] = .instr (.b64eFeed [0x4D, 0xFF]) [] ∧
    decode vectorParams [0x03000000] = .instr .b64eFin [] ∧
    decode vectorParams [0x05000001, 0x00000080] = .instr (.b64eOneshot [0x80]) [] ∧
    decode vectorParams [0x05000000] = .instr (.b64eOneshot []) [] := by decide

theorem test_decode_b64d :
    decode vectorParams [0x10000000] = .instr .b64dDescribe [] ∧ decode vectorParams [0x11000000] = .instr .b64dReset [] ∧
    decode vectorParams [0x12000000] = .instr .b64dConfig [] ∧
    decode vectorParams [0x13000002, 0x00000054, 0x00000057] = .instr (.b64dFeed [0x54, 0x57]) [] ∧
    decode vectorParams [0x13000000] = .instr .b64dFin [] := by decide

theorem test_decode_hexe :
    decode vectorParams [0x20000000] = .instr .hexeDescribe [] ∧ decode vectorParams [0x21000000] = .instr .hexeReset [] ∧
    decode vectorParams [0x22000001, 0x80000001] = .instr (.hexeConfig [0x80000001]) [] ∧
    decode vectorParams [0x22000000] = .instr (.hexeConfig []) [] ∧
    decode vectorParams [0x23000001, 0x000000AB] = .instr (.hexeFeed [0xAB]) [] ∧
    decode vectorParams [0x23000000] = .instr .hexeFin [] ∧ decode vectorParams [0x24000000] = .instr .hexeQuery [] := by decide

theorem test_decode_hexd :
    decode vectorParams [0x30000000] = .instr .hexdDescribe [] ∧ decode vectorParams [0x31000000] = .instr .hexdReset [] ∧
    decode vectorParams [0x32000001, 0x00000002] = .instr (.hexdConfig [2]) [] ∧
    decode vectorParams [0x33000002, 0x00000030, 0x00000066] = .instr (.hexdFeed [0x30, 0x66]) [] ∧
    decode vectorParams [0x33000000] = .instr .hexdFin [] ∧ decode vectorParams [0x34000000] = .instr .hexdQuery [] := by decide

theorem test_decode_bfp :
    decode vectorParams [0x40000000] = .instr .bfpDescribe [] ∧ decode vectorParams [0x41000000] = .instr .bfpReset [] ∧
    decode vectorParams [0x42000003, 0x0000000C, 0, 1] = .instr (.bfpConfig [12, 0, 1]) [] ∧
    decode vectorParams [0x43000001, 0xDEADBEEF] = .instr (.bfpFeed [0xDEADBEEF]) [] ∧
    decode vectorParams [0x43000000] = .instr .bfpFin [] ∧ decode vectorParams [0x44000000] = .instr .bfpQuery [] := by decide

theorem test_decode_bfu :
    decode vectorParams [0x50000000] = .instr .bfuDescribe [] ∧ decode vectorParams [0x51000000] = .instr .bfuReset [] ∧
    decode vectorParams [0x52000001, 0x0000000C] = .instr (.bfuConfig [12]) [] ∧
    decode vectorParams [0x53000002, 0x000000AB, 0x000000CD] = .instr (.bfuFeed [0xAB, 0xCD]) [] ∧
    decode vectorParams [0x53000000] = .instr .bfuFin [] ∧ decode vectorParams [0x54000000] = .instr .bfuQuery [] := by decide

theorem test_decode_crc :
    decode vectorParams [0x60000000] = .instr .crcDescribe [] ∧ decode vectorParams [0x61000000] = .instr .crcReset [] ∧
    decode vectorParams [0x62000002, 0x00008005, 0x00001234] = .instr (.crcConfig [0x8005, 0x1234]) [] ∧
    decode vectorParams [0x63000001, 0x00000031] = .instr (.crcFeed [0x31]) [] ∧
    decode vectorParams [0x63000000] = .instr .crcFin [] ∧ decode vectorParams [0x64000000] = .instr .crcQuery [] ∧
    decode vectorParams [0x65000001, 0x00000041] = .instr (.crcOneshot [0x41]) [] := by decide

theorem test_decode_cks :
    decode vectorParams [0x70000000] = .instr .cksDescribe [] ∧ decode vectorParams [0x71000000] = .instr .cksReset [] ∧
    decode vectorParams [0x72000000] = .instr .cksConfig [] ∧
    decode vectorParams [0x73000002, 0x00000001, 0x000000FF] = .instr (.cksFeed [1, 0xFF]) [] ∧
    decode vectorParams [0x73000000] = .instr .cksFin [] ∧ decode vectorParams [0x74000000] = .instr .cksQuery [] := by decide

/-- Rows VE-1, VE-3, VE-6, VE-8, VE-7, VE-10, VE-13, VE-14 and VE-15. -/
theorem test_decode_rejects :
    decode vectorParams [0x80000000] = .rejected .illegalUnit [] ∧ decode vectorParams [0x04000000] = .rejected .illegalOp [] ∧
    decode vectorParams [0x75000000] = .rejected .illegalOp [] ∧ decode vectorParams [0x04010000] = .rejected .illegalOp [] ∧
    decode vectorParams [0x00010000] = .rejected .reservedBits [] ∧
    decode vectorParams [0x01000001, 0x00000100] = .rejected .badCount [] ∧
    decode vectorParams [0x22000002, 1, 2] = .rejected .badCount [] ∧
    decode vectorParams [0x62000006, 1, 2, 3, 4, 5, 6] = .rejected .badCount [] ∧
    decode vectorParams [0x03000001, 0x00000100] = .rejected .dataRange [] := by decide

/-- The opcode table's numbering: bits 31..0 are CMD, bits 63..32 the first DATA word. -/
theorem test_decodeTableWord :
    decodeTableWord 32 0x03000000 = some .b64eFin ∧ decodeTableWord 64 0x0000004D03000001 = some (.b64eFeed [0x4D]) ∧
    decodeTableWord 32 0x03000002 = some (.b64eFeed [0, 0]) ∧ decodeTableWord 32 0x80000000 = none := by decide

theorem test_withFetchWord :
    stepped (State.reset.withFetchWord 64 0x0000000573000001) = after (.cksFeed [5]) State.reset := by decide +kernel

/-! ## One step per command -/

/-- The texts are opaque, so these hold by unfolding (rows VB64E-1, VB64D-1, VHEXE-1, VHEXD-1). -/
theorem test_describe_codecs (s : State) :
    (after .b64eDescribe s).trace = s.trace ++ [.response ⟨.ok, .bytes (Config.describeText .b64e)⟩] ∧
    (after .b64dDescribe s).trace = s.trace ++ [.response ⟨.ok, .bytes (Config.describeText .b64d)⟩] ∧
    (after .hexeDescribe s).trace = s.trace ++ [.response ⟨.ok, .bytes (Config.describeText .hexe)⟩] ∧
    (after .hexdDescribe s).trace = s.trace ++ [.response ⟨.ok, .bytes (Config.describeText .hexd)⟩] := ⟨rfl, rfl, rfl, rfl⟩

/-- Rows VBFP-1, VBFU-1, VCRC-1, VCKS-1. -/
theorem test_describe_fields_and_checksums (s : State) :
    (after .bfpDescribe s).trace = s.trace ++ [.response ⟨.ok, .bytes (Config.describeText .bfp)⟩] ∧
    (after .bfuDescribe s).trace = s.trace ++ [.response ⟨.ok, .bytes (Config.describeText .bfu)⟩] ∧
    (after .crcDescribe s).trace = s.trace ++ [.response ⟨.ok, .bytes (Config.describeText .crc)⟩] ∧
    (after .cksDescribe s).trace = s.trace ++ [.response ⟨.ok, .bytes (Config.describeText .cks)⟩] := ⟨rfl, rfl, rfl, rfl⟩

/-- After "Ma" the encoder is at PHASE 2 with PEND 0x04 (row VB64E-7). -/
def encoderAfterMa : State := start.setB64e { phase := .two, pend := 0x04 }

/-- Rows VB64E-26 and VB64E-29. -/
theorem test_b64e_config_reset :
    (after .b64eConfig encoderAfterMa).b64e = ⟨.zero, 0⟩ ∧ (after .b64eReset encoderAfterMa).b64e = ⟨.zero, 0⟩ ∧
    seen .b64eConfig encoderAfterMa = [.response ⟨.ok, .none⟩] := by decide +kernel

/-- Rows VB64E-2 and VB64E-7. -/
theorem test_b64eFeed :
    seen (.b64eFeed (chars "Man")) start =
      [.event .b64e (.bytes (chars "T")), .event .b64e (.bytes (chars "W")), .event .b64e (.bytes (chars "Fu")),
        .response ⟨.ok, .bytes (chars "TWFu")⟩] ∧
    (after (.b64eFeed (chars "Ma")) start).b64e = ⟨.two, 0x04⟩ := by decide +kernel

/-- Row VB64E-8. -/
theorem test_b64eFin :
    seen .b64eFin encoderAfterMa = [.event .b64e (.bytes (chars "E=")), .response ⟨.ok, .bytes (chars "E=")⟩] ∧
    (after .b64eFin encoderAfterMa).b64e = ⟨.zero, 0⟩ := by decide +kernel

/-- Rows VB64O-5 and VB64E-23: the unit's own registers stay. -/
theorem test_b64eOneshot :
    seen (.b64eOneshot (chars "foob")) encoderAfterMa = [.response ⟨.ok, .bytes (chars "Zm9vYg==")⟩] ∧
    (after (.b64eOneshot (chars "foob")) encoderAfterMa).b64e = ⟨.two, 0x04⟩ := by decide +kernel

/-- Row VB64D-13: a rejected character restarts the group. -/
theorem test_b64dFeed :
    seen (.b64dFeed (chars "TW!Fu")) start =
      [.event .b64d (.bytes [0x4D]), .event .b64d (.bytes [0x16]), .response ⟨.okInputRejected, .bytes [0x4D, 0x16]⟩] ∧
    (after (.b64dFeed (chars "TW!Fu")) start).b64d = ⟨.two, 0x0E⟩ := by decide +kernel

/-- Row VB64D-8: a group goes on across feeds. -/
theorem test_b64dFeed_from_phase_three :
    seen (.b64dFeed (chars "TWFu")) (start.setB64d ⟨.three, 0⟩) =
      [.event .b64d (.bytes [0x13]), .event .b64d (.bytes [0x58]), .event .b64d (.bytes [0x5B]),
        .response ⟨.ok, .bytes [0x13, 0x58, 0x5B]⟩] := by decide +kernel

/-- Rows VB64D-11, VB64D-23 and VB64D-26. -/
theorem test_b64d_fin_config_reset :
    seen .b64dFin (start.setB64d ⟨.two, 6⟩) = [.response ⟨.ok, .bytes []⟩] ∧
    (after .b64dFin (start.setB64d ⟨.two, 6⟩)).b64d = ⟨.zero, 0⟩ ∧
    seen .b64dConfig (start.setB64d ⟨.two, 6⟩) = [.response ⟨.ok, .none⟩] ∧
    (after .b64dConfig (start.setB64d ⟨.two, 6⟩)).b64d = ⟨.zero, 0⟩ ∧
    (after .b64dReset (start.setB64d ⟨.three, 1⟩)).b64d = ⟨.zero, 0⟩ := by decide +kernel

/-- The hex encoder with a window of two bytes, "56" buffered (after row VHEXE-6). -/
def hexeWindow : State :=
  start.setHexe { size := 2, idx := 2, buf := chars "5634" ++ List.replicate 28 0 }

/-- Row VHEXE-6, and row VHEXE-2 in continuous mode. -/
theorem test_hexeFeed :
    seen (.hexeFeed [0x12, 0x34, 0x56]) (after (.hexeConfig [2]) start) =
      [.response ⟨.ok, .none⟩, .event .hexe (.bytes (chars "1234")), .response ⟨.ok, .bytes (chars "123456")⟩] ∧
    (after (.hexeFeed [0x12, 0x34, 0x56]) (after (.hexeConfig [2]) start)).hexe = hexeWindow.hexe ∧
    seen (.hexeFeed [0x01, 0xAB]) start =
      [.event .hexe (.bytes (chars "01")), .event .hexe (.bytes (chars "AB")), .response ⟨.ok, .bytes (chars "01AB")⟩] := by
  decide +kernel

/-- Rows VHEXE-7 and VHEXE-13. -/
theorem test_hexe_query_fin :
    seen .hexeQuery hexeWindow = [.response ⟨.ok, .bytes (chars "56")⟩] ∧ (after .hexeQuery hexeWindow).hexe.idx = 0 ∧
    seen .hexeFin hexeWindow = [.response ⟨.ok, .bytes []⟩] ∧ (after .hexeFin hexeWindow).hexe.idx = 0 ∧
    (after .hexeFin hexeWindow).hexe.size = 2 := by decide +kernel

/-- Rows VHEXE-15, VHEXE-17, VHEXE-19 and VHEXE-24. -/
theorem test_hexe_config_reset :
    seen (.hexeConfig [17]) hexeWindow = [.response ⟨.cfgNoSpace, .none⟩] ∧
    (after (.hexeConfig [17]) hexeWindow).hexe = hexeWindow.hexe ∧
    (after (.hexeConfig [16]) hexeWindow).hexe = { hexeWindow.hexe with size := 16, idx := 0 } ∧
    (after (.hexeConfig []) hexeWindow).hexe.size = 0 ∧ (after .hexeReset hexeWindow).hexe = HexEnc.initial vectorParams := by
  decide +kernel

/-- The hex decoder with a window of two bytes, 0x9A buffered and the nibble 0xB pending (after rows VHEXD-17 and the "B" of VHEXD-18). -/
def hexdWindow : State :=
  start.setHexd { size := 2, idx := 1, buf := 0x9A :: List.replicate 15 0, nph := true, nhi := 0xB }

/-- Row VHEXD-18, and row VHEXD-2 in continuous mode. -/
theorem test_hexdFeed :
    seen (.hexdFeed (chars "C")) hexdWindow = [.event .hexd (.bytes [0x9A, 0xBC]), .response ⟨.ok, .bytes [0xBC]⟩] ∧
    (after (.hexdFeed (chars "C")) hexdWindow).hexd.idx = 0 ∧
    seen (.hexdFeed (chars "01aBzF")) start =
      [.event .hexd (.bytes [0x01]), .event .hexd (.bytes [0xAB]), .response ⟨.okInputRejected, .bytes [0x01, 0xAB]⟩] ∧
    (after (.hexdFeed (chars "01aBzF")) start).hexd.nhi = 0xF := by decide +kernel

/-- Rows VHEXD-14 and VHEXD-6: QUERY keeps the pending nibble, FINALIZE drops it. -/
theorem test_hexd_query_fin :
    seen .hexdQuery hexdWindow = [.response ⟨.ok, .bytes [0x9A]⟩] ∧ (after .hexdQuery hexdWindow).hexd.nph = true ∧
    (after .hexdQuery hexdWindow).hexd.idx = 0 ∧ seen .hexdFin hexdWindow = [.response ⟨.ok, .bytes []⟩] ∧
    (after .hexdFin hexdWindow).hexd = { hexdWindow.hexd with idx := 0, nph := false, nhi := 0 } := by decide +kernel

/-- Rows VHEXD-19, VHEXD-21 and VHEXD-23. -/
theorem test_hexd_config_reset :
    seen (.hexdConfig [17]) hexdWindow = [.response ⟨.cfgNoSpace, .none⟩] ∧
    (after (.hexdConfig [17]) hexdWindow).hexd = hexdWindow.hexd ∧
    (after (.hexdConfig [1]) hexdWindow).hexd = { hexdWindow.hexd with size := 1, idx := 0, nph := false, nhi := 0 } ∧
    (after .hexdReset hexdWindow).hexd = HexDec.initial vectorParams := by decide +kernel

/-- The packer after rows VBFP-4 and VBFP-5: width 12, four bits pending. -/
def packerTwelve : State := start.setBfp { BitField.initial with widths := [12], acc := 3, nb := 4, cyc := 3, last := 0x12 }

/-- Row VBFP-5. -/
theorem test_bfpFeed :
    seen (.bfpFeed [0xABC, 0xDEF, 0x123]) (start.setBfp { BitField.initial with widths := [12], last := 0xFF }) =
      [.event .bfp (.bytes [0xAB]), .event .bfp (.bytes [0xCD]), .event .bfp (.bytes [0xEF]), .event .bfp (.bytes [0x12]),
        .response ⟨.ok, .none⟩] ∧
    (after (.bfpFeed [0xABC, 0xDEF, 0x123]) (start.setBfp { BitField.initial with widths := [12], last := 0xFF })).bfp =
      packerTwelve.bfp := by decide +kernel

/-- Row VBFPC-2: two cycles of three fields, then an ignored element. -/
theorem test_bfpFeed_completes :
    seen (.bfpFeed [1, 2, 0x34, 5, 6, 0x78, 9]) (start.setBfp { BitField.initial with widths := [4, 4, 8], reps := 2, ws := 16 }) =
      [.event .bfp (.bytes [0x12, 0x34]), .event .bfp (.bytes [0x56, 0x78]), .response ⟨.okStreamComplete, .none⟩] := by
  decide +kernel

/-- Rows VBFP-7 and VBFP-6. -/
theorem test_bfp_fin_query :
    seen .bfpFin packerTwelve = [.response ⟨.ok, .none⟩] ∧
    (after .bfpFin packerTwelve).bfp = { BitField.initial with widths := [12], last := 0x12 } ∧
    seen .bfpQuery packerTwelve = [.response ⟨.ok, .value 0x12⟩] := by decide +kernel

/-- Rows VBFPC-1, VBFPC-9, VBFPC-14 and VBFP-21. -/
theorem test_bfp_config_reset :
    (after (.bfpConfig [4, 0, 2, 16, 1, 4, 8]) packerTwelve).bfp =
      { BitField.initial with widths := [4, 4, 8], reps := 2, ws := 16, last := 0x12 } ∧
    seen (.bfpConfig [33]) packerTwelve = [.response ⟨.cfgInvalid, .none⟩] ∧
    seen (.bfpConfig [8, 0, 0, 0, 7]) packerTwelve = [.response ⟨.okCfgDefaulted, .none⟩] ∧
    (after .bfpReset packerTwelve).bfp = BitField.initial := by decide +kernel

/-- The unpacker after rows VBFU-4 and VBFU-5: width 12, four bits pending. -/
def unpackerTwelve : State := start.setBfu { BitField.initial with widths := [12], acc := 0xD, nb := 4, cyc := 1, last := 0xABC }

/-- Row VBFU-6. -/
theorem test_bfuFeed :
    seen (.bfuFeed [0xEF, 0x12]) unpackerTwelve = [.event .bfu (.value 0xDEF), .response ⟨.ok, .none⟩] ∧
    (after (.bfuFeed [0xEF, 0x12]) unpackerTwelve).bfu.nb = 8 ∧
    (after (.bfuFeed [0xEF, 0x12]) unpackerTwelve).bfu.acc.toNat % 256 = 0x12 := by decide +kernel

/-- Row VBFUC-2. -/
theorem test_bfuFeed_completes :
    seen (.bfuFeed [0x12, 0x34, 0x56, 0x78, 0x9A]) (start.setBfu { BitField.initial with widths := [4, 4, 8], reps := 2 }) =
      [.event .bfu (.value 1), .event .bfu (.value 2), .event .bfu (.value 0x34), .event .bfu (.value 5), .event .bfu (.value 6),
        .event .bfu (.value 0x78), .response ⟨.okStreamComplete, .none⟩] := by decide +kernel

/-- Rows VBFU-8 and VBFU-7. -/
theorem test_bfu_fin_query :
    seen .bfuFin unpackerTwelve = [.response ⟨.ok, .none⟩] ∧ (after .bfuFin unpackerTwelve).bfu.nb = 0 ∧
    (after .bfuFin unpackerTwelve).bfu.last = 0xABC ∧ (after .bfuFin unpackerTwelve).bfu.widths = [12] ∧
    seen .bfuQuery unpackerTwelve = [.response ⟨.ok, .value 0xABC⟩] := by decide +kernel

/-- Rows VBFU-15, VBFUC-8, VBFUC-9 and VBFU-17. -/
theorem test_bfu_config_reset :
    (after (.bfuConfig [5, 0, 0, 8, 1, 3]) unpackerTwelve).bfu = { BitField.initial with widths := [5, 3], last := 0xABC } ∧
    seen (.bfuConfig [0]) unpackerTwelve = [.response ⟨.cfgInvalid, .none⟩] ∧
    seen (.bfuConfig [8, 0, 0, 12]) unpackerTwelve = [.response ⟨.okCfgDefaulted, .none⟩] ∧
    (after .bfuReset unpackerTwelve).bfu = BitField.initial := by decide +kernel

/-- Row VCRC-8, and row VCRCC-5 under another configuration. -/
theorem test_crcFeed :
    (after (.crcFeed (chars "123456789")) start).crc.reg = 0xBCDD ∧
    (after (.crcFeed (chars "123456789")) (start.setCrc ⟨0x1021, 0xFFFF, false, false, 0, 0xFFFF⟩)).crc.reg = 0x29B1 ∧
    seen (.crcFeed (chars "1")) start = [.response ⟨.ok, .none⟩] := by decide +kernel

/-- Rows VCRC-11 and VCRC-9, and row VCRCC-12 with an XOR-out. -/
theorem test_crc_fin_query :
    seen .crcFin (start.setCrc { Crc.initial with reg := 0xBCDD }) =
      [.event .crc (.bytes [0xBB, 0x3D]), .response ⟨.ok, .value 0xBB3D⟩] ∧
    (after .crcFin (start.setCrc ⟨0x1021, 0xFFFF, true, true, 0xFFFF, 0x89F6⟩)).crc.reg = 0xFFFF ∧
    seen .crcQuery (start.setCrc ⟨0x1021, 0xFFFF, true, true, 0xFFFF, 0x89F6⟩) = [.response ⟨.ok, .value 0x906E⟩] := by
  decide +kernel

/-- Rows VCRCF-3, VCRC-17 and VCRC-20. -/
theorem test_crc_config_reset :
    (after (.crcConfig [0x1021, 0x10000, 1, 5, 0x1FFFF]) start).crc = ⟨0x1021, 0, true, true, 0, 0⟩ ∧
    seen (.crcConfig [0x1021, 0x10000, 1, 5, 0x1FFFF]) start = [.response ⟨.okCfgDefaulted, .none⟩] ∧
    (after (.crcConfig [0x8005, 0x1234]) start).crc = ⟨0x8005, 0x1234, true, true, 0, 0x1234⟩ ∧
    (after .crcReset (start.setCrc ⟨0x1021, 0xFFFF, false, false, 0xFFFF, 1⟩)).crc = Crc.initial := by decide +kernel

/-- Rows VCRC-15 and VCRC-6. -/
theorem test_crcOneshot :
    seen (.crcOneshot (chars "A")) (start.setCrc ⟨0x1021, 0xFFFF, false, false, 0xFFFF, 1⟩) = [.response ⟨.ok, .value 0x30C0⟩] ∧
    seen (.crcOneshot [0x01]) start = [.response ⟨.ok, .value 0xC0C1⟩] := by decide +kernel

/-- Rows VCKS-7 and VCKS-14. -/
theorem test_cksFeed :
    (after (.cksFeed [0xFF, 0x01]) start).cks.acc = 0 ∧ (after (.cksFeed (chars "123456789")) start).cks.acc = 0xDD ∧
    seen (.cksFeed [1]) start = [.response ⟨.ok, .none⟩] := by decide +kernel

/-- Rows VCKS-5, VCKS-6, VCKS-4 and VCKS-2. -/
theorem test_cks_fin_query :
    seen .cksFin (start.setCks ⟨6⟩) = [.event .cks (.bytes [0xFA]), .response ⟨.ok, .value 0xFA⟩] ∧
    seen .cksFin start = [.event .cks (.bytes [0x00]), .response ⟨.ok, .value 0⟩] ∧
    seen .cksQuery (start.setCks ⟨6⟩) = [.response ⟨.ok, .value 6⟩] ∧
    seen .cksQuery start = [.event .cks .empty, .response ⟨.ok, .value 0⟩] := by decide +kernel

/-- Rows VCKS-19 and VCKS-21. -/
theorem test_cks_config_reset :
    (after .cksConfig (start.setCks ⟨5⟩)).cks = ⟨0⟩ ∧ (after .cksReset (start.setCks ⟨7⟩)).cks = ⟨0⟩ := by decide +kernel

/-! ## The hypotheses of the statements are met -/

/-- DecodeOfEncodeIsTheCommand, at the ends of the count ranges. -/
theorem witness_wellFormed :
    Instr.WellFormed vectorParams (.b64eFeed [0]) = true ∧ Instr.WellFormed vectorParams (.b64eFeed (List.replicate 65535 0)) = true ∧
    Instr.WellFormed vectorParams (.b64eOneshot []) = true ∧ Instr.WellFormed vectorParams (.hexeConfig [16]) = true ∧
    Instr.WellFormed vectorParams (.bfpConfig (List.replicate 12 8)) = true := by
  simp only [Instr.WellFormed, feedCountOk, configCountOk, maxParams, maxCount, vectorParams, List.length_replicate]; decide

/-- DecodedWordsAreTheEncoding and StepRunsTheDecodedCommand, with words left over. -/
theorem witness_decoded :
    decode start.params [0x73000001, 0x00000005, 0x74000000] = .instr (.cksFeed [5]) [0x74000000] ∧
    decode (withPort [0x73000001, 0x00000005, 0x74000000]).params (withPort [0x73000001, 0x00000005, 0x74000000]).port =
      .instr (.cksFeed [5]) [0x74000000] := by decide +kernel

/-- CommandRunsOnlyWhenWhole: an empty port; a command one word short; a command of no data; a command with its data and a word after it. -/
theorem witness_port :
    (withPort []).port = [] ∧
    ((withPort [0x73000002, 5]).port = 0x73000002 :: [5] ∧ [5].length < (0x73000002 : Word).toNat % 65536) ∧
    ((withPort [0x74000000]).port = 0x74000000 :: ([] ++ []) ∧ ([] : List Word).length = (0x74000000 : Word).toNat % 65536) ∧
    ((withPort [0x73000001, 5, 9]).port = 0x73000001 :: ([5] ++ [9]) ∧ [5].length = (0x73000001 : Word).toNat % 65536) := by
  decide +kernel

/-- ChecksAreMadeInTheOrderOfTheSpec and the other statements of a whole command: a whole command for each check, at the first value that
fails it and with later checks failing too. -/
theorem witness_checks :
    (stepped (withPort [0x86FF0000])).responses = [⟨.illegalUnit, .none⟩] ∧
    (stepped (withPort [0x76010000])).responses = [⟨.illegalOp, .none⟩] ∧
    (stepped (withPort [0x14010000])).responses = [⟨.illegalOp, .none⟩] ∧
    (stepped (withPort [0x25010000])).responses = [⟨.illegalOp, .none⟩] ∧
    (stepped (withPort [0x24010001, 0])).responses = [⟨.reservedBits, .none⟩] ∧
    (stepped (withPort [0x00000001, 0])).responses = [⟨.badCount, .none⟩] ∧
    (stepped (withPort [0x32000002, 0, 0])).responses = [⟨.badCount, .none⟩] ∧
    (stepped (withPort [0x03000001, 0x100])).responses = [⟨.dataRange, .none⟩] ∧
    (stepped (withPort [0x43000001, 0x100])).responses = [⟨.ok, .none⟩] ∧
    (stepped (withPort [0x43000000])).responses = [⟨.ok, .none⟩] ∧
    (stepped (withPort [0x73000001, 0xFF, 9])).port = [9] := by decide +kernel

/-- ErrorStatusMeansNoOtherEffect, both clauses. -/
theorem witness_error :
    (exec (.hexeConfig [17]) start = .next (after (.hexeConfig [17]) start) ∧
      (after (.hexeConfig [17]) start).trace.getLast? = some (.response ⟨.cfgNoSpace, .none⟩) ∧ Status.isError .cfgNoSpace = true) ∧
    (step (withPort [0x80000000]) = .next (stepped (withPort [0x80000000])) ∧
      (stepped (withPort [0x80000000])).trace.getLast? = some (.response ⟨.illegalUnit, .none⟩) ∧
      Status.isError .illegalUnit = true) := ⟨⟨rfl, by decide +kernel, rfl⟩, rfl, by decide +kernel, rfl⟩

/-- CommandChangesOnlyItsUnit, CommandReadsOnlyItsUnit (two states that differ in another unit) and CommandsToDifferentUnitsCommute. -/
theorem witness_units :
    UnitId.crc ≠ (Instr.cksQuery).unit ∧
    (SameUnit (Instr.cksQuery).unit start encoderAfterMa ∧ start.params = encoderAfterMa.params ∧ start ≠ encoderAfterMa) ∧
    (Instr.b64eFin).unit ≠ (Instr.cksQuery).unit := ⟨by decide, ⟨rfl, rfl, by decide +kernel⟩, by decide⟩

/-- StepKeepsTheBoundaryConditions and the other statements about a command boundary: power-on, states in the middle of a stream, and the
smallest parameters. -/
theorem witness_wf :
    start.Wf ∧ packerTwelve.Wf ∧ unpackerTwelve.Wf ∧ hexdWindow.Wf ∧ encoderAfterMa.Wf ∧
    (State.resetWith { hexWinMax := 1, fieldListMax := 1 }).Wf ∧
    step packerTwelve = .next (stepped packerTwelve) := 
  ⟨wf_of_wfAll (by decide +kernel), wf_of_wfAll (by decide +kernel), wf_of_wfAll (by decide +kernel),
    wf_of_wfAll (by decide +kernel), wf_of_wfAll (by decide +kernel), wf_of_wfAll (by decide +kernel), rfl⟩

/-- PowerOnMeetsTheBoundaryConditions and PowerOnHoldsTheResetState, at the smallest parameters. -/
theorem witness_params : (Params.mk 1 1).Wf ∧ vectorParams.Wf := by decide

/-- EncoderFeedOfOneByte, EncoderFinalizePads and OneshotIsFeedThenFinalize: a state in each phase. -/
theorem witness_encoder_phases :
    start.b64e.phase = .zero ∧ (start.setB64e ⟨.one, 0x30⟩).b64e.phase = .one ∧ encoderAfterMa.b64e.phase = .two ∧
    chars "M" ≠ [] := by decide +kernel

/-- DecoderFeedOfOneCharacter: a character with no value, one with a value, and each phase with the largest pending bits. -/
theorem witness_decoder_phases :
    b64Value 0x3D = none ∧ b64Value 0x2F = some 63 ∧ start.b64d.phase = .zero ∧ (start.setB64d ⟨.one, 63⟩).b64d.phase = .one ∧
    ((start.setB64d ⟨.two, 15⟩).b64d.phase = .two ∧ (start.setB64d ⟨.two, 15⟩).b64d.pend.toNat < 16) ∧
    ((start.setB64d ⟨.three, 3⟩).b64d.phase = .three ∧ (start.setB64d ⟨.three, 3⟩).b64d.pend.toNat < 4) := by decide +kernel

/-- Base64RoundTrip. -/
theorem witness_base64RoundTrip :
    chars "M" ≠ [] ∧ exec (.b64eOneshot (chars "M")) start = .next (after (.b64eOneshot (chars "M")) start) ∧
    (after (.b64eOneshot (chars "M")) start).trace.getLast? = some (.response ⟨.ok, .bytes (chars "TQ==")⟩) ∧
    start.b64d.phase = .zero := ⟨by decide +kernel, rfl, by decide +kernel, by decide +kernel⟩

/-- HexConfigSetsTheWindow: the largest window allowed and the first one refused. -/
theorem witness_hexConfig :
    start.params.hexWinMax < ([17] : List Word).head!.toNat ∧ ¬ start.params.hexWinMax < ([16] : List Word).head!.toNat := by
  decide +kernel

/-- HexEncoderFeedOfOneByte: continuous, a window that does not fill, and one that fills. -/
theorem witness_hexEncoder :
    start.hexe.size = 0 ∧
    (0 < (after (.hexeConfig [2]) start).hexe.size ∧ (after (.hexeConfig [2]) start).hexe.idx + 2 ≠ 2 * (after (.hexeConfig [2]) start).hexe.size) ∧
    (0 < (after (.hexeConfig [1]) start).hexe.size ∧ (after (.hexeConfig [1]) start).hexe.idx + 2 = 2 * (after (.hexeConfig [1]) start).hexe.size) ∧
    (wfAll hexeWindow = true ∧ 0 < hexeWindow.hexe.size ∧ hexeWindow.hexe.idx + 2 = 2 * hexeWindow.hexe.size) := by decide +kernel

/-- HexDecoderFeedOfOneCharacter: no hex character; no pending nibble; a pending nibble in continuous mode, in a window that does not fill, and
in one that fills. -/
theorem witness_hexDecoder :
    hexValue 0x47 = none ∧ hexValue 0x66 = some 15 ∧ start.hexd.nph = false ∧
    ((after (.hexdFeed (chars "f")) start).hexd.nph = true ∧ (after (.hexdFeed (chars "f")) start).hexd.size = 0) ∧
    ((start.setHexd { hexdWindow.hexd with idx := 0 }).hexd.nph = true ∧ 0 < (start.setHexd { hexdWindow.hexd with idx := 0 }).hexd.size ∧
      (start.setHexd { hexdWindow.hexd with idx := 0 }).hexd.idx + 1 ≠ (start.setHexd { hexdWindow.hexd with idx := 0 }).hexd.size) ∧
    (hexdWindow.hexd.nph = true ∧ 0 < hexdWindow.hexd.size ∧ hexdWindow.hexd.idx + 1 = hexdWindow.hexd.size) := by decide +kernel

/-- HexRoundTrip, with a lower-case text. -/
theorem witness_hexRoundTrip :
    ([0xAB] : List Byte) ≠ [] ∧ exec (.hexeFeed [0xAB]) start = .next (after (.hexeFeed [0xAB]) start) ∧
    (after (.hexeFeed [0xAB]) start).trace.getLast? = some (.response ⟨.ok, .bytes (chars "AB")⟩) ∧
    (chars "aB").map upperCase = chars "AB" ∧ start.hexd.nph = false := by
  exact ⟨by decide, rfl, by decide +kernel, by decide +kernel, by decide +kernel⟩

/-- BitFieldConfigSetsOrRefuses: the widths at the ends of the range and just outside it, and a later width outside it. -/
theorem witness_bitFieldConfig :
    (¬ ∃ w ∈ [1, 32], w < 1 ∨ 32 < w) ∧ (∃ w ∈ [0], w < 1 ∨ 32 < w) ∧ (∃ w ∈ [8, 33], w < 1 ∨ 32 < w) ∧
    ([8, 0, 0, 8, 1, 33] : List Word).drop 5 = [33] := by decide

/-- BitFieldFeedIsRefusedWhenUnsupported: END = 0, OFS = 1, for both units, and a command of each unit that is no FEED. -/
theorem witness_unsupported :
    ¬ (start.setBfp { BitField.initial with bigEnd := false }).bfp.Supported ∧ ¬ (start.setBfp { BitField.initial with ofs := 1 }).bfp.Supported ∧
    ¬ (start.setBfu { BitField.initial with bigEnd := false }).bfu.Supported ∧ ¬ (start.setBfu { BitField.initial with ofs := 1 }).bfu.Supported ∧
    ([1] : List Word) ≠ [] ∧ ([1] : List Byte) ≠ [] ∧ (Instr.bfpFin).unit = .bfp ∧ (Instr.bfuConfig [33]).unit = .bfu ∧
    (∀ vs, Instr.bfuConfig [33] ≠ .bfpFeed vs) ∧ (∀ bs, Instr.bfuConfig [33] ≠ .bfuFeed bs) :=
  ⟨by decide +kernel, by decide +kernel, by decide +kernel, by decide +kernel, by decide, by decide, rfl, rfl,
    fun _ => by simp, fun _ => by simp⟩

/-- The packer and the unpacker after their last cycle. -/
def completedStreams : State :=
  (start.setBfp { BitField.initial with reps := 1, cyc := 1, done := true }).setBfu { BitField.initial with reps := 1, cyc := 1, done := true }

/-- CompletedStreamIgnoresElements, in a state of a command boundary. -/
theorem witness_completed :
    completedStreams.bfp.Supported ∧ completedStreams.bfp.done = true ∧ completedStreams.bfu.Supported ∧ completedStreams.bfu.done = true ∧
    completedStreams.Wf := ⟨by decide +kernel, by decide +kernel, by decide +kernel, by decide +kernel, wf_of_wfAll (by decide +kernel)⟩

/-- PackerEmitsTheWholeWords and UnpackerCutsTheBitStream: bits pending, and a cycle that is the last. -/
theorem witness_bitFieldFeed :
    (wfAll packerTwelve = true ∧ packerTwelve.bfp.Supported ∧ packerTwelve.bfp.done = false) ∧
    (wfAll unpackerTwelve = true ∧ unpackerTwelve.bfu.Supported ∧ unpackerTwelve.bfu.done = false) ∧
    (wfAll (start.setBfp { BitField.initial with reps := 1 }) = true ∧ (after (.bfpFeed [5]) (start.setBfp { BitField.initial with reps := 1 })).bfp.done = true) ∧
    (wfAll (start.setBfu { BitField.initial with reps := 1 }) = true ∧ (after (.bfuFeed [5]) (start.setBfu { BitField.initial with reps := 1 })).bfu.done = true) := by
  decide +kernel

/-- UnpackerCutsTheBitStream with the last cycle in the middle of a byte (L = [1], REPS = 1): one field, not eight. -/
theorem test_bfuFeed_stops_at_the_last_cycle :
    seen (.bfuFeed [0xFF]) (start.setBfu { BitField.initial with widths := [1], reps := 1 }) =
      [.event .bfu (.value 1), .response ⟨.ok, .none⟩] ∧
    (after (.bfuFeed [0xFF]) (start.setBfu { BitField.initial with widths := [1], reps := 1 })).bfu.cyc = 1 ∧
    (after (.bfuFeed [0xFF]) (start.setBfu { BitField.initial with widths := [1], reps := 1 })).bfu.done = true := by decide +kernel

/-- UnpackerDeadBitsAreNeverRead: an accumulator that differs above NB. -/
theorem witness_deadBits :
    wfAll unpackerTwelve = true ∧ (0xFFD : BitVec 64) ≠ unpackerTwelve.bfu.acc ∧
    (0xFFD : BitVec 64).toNat % 2 ^ unpackerTwelve.bfu.nb = unpackerTwelve.bfu.acc.toNat % 2 ^ unpackerTwelve.bfu.nb := by
  decide +kernel

/-- BitFieldFeedSplitsAnywhere and BitFieldRoundTrip: supported configurations, the narrowest and the widest field. -/
theorem witness_bitFieldStreams :
    start.bfp.Supported ∧ start.bfu.Supported ∧ (1 ≤ 1 ∧ 1 ≤ 32 ∧ 8 ∣ [1, 0, 1, 0, 1, 0, 1, 0].length * 1) ∧
    (1 ≤ 32 ∧ 32 ≤ 32 ∧ 24 ∣ [1, 2, 3].length * 32) := by decide +kernel

/-- BitFieldRoundTripWithAnyFieldList: a list with the narrowest and the widest field, whose bits are whole words. -/
theorem witness_fieldList :
    (∀ w ∈ 1 :: [32, 7], 1 ≤ w ∧ w ≤ 32) ∧ 8 ∣ ((List.range 3).map fun j : Nat => (1 :: [32, 7]).getD (j % 3) 0).sum := by decide

/-- ReflectionsReverseTheBits, at both ends (R13: rev8(0x01) = 0x80). -/
theorem witness_reflections : (0 < 8 ∧ 7 < 8 ∧ 15 < 16) ∧ rev8 0x01 = 0x80 ∧ rev16 0x1234 = 0x2C48 := by decide

/-- ChecksumInvariant and SideEffectsOfQueryDescribeOneshot. -/
theorem witness_checksum :
    start.cks.acc = 0 ∧ (Instr.crcDescribe).op = .describe ∧ (Instr.crcOneshot []).op = .oneshot := by decide +kernel

/-- CrcOneshotIsResetFeedFinalize and AssembledStringFeedDecodes: one character. -/
theorem witness_one_character :
    chars "A" ≠ [] ∧ 1 ≤ (chars "A").length ∧ (chars "A").length ≤ 65535 ∧
    (UnitId.cks, Instr.cksFeed).1 = .cks := by decide +kernel

/-- PseudoInstructionsExpand: the assembled `restart` of HEXD stands at the port. -/
theorem witness_restart :
    (withPort [0x33000000]).port = [cmdNumber (UnitId.number .hexd).toNat 3 0] ∧
    assemble { unit := .hexd, op := .fin, operands := [] } = some [0x33000000] ∧
    assemble { unit := .hexd, op := .fin, operands := [.number 1] } = none := by decide +kernel

end Sys2Proof.Tests
end

/-! PROOFS. What a command or a whole command at the port can answer (00_scope.md R16, R19, R38), and the reflections (R13). -/

namespace Sys2Proof.Machine

/-! ## Which part of the state a command writes -/

/-- From `s` to `t` the registers of the units other than `u`, the parameters, the port and everything delivered are kept (R19). -/
structure WritesOnly (u : UnitId) (s t : State) : Prop where
  others : ∀ v, v ≠ u → SameUnit v t s
  params : t.params = s.params
  port : t.port = s.port
  trace : t.trace = s.trace

namespace WritesOnly

theorem refl (u : UnitId) (s : State) : WritesOnly u s s :=
  ⟨fun v _ => by cases v <;> rfl, rfl, rfl, rfl⟩

theorem setB64e (s : State) (x : B64Enc) : WritesOnly .b64e s (s.setB64e x) :=
  ⟨fun v hv => by cases v <;> simp_all [SameUnit], rfl, rfl, rfl⟩

theorem setB64d (s : State) (x : B64Dec) : WritesOnly .b64d s (s.setB64d x) :=
  ⟨fun v hv => by cases v <;> simp_all [SameUnit], rfl, rfl, rfl⟩

theorem setHexe (s : State) (x : HexEnc) : WritesOnly .hexe s (s.setHexe x) :=
  ⟨fun v hv => by cases v <;> simp_all [SameUnit], rfl, rfl, rfl⟩

theorem setHexd (s : State) (x : HexDec) : WritesOnly .hexd s (s.setHexd x) :=
  ⟨fun v hv => by cases v <;> simp_all [SameUnit], rfl, rfl, rfl⟩

theorem setBfp (s : State) (x : BitField) : WritesOnly .bfp s (s.setBfp x) :=
  ⟨fun v hv => by cases v <;> simp_all [SameUnit], rfl, rfl, rfl⟩

theorem setBfu (s : State) (x : BitField) : WritesOnly .bfu s (s.setBfu x) :=
  ⟨fun v hv => by cases v <;> simp_all [SameUnit], rfl, rfl, rfl⟩

theorem setCrc (s : State) (x : Crc) : WritesOnly .crc s (s.setCrc x) :=
  ⟨fun v hv => by cases v <;> simp_all [SameUnit], rfl, rfl, rfl⟩

theorem setCks (s : State) (x : Cks) : WritesOnly .cks s (s.setCks x) :=
  ⟨fun v hv => by cases v <;> simp_all [SameUnit], rfl, rfl, rfl⟩

end WritesOnly

/-! ## The two ways a command ends -/

/-- A command of unit `u` on `s` completes with a status that is no error, having written only the registers of `u`, or it raises an error
status on `s` itself (R16). -/
inductive CommandAnswer (u : UnitId) (s : State) : StepResult → Prop
  | completes {events : List Event} {status : Status} {ret : Ret} {t : State} (hstatus : status.isError = false)
      (hwrites : WritesOnly u s t) : CommandAnswer u s (complete u events status ret t)
  | raises {e : Status} (herror : e.isError = true) : CommandAnswer u s (raise e s)

theorem inputStatus_isError (rejected : Bool) : (inputStatus rejected).isError = false := by
  cases rejected <;> rfl

theorem configStatus_isError (defaulted : Bool) : (configStatus defaulted).isError = false := by
  cases defaulted <;> rfl

theorem streamStatus_isError (ignored : Bool) : (streamStatus ignored).isError = false := by
  cases ignored <;> rfl

namespace CommandAnswer

theorem describe (u : UnitId) (s : State) : CommandAnswer u s (Machine.describe u s) :=
  completes rfl (.refl u s)

/-- A command that either refuses or completes, as its guard says. -/
theorem of_ite {u : UnitId} {s : State} {p : Prop} [Decidable p] {a b : StepResult} (ha : CommandAnswer u s a)
    (hb : CommandAnswer u s b) : CommandAnswer u s (if p then a else b) := by
  split
  · exact ha
  · exact hb

/-- Only an illegal field width makes a bit-field CONFIG refuse (R110). -/
theorem bfpConfig (params : List Word) (s : State) : CommandAnswer .bfp s (execBfpConfig params s) := by
  unfold execBfpConfig
  split
  · exact raises rfl
  · exact completes (configStatus_isError _) (.setBfp s _)

theorem bfuConfig (params : List Word) (s : State) : CommandAnswer .bfu s (execBfuConfig params s) := by
  unfold execBfuConfig
  split
  · exact raises rfl
  · exact completes (configStatus_isError _) (.setBfu s _)

end CommandAnswer

open CommandAnswer in
/-- What `exec` can answer, for every command: only the CONFIGs with a refusal and the bit-field FEEDs can raise. -/
theorem exec_answer (s : State) : ∀ i : Instr, CommandAnswer i.unit s (exec i s)
  | .b64eDescribe | .b64dDescribe | .hexeDescribe | .hexdDescribe
  | .bfpDescribe | .bfuDescribe | .crcDescribe | .cksDescribe => CommandAnswer.describe _ s
  | .b64eReset | .b64eConfig | .b64eFeed _ | .b64eFin => completes rfl (.setB64e s _)
  | .b64dReset | .b64dConfig | .b64dFin => completes rfl (.setB64d s _)
  | .b64dFeed _ => completes (inputStatus_isError _) (.setB64d s _)
  | .hexeReset | .hexeFeed _ | .hexeFin | .hexeQuery => completes rfl (.setHexe s _)
  | .hexeConfig _ => .of_ite (raises rfl) (completes rfl (.setHexe s _))
  | .hexdReset | .hexdFin | .hexdQuery => completes rfl (.setHexd s _)
  | .hexdConfig _ => .of_ite (raises rfl) (completes rfl (.setHexd s _))
  | .hexdFeed _ => completes (inputStatus_isError _) (.setHexd s _)
  | .bfpReset | .bfpFin => completes rfl (.setBfp s _)
  | .bfpConfig ps => CommandAnswer.bfpConfig ps s
  | .bfpFeed _ => .of_ite (raises rfl) (completes (streamStatus_isError _) (.setBfp s _))
  | .bfuReset | .bfuFin => completes rfl (.setBfu s _)
  | .bfuConfig ps => CommandAnswer.bfuConfig ps s
  | .bfuFeed _ => .of_ite (raises rfl) (completes (streamStatus_isError _) (.setBfu s _))
  | .crcReset | .crcFeed _ | .crcFin => completes rfl (.setCrc s _)
  | .crcConfig _ => completes (configStatus_isError _) (.setCrc s _)
  | .cksReset | .cksConfig | .cksFeed _ | .cksFin => completes rfl (.setCks s _)
  | .b64eOneshot _ | .bfpQuery | .bfuQuery | .crcQuery | .crcOneshot _ | .cksQuery => completes rfl (.refl _ s)

/-- A whole command at the port is consumed, and then refused with the status of its failed check or executed (R65, R72). -/
theorem step_wholeCommand {s : State} {cmd : Word} {data rest : List Word} (hport : s.port = cmd :: (data ++ rest))
    (hlen : data.length = cmd.toNat % 65536) :
    (∃ why, decodeCommand s.params cmd data = .error why ∧ step s = raise (rejectStatus why) (s.setPort rest)) ∨
    ∃ i, decodeCommand s.params cmd data = .ok i ∧ step s = exec i (s.setPort rest) := by
  have hdecode := decode_command s.params cmd data rest (hlen.trans (countField_eq cmd).symm)
  cases hd : decodeCommand s.params cmd data with
  | error why => exact .inl ⟨why, rfl, by simp only [step, hport, hdecode, hd]⟩
  | ok i => exact .inr ⟨i, rfl, by simp only [step, hport, hdecode, hd]⟩

/-! ## An error status means no other effect (R16) -/

/-- `raise` appends its one response, with RET NONE, and the last output is that response. -/
theorem raise_lastResponse {e : Status} {s t : State} {r : Response} (h : raise e s = .next t)
    (hlast : t.trace.getLast? = some (.response r)) :
    r.ret = .none ∧ t = { s with trace := s.trace ++ [.response r] } := by
  obtain rfl := raise_eq_next_iff.mp h
  have hr : (⟨e, .none⟩ : Response) = r := by simpa using hlast
  subst hr
  exact ⟨rfl, rfl⟩

/-- A completed command's last output carries the status it completed with. -/
theorem complete_lastStatus {u : UnitId} {events : List Event} {status : Status} {ret : Ret} {s t : State} {r : Response}
    (h : complete u events status ret s = .next t) (hlast : t.trace.getLast? = some (.response r)) : r.status = status := by
  obtain rfl := complete_eq_next_iff.mp h
  rw [getLast?_append_outputs, Option.some.injEq, Output.response.injEq] at hlast
  exact hlast ▸ rfl

/-- A command whose response has an error status did not complete, so it raised. -/
theorem exec_errorStatus {i : Instr} {s t : State} {r : Response} (h : exec i s = .next t)
    (hlast : t.trace.getLast? = some (.response r)) (herror : r.status.isError = true) :
    r.ret = .none ∧ t = { s with trace := s.trace ++ [.response r] } := by
  have hanswer : CommandAnswer i.unit s (.next t) := h ▸ exec_answer s i
  generalize hres : (Host.Outcome.next t : StepResult) = res at hanswer
  cases hanswer with
  | completes hstatus =>
    rw [complete_lastStatus hres.symm hlast, hstatus] at herror
    contradiction
  | raises => exact raise_lastResponse hres.symm hlast

/-- Settles O10: by `exec_answer` only `raise` gives an error status, and a rejected command is a `raise` too. -/
theorem errorStatusMeansNoOtherEffect : Obligations.ErrorStatusMeansNoOtherEffect := by
  refine ⟨fun i s t r => exec_errorStatus, fun s t cmd data rest r hport hlen hstep hlast herror => ?_⟩
  obtain ⟨why, -, hraise⟩ | ⟨i, -, hexec⟩ := step_wholeCommand hport hlen
  · exact raise_lastResponse (hraise ▸ hstep) hlast
  · exact exec_errorStatus (hexec ▸ hstep) hlast herror

/-! ## The reflections -/

/-- The low byte, reversed, becomes the high byte of rev16, and the high byte, reversed, the low one (R13). -/
theorem rev16_getLsbD (x : Half) (i : Nat) (hi : i < 16) : (rev16 x).getLsbD (15 - i) = x.getLsbD i := by
  rw [rev16, BitVec.getLsbD_append]
  by_cases hlow : i < 8
  · have hhigh : ¬ 15 - i < 8 := by omega
    have hindex : 15 - i - 8 = 7 - i := by omega
    simp [hhigh, hindex, rev8_getLsbD _ i hlow, hlow]
  · have hsmall : 15 - i < 8 := by omega
    have hindex : 15 - i = 7 - (i - 8) := by omega
    have hback : 8 + (i - 8) = i := by omega
    rw [if_pos hsmall, hindex, rev8_getLsbD _ (i - 8) (by omega), BitVec.getLsbD_extractLsb', hback]
    simp only [decide_eq_true_eq.mpr (show i - 8 < 8 by omega), Bool.true_and]

/-- Settles O45, from the two bit equations. -/
theorem reflectionsReverseTheBits : Obligations.ReflectionsReverseTheBits :=
  ⟨rev8_getLsbD, rev16_getLsbD⟩

end Sys2Proof.Machine

/-! PROOFS. What every command boundary keeps (10_state.md R25 to R32, R37), when a command is executed (R38, R39), and the two alphabets (R20, R21). -/

namespace Sys2Proof.Machine

/-! ## Waiting for a command, and what a whole command answers (R38, R39) -/

theorem step_of_incomplete {s : State} (h : fetch s.port = .incomplete) : step s = .next s := by
  simp only [step, decode, h, waitForCommand]

/-- A command's outputs hold one response, its own (R38). -/
theorem length_responses_append_outputs (s : State) (u : UnitId) (events : List Event) (status : Status) (ret : Ret) :
    ({ s with trace := s.trace ++ outputs u events status ret } : State).responses.length = s.responses.length + 1 := by
  simp [State.responses, outputs, List.filterMap_append, List.filterMap_map]

/-- However a command ends, it answers a next state, leaves the port alone and delivers one response more. -/
theorem CommandAnswer.respondsOnce {u : UnitId} {s : State} {r : StepResult} (h : CommandAnswer u s r) :
    ∃ t, r = .next t ∧ t.port = s.port ∧ t.responses.length = s.responses.length + 1 := by
  cases h with
  | @completes events status ret w _ hwrites =>
    have hresponses : w.responses = s.responses := by simp only [State.responses, hwrites.trace]
    exact ⟨_, rfl, hwrites.port, hresponses ▸ length_responses_append_outputs w u events status ret⟩
  | @raises e _ => exact ⟨_, rfl, rfl, length_responses_append_outputs s u [] e .none⟩

/-- A rejected command is answered as any refused one (R72). -/
theorem rejectStatus_isError (why : Reject) : (rejectStatus why).isError = true := by
  cases why <;> rfl

/-- Settles O5: without a whole command `fetch` is incomplete; with one, the step is a `raise` or an `exec` on the words after it. -/
theorem commandRunsOnlyWhenWhole : Obligations.CommandRunsOnlyWhenWhole := by
  refine ⟨fun s hport => ?_, fun s cmd ws hport hshort => ?_, fun s cmd data rest hport hlen => ?_⟩
  · exact step_of_incomplete (by rw [hport]; rfl)
  · exact step_of_incomplete (by rw [hport]; exact fetch_incomplete cmd ws (by rwa [countField_eq]))
  · obtain ⟨why, -, hstep⟩ | ⟨i, -, hstep⟩ := step_wholeCommand hport hlen
    · rw [hstep]
      exact (CommandAnswer.raises (u := .b64e) (rejectStatus_isError why)).respondsOnce
    · rw [hstep]
      exact (exec_answer (s.setPort rest) i).respondsOnce

/-! ## The alphabets (R20, R21) -/

theorem b64Alphabet_getElem? : ∀ v : BitVec 6, b64Alphabet[v.toNat]? = some (b64Char v) := by
  decide +kernel

/-- A character with a decode value is the alphabet's character at it: with `b64Value_b64Char`, exactly the 64 have one. -/
theorem b64Char_of_b64Value : ∀ (c : Byte) (v : BitVec 6), b64Value c = some v → b64Char v = c := by
  decide +kernel

/-- Settles O19: decoding and the alphabet are inverse to each other, in both directions. -/
theorem base64AlphabetAndItsDecodeValues : Obligations.Base64AlphabetAndItsDecodeValues := by
  refine ⟨by decide +kernel, b64Alphabet_getElem?, fun c v => ?_, rfl⟩
  rw [b64Alphabet_getElem?, Option.some.injEq]
  constructor
  · exact b64Char_of_b64Value c v
  · rintro rfl
    exact b64Value_b64Char v

theorem hexAlphabet_getElem? : ∀ v : BitVec 4, hexAlphabet[v.toNat]? = some (hexChar v) := by
  decide +kernel

theorem hexValue_hexChar : ∀ v : BitVec 4, hexValue (hexChar v) = some v := by
  decide +kernel

/-- The letters decode in lower case too. -/
theorem hexValue_lowerCase : ∀ v : BitVec 4, 10 ≤ v.toNat → hexValue (hexChar v + 0x20) = some v := by
  decide +kernel

/-- A character with a hex decode value is the digit of that value, or its letter in lower case. -/
theorem hexChar_of_hexValue : ∀ (c : Byte) (v : BitVec 4), hexValue c = some v →
    hexChar v = c ∨ (10 ≤ v.toNat ∧ hexChar v = c - 0x20) := by
  decide +kernel

/-- Settles O28: `hexChar_of_hexValue` in one direction, and a digit or a lower-case letter decodes in the other. -/
theorem hexAlphabetAndItsDecodeValues : Obligations.HexAlphabetAndItsDecodeValues := by
  refine ⟨by decide +kernel, hexAlphabet_getElem?, fun c v => ?_⟩
  rw [hexAlphabet_getElem?, Option.some.injEq, Option.some.injEq]
  constructor
  · exact hexChar_of_hexValue c v
  · rintro (rfl | ⟨hletter, hc⟩)
    · exact hexValue_hexChar v
    · rw [← BitVec.sub_add_cancel c 0x20, ← hc]
      exact hexValue_lowerCase v hletter

/-! ## Outputs of a command boundary (R37, R148) -/

theorem event_wf_of_bytes (u : UnitId) {e : Event} (h : ∃ w, e = .bytes w ∧ w ≠ []) : (Output.event u e).wf = true := by
  obtain ⟨w, rfl, hne⟩ := h
  simpa [Output.wf] using hne

theorem event_wf_of_value (u : UnitId) {e : Event} (h : ∃ v, e = .value v) : (Output.event u e).wf = true := by
  obtain ⟨v, rfl⟩ := h
  rfl

/-- If each element's step keeps the registers legal and emits legal events, so does the FEED. -/
theorem feedWith_legal {σ α : Type} {step : σ → α → Fed σ} {inv : σ → Prop} (u : UnitId)
    (h : ∀ x e, inv x → inv (step x e).regs ∧ ∀ ev ∈ (step x e).events, (Output.event u ev).wf = true)
    {x : σ} (hx : inv x) (es : List α) :
    inv (feedWith step x es).regs ∧ ∀ ev ∈ (feedWith step x es).events, (Output.event u ev).wf = true :=
  have hkeeps := fun x e hx => (h x e hx).1
  ⟨feedWith_keeps step hkeeps x es hx, feedWith_events step hkeeps (fun x e hx => (h x e hx).2) x es hx⟩

/-! ## The registers that the commands other than FEED write -/

theorem HexEnc.wf_initial (p : Params) : (HexEnc.initial p).Wf p := by
  simp [HexEnc.Wf, HexEnc.initial]

theorem HexDec.wf_initial (p : Params) : (HexDec.initial p).Wf p := by
  simp [HexDec.Wf, HexDec.initial]

/-- A legal window size with an empty window (R96, R98, R99). -/
theorem HexEnc.Wf.emptyWindow {p : Params} {x : HexEnc} (hx : x.Wf p) {size : Nat} (hmax : size ≤ p.hexWinMax)
    (hword : size < 2 ^ 32) : ({ x with size := size, idx := 0 } : HexEnc).Wf p := by
  obtain ⟨hbuf, -⟩ := hx
  exact ⟨hbuf, hmax, hword, rfl, fun _ => rfl, fun h => Nat.mul_pos Nat.two_pos h⟩

/-- A legal window size with an empty window, whatever legal nibble is pending (R104, R106, R107). -/
theorem HexDec.Wf.emptyWindow {p : Params} {x : HexDec} (hx : x.Wf p) {size : Nat} {nph : Bool} {nhi : BitVec 4}
    (hmax : size ≤ p.hexWinMax) (hword : size < 2 ^ 32) (hnibble : nph = false → nhi = 0) :
    ({ x with size := size, idx := 0, nph := nph, nhi := nhi } : HexDec).Wf p := by
  obtain ⟨hbuf, -⟩ := hx
  exact ⟨hbuf, hmax, hword, fun _ => rfl, id, hnibble⟩

/-- A restarted stream that holds no bits, in a legal configuration (R118, R125): ACC matters to the packer alone. -/
theorem BitField.Wf.restart {p : Params} {x : BitField} (hx : x.Wf p) (acc : BitVec 64) :
    ({ x with acc := acc, nb := 0, fidx := 0, cyc := 0, done := false } : BitField).Wf p := by
  obtain ⟨hlen, hwidths, hws, hfidx, -, -⟩ := hx
  refine ⟨hlen, hwidths, hws, Nat.zero_lt_of_lt hfidx, fun hreps _ => ?_, nofun⟩
  exact Nat.pos_of_ne_zero fun h => hreps (BitVec.eq_of_toNat_eq h)

theorem BitField.PackWf.restart {p : Params} {x : BitField} (hx : x.PackWf p) :
    ({ x with acc := 0, nb := 0, fidx := 0, cyc := 0, done := false } : BitField).PackWf p := by
  obtain ⟨hwf, hnb, -⟩ := hx
  exact ⟨hwf.restart 0, Nat.zero_lt_of_lt hnb, Nat.one_pos⟩

theorem BitField.UnpackWf.restart {p : Params} {x : BitField} (hx : x.UnpackWf p) :
    ({ x with nb := 0, fidx := 0, cyc := 0, done := false } : BitField).UnpackWf p := by
  obtain ⟨hwf, -⟩ := hx
  have hrestart := hwf.restart x.acc
  have ⟨_, hwidths, _, hfidx, _⟩ := hrestart
  exact ⟨hrestart, (hwidths _ (getD_mem_widths hfidx)).1⟩

/-- A CONFIG with a legal count has at most MAXP(u) parameters (R69). -/
theorem length_le_of_configCountOk {p : Params} {u : UnitId} {ps : List Word} (h : configCountOk p u ps = true) :
    ps.length ≤ maxParams p u := by
  simp only [configCountOk, Bool.and_eq_true, decide_eq_true_eq] at h
  obtain ⟨hmost, -⟩ := h
  exact hmost

/-- The reset registers are those of a CONFIG without parameters (R115, R122). -/
theorem BitField.wf_initial {p : Params} (hp : p.Wf) : BitField.initial.PackWf p ∧ BitField.initial.UnpackWf p := by
  obtain ⟨-, hlist⟩ := hp
  exact bitFieldConfig_keeps (x := .initial) (ps := []) (r := (.initial, false)) (Nat.zero_le _) hlist rfl

/-! ## The conditions of a state, unit by unit, and writing one unit's registers -/

namespace State.Wf

variable {s : State}

theorem params (hs : s.Wf) : s.params.Wf := by
  obtain ⟨h, -⟩ := hs
  exact h

theorem b64e (hs : s.Wf) : s.b64e.Wf := by
  obtain ⟨-, h, -⟩ := hs
  exact h

theorem b64d (hs : s.Wf) : s.b64d.Wf := by
  obtain ⟨-, -, h, -⟩ := hs
  exact h

theorem hexe (hs : s.Wf) : s.hexe.Wf s.params := by
  obtain ⟨-, -, -, h, -⟩ := hs
  exact h

theorem hexd (hs : s.Wf) : s.hexd.Wf s.params := by
  obtain ⟨-, -, -, -, h, -⟩ := hs
  exact h

theorem bfp (hs : s.Wf) : s.bfp.PackWf s.params := by
  obtain ⟨-, -, -, -, -, h, -⟩ := hs
  exact h

theorem bfu (hs : s.Wf) : s.bfu.UnpackWf s.params := by
  obtain ⟨-, -, -, -, -, -, h, -⟩ := hs
  exact h

theorem setB64e (hs : s.Wf) {x : B64Enc} (hx : x.Wf) : (s.setB64e x).Wf := by
  obtain ⟨hp, -, hrest⟩ := hs
  exact ⟨hp, hx, hrest⟩

theorem setB64d (hs : s.Wf) {x : B64Dec} (hx : x.Wf) : (s.setB64d x).Wf := by
  obtain ⟨hp, hb64e, -, hrest⟩ := hs
  exact ⟨hp, hb64e, hx, hrest⟩

theorem setHexe (hs : s.Wf) {x : HexEnc} (hx : x.Wf s.params) : (s.setHexe x).Wf := by
  obtain ⟨hp, hb64e, hb64d, -, hrest⟩ := hs
  exact ⟨hp, hb64e, hb64d, hx, hrest⟩

theorem setHexd (hs : s.Wf) {x : HexDec} (hx : x.Wf s.params) : (s.setHexd x).Wf := by
  obtain ⟨hp, hb64e, hb64d, hhexe, -, hrest⟩ := hs
  exact ⟨hp, hb64e, hb64d, hhexe, hx, hrest⟩

theorem setBfp (hs : s.Wf) {x : BitField} (hx : x.PackWf s.params) : (s.setBfp x).Wf := by
  obtain ⟨hp, hb64e, hb64d, hhexe, hhexd, -, hrest⟩ := hs
  exact ⟨hp, hb64e, hb64d, hhexe, hhexd, hx, hrest⟩

theorem setBfu (hs : s.Wf) {x : BitField} (hx : x.UnpackWf s.params) : (s.setBfu x).Wf := by
  obtain ⟨hp, hb64e, hb64d, hhexe, hhexd, hbfp, -, htrace⟩ := hs
  exact ⟨hp, hb64e, hb64d, hhexe, hhexd, hbfp, hx, htrace⟩

/-- No condition is on the registers of CRC and CKS or on the port. -/
theorem setCrc (hs : s.Wf) (x : Crc) : (s.setCrc x).Wf := hs

theorem setCks (hs : s.Wf) (x : Cks) : (s.setCks x).Wf := hs

theorem setPort (hs : s.Wf) (ws : List Word) : (s.setPort ws).Wf := hs

theorem appendTrace (hs : s.Wf) {out : List Output} (hout : ∀ o ∈ out, o.wf = true) :
    ({ s with trace := s.trace ++ out } : State).Wf := by
  obtain ⟨hp, hb64e, hb64d, hhexe, hhexd, hbfp, hbfu, htrace⟩ := hs
  exact ⟨hp, hb64e, hb64d, hhexe, hhexd, hbfp, hbfu, fun o ho => (List.mem_append.mp ho).elim (htrace o) (hout o)⟩

end State.Wf

/-! ## What every command answers -/

/-- The answer is a next state that meets the conditions of a command boundary, in the build with parameters `p`. -/
def AnswersBoundary (p : Params) (r : StepResult) : Prop := ∃ t, r = .next t ∧ t.Wf ∧ t.params = p

namespace AnswersBoundary

variable {s : State}

theorem completes {u : UnitId} {events : List Event} {status : Status} (hs : s.Wf) (hstatus : status.isError = false)
    (hevents : ∀ e ∈ events, (Output.event u e).wf = true) (ret : Ret) :
    AnswersBoundary s.params (complete u events status ret s) := by
  refine ⟨_, rfl, hs.appendTrace ?_, rfl⟩
  intro o ho
  obtain h | h := List.mem_append.mp ho
  · obtain ⟨e, he, rfl⟩ := List.mem_map.mp h
    exact hevents e he
  · obtain rfl := List.mem_singleton.mp h
    simp [Output.wf, hstatus]

/-- A command that completes without an event. -/
theorem silent {u : UnitId} {status : Status} (hs : s.Wf) (hstatus : status.isError = false) (ret : Ret) :
    AnswersBoundary s.params (complete u [] status ret s) :=
  completes hs hstatus (by simp) ret

theorem refuses (hs : s.Wf) (e : Status) : AnswersBoundary s.params (raise e s) := by
  refine ⟨_, rfl, hs.appendTrace ?_, rfl⟩
  simp [Output.wf]

theorem of_ite {p : Params} {c : Prop} [Decidable c] {a b : StepResult} (ha : c → AnswersBoundary p a)
    (hb : ¬ c → AnswersBoundary p b) : AnswersBoundary p (if c then a else b) := by
  split
  · exact ha ‹_›
  · exact hb ‹_›

/-! ### base64 -/

theorem b64eFeed (hs : s.Wf) (bytes : List Byte) : AnswersBoundary s.params (execB64eFeed bytes s) := by
  obtain ⟨hregs, hevents⟩ := feedWith_legal (inv := B64Enc.Wf) .b64e
    (fun x b _ => (b64eElement_keeps x b).imp_right fun h e he => event_wf_of_bytes _ (h e he)) hs.b64e bytes
  exact completes (hs.setB64e hregs) rfl hevents _

/-- The flush is an event only when it has a character (R82). -/
theorem b64eFin (hs : s.Wf) : AnswersBoundary s.params (execB64eFin s) := by
  refine completes (hs.setB64e (by decide)) rfl (fun e he => ?_) _
  split at he
  · simp at he
  · next hne =>
    obtain rfl := List.mem_singleton.mp he
    exact event_wf_of_bytes _ ⟨_, rfl, by simpa using hne⟩

theorem b64dFeed (hs : s.Wf) (chars : List Byte) : AnswersBoundary s.params (execB64dFeed chars s) := by
  obtain ⟨hregs, hevents⟩ := feedWith_legal (inv := B64Dec.Wf) .b64d
    (fun x c _ => (b64dElement_keeps x c).imp_right fun h e he => event_wf_of_bytes _ (h e he)) hs.b64d chars
  exact completes (hs.setB64d hregs) (inputStatus_isError _) hevents _

/-! ### hex -/

theorem hexeConfig (hs : s.Wf) (ps : List Word) : AnswersBoundary s.params (execHexeConfig ps s) := by
  refine of_ite (fun _ => refuses hs _) fun hmax => silent (hs.setHexe ?_) rfl _
  exact hs.hexe.emptyWindow (Nat.le_of_not_lt hmax) (BitVec.isLt _)

theorem hexeFeed (hs : s.Wf) (bytes : List Byte) : AnswersBoundary s.params (execHexeFeed bytes s) := by
  obtain ⟨hregs, hevents⟩ := feedWith_legal (inv := HexEnc.Wf s.params) (step := hexeElement) .hexe (fun x b hx => by
    obtain ⟨hregs, -, -, -, -, hevents⟩ := hexeElement_keeps s.params x b hx
    exact ⟨hregs, fun e he => event_wf_of_bytes _ (hevents e he)⟩) hs.hexe bytes
  exact completes (hs.setHexe hregs) rfl hevents _

/-- FINALIZE and QUERY of the encoder leave the window empty (R98, R99). -/
theorem hexeEmptyWindow (hs : s.Wf) (ret : Ret) :
    AnswersBoundary s.params (complete .hexe [] .ok ret (s.setHexe { s.hexe with idx := 0 })) := by
  have ⟨_, hmax, hword, _⟩ := hs.hexe
  exact silent (hs.setHexe (hs.hexe.emptyWindow hmax hword)) rfl ret

theorem hexdConfig (hs : s.Wf) (ps : List Word) : AnswersBoundary s.params (execHexdConfig ps s) := by
  refine of_ite (fun _ => refuses hs _) fun hmax => silent (hs.setHexd ?_) rfl _
  exact hs.hexd.emptyWindow (Nat.le_of_not_lt hmax) (BitVec.isLt _) fun _ => rfl

theorem hexdFeed (hs : s.Wf) (chars : List Byte) : AnswersBoundary s.params (execHexdFeed chars s) := by
  obtain ⟨hregs, hevents⟩ := feedWith_legal (inv := HexDec.Wf s.params) .hexd
    (fun x c hx => (hexdElement_keeps s.params x c hx).imp_right fun h e he => event_wf_of_bytes _ (h e he)) hs.hexd chars
  exact completes (hs.setHexd hregs) (inputStatus_isError _) hevents _

/-- FINALIZE and QUERY of the decoder leave the window empty; the one drops the pending nibble, the other keeps it (R106, R107). -/
theorem hexdEmptyWindow (hs : s.Wf) {nph : Bool} {nhi : BitVec 4} (hnibble : nph = false → nhi = 0) (ret : Ret) :
    AnswersBoundary s.params
      (complete .hexd [] .ok ret (s.setHexd { s.hexd with idx := 0, nph := nph, nhi := nhi })) := by
  have ⟨_, hmax, hword, _⟩ := hs.hexd
  exact silent (hs.setHexd (hs.hexd.emptyWindow hmax hword hnibble)) rfl ret

theorem hexdQuery (hs : s.Wf) : AnswersBoundary s.params (execHexdQuery s) := by
  have ⟨_, _, _, _, _, hnibble⟩ := hs.hexd
  exact hexdEmptyWindow hs hnibble _

/-! ### Bit fields -/

theorem bfpConfig (hs : s.Wf) {ps : List Word} (hcount : configCountOk s.params .bfp ps = true) :
    AnswersBoundary s.params (execBfpConfig ps s) := by
  have ⟨_, hlist⟩ := hs.params
  unfold execBfpConfig
  split
  · exact refuses hs _
  · next r hconfig =>
    have hregs := bitFieldConfig_keeps (length_le_of_configCountOk hcount) hlist hconfig
    exact silent (hs.setBfp hregs.1) (configStatus_isError _) _

theorem bfpFeed (hs : s.Wf) (values : List Word) : AnswersBoundary s.params (execBfpFeed values s) := by
  obtain ⟨hregs, hevents⟩ := feedWith_legal (inv := BitField.PackWf s.params) .bfp
    (fun x v hx => (bfpElement_keeps s.params x v hx).imp_right fun h e he => event_wf_of_bytes _ (h e he)) hs.bfp values
  exact of_ite (fun _ => refuses hs _) fun _ => completes (hs.setBfp hregs) (streamStatus_isError _) hevents _

theorem bfpFin (hs : s.Wf) : AnswersBoundary s.params (execBfpFin s) :=
  silent (hs.setBfp hs.bfp.restart) rfl _

theorem bfuConfig (hs : s.Wf) {ps : List Word} (hcount : configCountOk s.params .bfu ps = true) :
    AnswersBoundary s.params (execBfuConfig ps s) := by
  have ⟨_, hlist⟩ := hs.params
  unfold execBfuConfig
  split
  · exact refuses hs _
  · next r hconfig =>
    have hregs := bitFieldConfig_keeps (length_le_of_configCountOk hcount) hlist hconfig
    exact silent (hs.setBfu hregs.2) (configStatus_isError _) _

theorem bfuFeed (hs : s.Wf) (bytes : List Byte) : AnswersBoundary s.params (execBfuFeed bytes s) := by
  obtain ⟨hregs, hevents⟩ := feedWith_legal (inv := BitField.UnpackWf s.params) .bfu
    (fun x b hx => (bfuElement_keeps s.params x b hx).imp_right fun h e he => event_wf_of_value _ (h e he)) hs.bfu bytes
  exact of_ite (fun _ => refuses hs _) fun _ => completes (hs.setBfu hregs) (streamStatus_isError _) hevents _

theorem bfuFin (hs : s.Wf) : AnswersBoundary s.params (execBfuFin s) :=
  silent (hs.setBfu hs.bfu.restart) rfl _

/-! ### Checksum -/

/-- The EMPTY event of a zero accumulator carries no bytes (R134). -/
theorem cksQuery (hs : s.Wf) : AnswersBoundary s.params (execCksQuery s) := by
  refine completes hs rfl (fun e he => ?_) _
  split at he
  · obtain rfl := List.mem_singleton.mp he
    rfl
  · simp at he

end AnswersBoundary

open AnswersBoundary in
/-- From a command boundary every well-formed command ends at one. -/
theorem exec_answersBoundary {s : State} (hs : s.Wf) :
    ∀ i : Instr, i.WellFormed s.params = true → AnswersBoundary s.params (exec i s)
  | .b64eDescribe, _ | .b64dDescribe, _ | .hexeDescribe, _ | .hexdDescribe, _
  | .bfpDescribe, _ | .bfuDescribe, _ | .crcDescribe, _ | .cksDescribe, _ => silent hs rfl _
  | .b64eReset, _ | .b64eConfig, _ => silent (hs.setB64e (by decide)) rfl _
  | .b64eFeed bytes, _ => b64eFeed hs bytes
  | .b64eFin, _ => b64eFin hs
  | .b64dReset, _ | .b64dConfig, _ | .b64dFin, _ => silent (hs.setB64d (by decide)) rfl _
  | .b64dFeed chars, _ => b64dFeed hs chars
  | .hexeReset, _ => silent (hs.setHexe (HexEnc.wf_initial s.params)) rfl _
  | .hexeConfig ps, _ => hexeConfig hs ps
  | .hexeFeed bytes, _ => hexeFeed hs bytes
  | .hexeFin, _ | .hexeQuery, _ => hexeEmptyWindow hs _
  | .hexdReset, _ => silent (hs.setHexd (HexDec.wf_initial s.params)) rfl _
  | .hexdConfig ps, _ => hexdConfig hs ps
  | .hexdFeed chars, _ => hexdFeed hs chars
  | .hexdFin, _ => hexdEmptyWindow hs (fun _ => rfl) _
  | .hexdQuery, _ => hexdQuery hs
  | .bfpReset, _ => silent (hs.setBfp (BitField.wf_initial hs.params).1) rfl _
  | .bfpConfig _, hcount => bfpConfig hs hcount
  | .bfpFeed values, _ => bfpFeed hs values
  | .bfpFin, _ => bfpFin hs
  | .bfuReset, _ => silent (hs.setBfu (BitField.wf_initial hs.params).2) rfl _
  | .bfuConfig _, hcount => bfuConfig hs hcount
  | .bfuFeed bytes, _ => bfuFeed hs bytes
  | .bfuFin, _ => bfuFin hs
  | .crcReset, _ | .crcFeed _, _ => silent (hs.setCrc _) rfl _
  | .crcConfig _, _ => silent (hs.setCrc _) (configStatus_isError _) _
  | .crcFin, _ => completes (hs.setCrc _) rfl (by simp [crcBytes, Output.wf]) _
  | .cksReset, _ | .cksConfig, _ | .cksFeed _, _ => silent (hs.setCks _) rfl _
  | .cksFin, _ => completes (hs.setCks _) rfl (by simp [Output.wf]) _
  | .cksQuery, _ => cksQuery hs
  | .b64eOneshot _, _ | .bfpQuery, _ | .bfuQuery, _ | .crcQuery, _ | .crcOneshot _, _ => silent hs rfl _

/-! ## Every step -/

/-- The decoder gives only commands with a legal count (R69, R72). -/
theorem wellFormed_of_decodeCommand {p : Params} {cmd : Word} {data : List Word} {i : Instr}
    (hlen : data.length = countField cmd) (h : decodeCommand p cmd data = .ok i) : i.WellFormed p = true := by
  obtain ⟨u, op, -, -, -, -, hcount, hdata, hbuild⟩ := checks_of_decodeCommand h
  have hmax : countField cmd ≤ 65535 := by
    rw [countField_eq]
    omega
  obtain ⟨-, -, -, hwf⟩ := fields_of_build p hbuild hdata (hlen ▸ hcount) (hlen ▸ hmax)
  exact hwf

/-- From a command boundary every step ends at one: it waits there, or refuses or executes one whole command. -/
theorem step_answersBoundary {s : State} (hs : s.Wf) : AnswersBoundary s.params (step s) := by
  cases hfetch : fetch s.port with
  | incomplete => exact ⟨s, step_of_incomplete hfetch, hs, rfl⟩
  | command cmd data rest =>
    obtain ⟨hport, hlen⟩ := fetch_eq_command_iff.mp hfetch
    obtain ⟨why, -, hstep⟩ | ⟨i, hdecode, hstep⟩ := step_wholeCommand hport (hlen.trans (countField_eq cmd))
    · rw [hstep]
      exact AnswersBoundary.refuses (hs.setPort rest) _
    · rw [hstep]
      exact exec_answersBoundary (hs.setPort rest) i (wellFormed_of_decodeCommand hlen hdecode)

/-- Settles O14: what `step_answersBoundary` says of the one state that the step answers. -/
theorem stepKeepsTheBoundaryConditions : Obligations.StepKeepsTheBoundaryConditions := by
  intro s t hs hstep
  obtain ⟨t', hstep', hwf, hparams⟩ := step_answersBoundary hs
  obtain rfl : t = t' := Host.Outcome.next.inj (hstep.symm.trans hstep')
  exact ⟨hwf, hparams⟩

end Sys2Proof.Machine

/-! PROOFS. Which commands have effects beyond their RET (20_memory.md R54). -/

namespace Sys2Proof.Machine

/-! ## Commands that write no register -/

theorem SameUnit.trans {u : UnitId} {s t r : State} (hst : SameUnit u s t) (htr : SameUnit u t r) : SameUnit u s r := by
  cases u <;> exact Eq.trans hst htr

theorem SameRegisters.trans {s t r : State} (hst : SameRegisters s t) (htr : SameRegisters t r) : SameRegisters s r := by
  obtain ⟨hunits, hparams, hport⟩ := hst
  obtain ⟨hunits', hparams', hport'⟩ := htr
  exact ⟨fun u => (hunits u).trans (hunits' u), hparams.trans hparams', hport.trans hport'⟩

/-- Completing on the state itself only delivers outputs. -/
theorem complete_sameRegisters (u : UnitId) (events : List Event) (status : Status) (ret : Ret) (s : State) :
    ∃ t, complete u events status ret s = .next t ∧ SameRegisters t s ∧ t.trace = s.trace ++ outputs u events status ret :=
  ⟨_, rfl, ⟨fun v => by cases v <;> rfl, rfl, rfl⟩, rfl⟩

/-- DESCRIBE and ONESHOT only return (R54 (d), (e)). -/
theorem exec_describe_oneshot {i : Instr} (hop : i.op = .describe ∨ i.op = .oneshot) (s : State) :
    ∃ ret, exec i s = complete i.unit [] .ok ret s := by
  cases i with
  | b64eDescribe | b64dDescribe | hexeDescribe | hexdDescribe | bfpDescribe | bfuDescribe | crcDescribe | cksDescribe =>
    exact ⟨.bytes (Config.describeText _), rfl⟩
  | b64eOneshot _ | crcOneshot _ => exact ⟨_, rfl⟩
  | _ => simp [Instr.op] at hop

/-- A command that only returns a value computed from the registers returns the same value a second time. -/
theorem exec_twice_of_onlyReturns {i : Instr} {value : State → Word}
    (hexec : ∀ s, exec i s = complete i.unit [] .ok (.value (value s)) s)
    (hvalue : ∀ s t, SameRegisters t s → value t = value s) (s : State) :
    ∃ t1 t2 v, exec i s = .next t1 ∧ exec i t1 = .next t2 ∧ SameRegisters t1 s ∧ SameRegisters t2 s ∧
      t1.trace = s.trace ++ outputs i.unit [] .ok (.value v) ∧ t2.trace = t1.trace ++ outputs i.unit [] .ok (.value v) := by
  obtain ⟨t1, hnext1, hsame1, htrace1⟩ := complete_sameRegisters i.unit [] .ok (.value (value s)) s
  obtain ⟨t2, hnext2, hsame2, htrace2⟩ := complete_sameRegisters i.unit [] .ok (.value (value s)) t1
  refine ⟨t1, t2, value s, (hexec s).trans hnext1, ?_, hsame1, hsame2.trans hsame1, htrace1, htrace2⟩
  rw [hexec t1, hvalue s t1 hsame1, hnext2]

/-- QUERY of CKS at ACC = 0 emits EMPTY and keeps ACC (R134). -/
theorem exec_cksQuery_of_zero {s : State} (hacc : s.cks.acc = 0) :
    ∃ t, exec .cksQuery s = .next t ∧ t.cks.acc = 0 ∧ t.trace = s.trace ++ outputs .cks [.empty] .ok (.value 0) := by
  have hexec : exec .cksQuery s = complete .cks [.empty] .ok (.value 0) s := by
    show execCksQuery s = _
    simp [execCksQuery, hacc]
  obtain ⟨t, hnext, ⟨hunits, -, -⟩, htrace⟩ := complete_sameRegisters .cks [.empty] .ok (.value 0) s
  have hcks : t.cks = s.cks := hunits .cks
  exact ⟨t, hexec.trans hnext, by rw [hcks, hacc], htrace⟩

/-! ## QUERY of the hex units empties the window -/

/-- QUERY of HEXE returns the window and empties it (R99). -/
theorem exec_hexeQuery (s : State) :
    ∃ t, exec .hexeQuery s = .next t ∧ t.hexe.idx = 0 ∧
      t.trace = s.trace ++ outputs .hexe [] .ok (.bytes (s.hexe.buf.take s.hexe.idx)) :=
  ⟨_, rfl, rfl, rfl⟩

/-- QUERY of HEXD does the same with its window (R107). -/
theorem exec_hexdQuery (s : State) :
    ∃ t, exec .hexdQuery s = .next t ∧ t.hexd.idx = 0 ∧
      t.trace = s.trace ++ outputs .hexd [] .ok (.bytes (s.hexd.buf.take s.hexd.idx)) :=
  ⟨_, rfl, rfl, rfl⟩

/-- Settles O55: a second QUERY of a hex unit finds the window empty, and the other commands of R54 write no register. -/
theorem sideEffectsOfQueryDescribeOneshot : Obligations.SideEffectsOfQueryDescribeOneshot := by
  intro s
  refine ⟨?hexe, ?hexd, fun hacc => ?cks, ?valueQueries, fun i hop => ?describeOneshot⟩
  case hexe =>
    obtain ⟨t1, hnext1, hidx, -⟩ := exec_hexeQuery s
    obtain ⟨t2, hnext2, -, htrace⟩ := exec_hexeQuery t1
    exact ⟨t1, t2, hnext1, hnext2, hidx, by simpa [hidx] using htrace⟩
  case hexd =>
    obtain ⟨t1, hnext1, hidx, -⟩ := exec_hexdQuery s
    obtain ⟨t2, hnext2, -, htrace⟩ := exec_hexdQuery t1
    exact ⟨t1, t2, hnext1, hnext2, hidx, by simpa [hidx] using htrace⟩
  case cks =>
    obtain ⟨t1, hnext1, hacc1, htrace1⟩ := exec_cksQuery_of_zero hacc
    obtain ⟨t2, hnext2, -, htrace2⟩ := exec_cksQuery_of_zero hacc1
    exact ⟨t1, t2, hnext1, hnext2, htrace1, htrace2⟩
  case valueQueries =>
    rintro i (rfl | rfl | rfl)
    · exact exec_twice_of_onlyReturns (fun _ => rfl) (fun _ _ ⟨hunits, _, _⟩ => congrArg BitField.last (hunits .bfp)) s
    · exact exec_twice_of_onlyReturns (fun _ => rfl) (fun _ _ ⟨hunits, _, _⟩ => congrArg BitField.last (hunits .bfu)) s
    · refine exec_twice_of_onlyReturns (fun _ => rfl) (fun s t ⟨hunits, _, _⟩ => ?_) s
      have hcrc : t.crc = s.crc := hunits .crc
      rw [hcrc]
  case describeOneshot =>
    obtain ⟨ret, hexec⟩ := exec_describe_oneshot hop s
    obtain ⟨t, hnext, hsame, htrace⟩ := complete_sameRegisters i.unit [] .ok ret s
    exact ⟨t, ret, hexec.trans hnext, hsame, htrace⟩

end Sys2Proof.Machine

/-! PROOFS. The common checks in the order of the spec (30_encoding.md R72), and the pseudo-instructions (R75). -/

namespace Sys2Proof.Machine

/-! ## The first failed check, on the fields as numbers (R66 to R69, R72) -/

/-- A UNIT value is reserved from 8 on, and the number of a unit below (R66). -/
theorem unitOf_cases (v : BitVec 4) :
    (unitOf v = none ∧ 8 ≤ v.toNat) ∨ ∃ u : UnitId, unitOf v = some u ∧ v.toNat = u.number.toNat ∧ v.toNat < 8 := by
  cases h : unitOf v with
  | none => exact .inl ⟨rfl, by revert v; decide⟩
  | some u =>
    obtain rfl := number_of_unitOf h
    exact .inr ⟨u, rfl, rfl, by cases u <;> decide⟩

/-- An OP value is reserved from 6 on, and the number of an operation below (R67). -/
theorem opOf_cases (v : BitVec 4) :
    (opOf v = none ∧ 6 ≤ v.toNat) ∨ ∃ op : Op, opOf v = some op ∧ v.toNat = op.number.toNat ∧ v.toNat < 6 := by
  cases h : opOf v with
  | none => exact .inl ⟨rfl, by revert v; decide⟩
  | some op =>
    obtain rfl := number_of_opOf h
    exact .inr ⟨op, rfl, rfl, by cases op <;> decide⟩

/-- The pairs marked "no" in R68: QUERY of the base64 units, and ONESHOT of the units other than B64E and CRC. -/
theorem legalPair_eq_false_iff (u : UnitId) (op : Op) :
    legalPair u op = false ↔
      (op.number.toNat = 4 ∧ u.number.toNat ≤ 1) ∨ (op.number.toNat = 5 ∧ u.number.toNat ≠ 0 ∧ u.number.toNat ≠ 6) := by
  cases u <;> cases op <;> decide

/-- The count ranges of R69. -/
theorem countLegal_eq_false_iff (p : Params) (u : UnitId) (op : Op) (n : Nat) :
    countLegal p u op n = false ↔
      ((op.number.toNat = 0 ∨ op.number.toNat = 1 ∨ op.number.toNat = 4) ∧ n ≠ 0) ∨
      (op.number.toNat = 2 ∧ maxParams p u < n) := by
  cases op <;> simp [countLegal, Op.number]

/-- Only the byte elements of a unit other than BFP have a range (R64). -/
theorem dataLegal_eq_false_iff (u : UnitId) (op : Op) (data : List Word) :
    dataLegal u op data = false ↔
      (op.number.toNat = 3 ∨ op.number.toNat = 5) ∧ u.number.toNat ≠ 4 ∧ ∃ d ∈ data, 256 ≤ d.toNat := by
  have hunit : u = .bfp ↔ u.number.toNat = 4 := by cases u <;> decide
  cases op <;> simp [dataLegal, Op.number, hunit, isByteWord_iff]

/-- MAXP by the unit's number (R69). -/
theorem maxParams_eq (p : Params) (u : UnitId) :
    maxParams p u =
      if u.number.toNat = 2 ∨ u.number.toNat = 3 then 1
      else if u.number.toNat = 6 then 5
      else if u.number.toNat = 4 ∨ u.number.toNat = 5 then 4 + p.fieldListMax
      else 0 := by
  cases u <;> simp [maxParams, UnitId.number, Nat.add_comm]

/-! ## The decoder's answer at each check of R72, when the checks before it pass -/

section
variable {p : Params} {cmd : Word} {data : List Word}

theorem decodeCommand_illegalUnit (hu : unitOf (unitField cmd) = none) : decodeCommand p cmd data = .error .illegalUnit := by
  simp [decodeCommand, hu]

variable {u : UnitId} (hu : unitOf (unitField cmd) = some u)
include hu

theorem decodeCommand_illegalOp (ho : opOf (opField cmd) = none) : decodeCommand p cmd data = .error .illegalOp := by
  simp [decodeCommand, hu, ho]

variable {op : Op} (ho : opOf (opField cmd) = some op)
include ho

theorem decodeCommand_illegalPair (hl : legalPair u op = false) : decodeCommand p cmd data = .error .illegalOp := by
  simp [decodeCommand, hu, ho, hl]

variable (hl : legalPair u op = true)
include hl

theorem decodeCommand_reservedBits (hr : rsvField cmd ≠ 0#8) : decodeCommand p cmd data = .error .reservedBits := by
  simp [decodeCommand, hu, ho, hl, hr]

variable (hr : rsvField cmd = 0#8)
include hr

theorem decodeCommand_badCount (hc : countLegal p u op (countField cmd) = false) :
    decodeCommand p cmd data = .error .badCount := by
  simp [decodeCommand, hu, ho, hl, hr, hc]

variable (hc : countLegal p u op (countField cmd) = true)
include hc

theorem decodeCommand_dataRange (hd : dataLegal u op data = false) : decodeCommand p cmd data = .error .dataRange := by
  simp [decodeCommand, hu, ho, hl, hr, hc, hd]

/-- With no check failed, the command is the well-formed one of that unit, operation and DATA. -/
theorem decodeCommand_accepts (hlen : data.length = countField cmd) (hd : dataLegal u op data = true) :
    ∃ i, decodeCommand p cmd data = .ok i ∧ i.unit = u ∧ i.op = op ∧ i.data = data ∧ i.WellFormed p = true := by
  obtain ⟨i, hbuild⟩ := Option.isSome_iff_exists.mp ((build_isSome u op data).trans hl)
  have hmax : data.length ≤ 65535 := by
    rw [hlen, countField_eq]
    omega
  exact ⟨i, decodeCommand_of_checks hu ho hl hr hc hd hbuild, fields_of_build p hbuild hd (hlen ▸ hc) hmax⟩

end

/-! ## The step on a whole command, by the decoder's answer -/

theorem step_of_rejected {s : State} {cmd : Word} {data rest : List Word} {why : Reject}
    (hport : s.port = cmd :: (data ++ rest)) (hlen : data.length = cmd.toNat % 65536)
    (h : decodeCommand s.params cmd data = .error why) :
    step s = .next { s with port := rest, trace := s.trace ++ [.response { status := rejectStatus why, ret := .none }] } := by
  obtain ⟨why', herror, hstep⟩ | ⟨i, hok, -⟩ := step_wholeCommand hport hlen
  · obtain rfl : why = why' := Except.error.inj (h.symm.trans herror)
    exact hstep
  · exact absurd (h.symm.trans hok) nofun

theorem step_of_accepted {s : State} {cmd : Word} {data rest : List Word} {i : Instr}
    (hport : s.port = cmd :: (data ++ rest)) (hlen : data.length = cmd.toNat % 65536)
    (h : decodeCommand s.params cmd data = .ok i) : step s = exec i { s with port := rest } := by
  obtain ⟨why, herror, -⟩ | ⟨i', hok, hstep⟩ := step_wholeCommand hport hlen
  · exact absurd (h.symm.trans herror) nofun
  · obtain rfl : i = i' := Except.ok.inj (h.symm.trans hok)
    exact hstep

/-- Settles O6: each arm of the chain is one check of the decoder, on a UNIT and an OP that the arms before it have found legal. -/
theorem checksAreMadeInTheOrderOfTheSpec : Obligations.ChecksAreMadeInTheOrderOfTheSpec := by
  intro s cmd data rest hport hlen
  have hrefuse (why : Reject) (h : decodeCommand s.params cmd data = .error why) := step_of_rejected hport hlen h
  have hcount : data.length = countField cmd := hlen.trans (countField_eq cmd).symm
  have hn : countField cmd = cmd.toNat % 2 ^ 16 := countField_eq cmd
  simp only [← unitField_toNat, ← opField_toNat, ← rsvField_toNat, ← hn]
  obtain ⟨hnone, hreserved⟩ | ⟨u, hu, hunum, hunit⟩ := unitOf_cases (unitField cmd)
  · rw [if_pos hreserved]
    exact hrefuse .illegalUnit (decodeCommand_illegalUnit hnone)
  rw [if_neg (Nat.not_le.mpr hunit)]
  obtain ⟨hnone, hreserved⟩ | ⟨op, ho, honum, hop⟩ := opOf_cases (opField cmd)
  · rw [if_pos (.inl hreserved)]
    exact hrefuse .illegalOp (decodeCommand_illegalOp hu hnone)
  rw [hunum, honum, ← maxParams_eq]
  by_cases hpair : legalPair u op = false
  · rw [if_pos (.inr ((legalPair_eq_false_iff u op).mp hpair))]
    exact hrefuse .illegalOp (decodeCommand_illegalPair hu ho hpair)
  rw [if_neg (not_or.mpr ⟨Nat.not_le.mpr (honum ▸ hop), (legalPair_eq_false_iff u op).not.mp hpair⟩)]
  have hl := Bool.of_not_eq_false hpair
  split_ifs with hbits hzero hmax hrange
  · exact hrefuse .reservedBits (decodeCommand_reservedBits hu ho hl (mt (congrArg BitVec.toNat) hbits))
  all_goals have hr : rsvField cmd = 0#8 := BitVec.eq_of_toNat_eq (not_not.mp hbits)
  · exact hrefuse .badCount (decodeCommand_badCount hu ho hl hr ((countLegal_eq_false_iff ..).mpr (.inl hzero)))
  · exact hrefuse .badCount (decodeCommand_badCount hu ho hl hr ((countLegal_eq_false_iff ..).mpr (.inr hmax)))
  all_goals
    have hc : countLegal s.params u op (countField cmd) = true :=
      Bool.of_not_eq_false ((countLegal_eq_false_iff ..).not.mpr (not_or.mpr ⟨hzero, hmax⟩))
  · exact hrefuse .dataRange (decodeCommand_dataRange hu ho hl hr hc ((dataLegal_eq_false_iff ..).mpr hrange))
  · have hd := Bool.of_not_eq_false ((dataLegal_eq_false_iff u op data).not.mpr hrange)
    obtain ⟨i, hok, rfl, rfl, hdata, hwf⟩ := decodeCommand_accepts hu ho hl hr hc hcount hd
    exact ⟨i, step_of_accepted hport hlen hok, rfl, rfl, hdata, hwf⟩

/-! ## The assembler's lines without operands, and `restart` (R74, R75) -/

/-- A line without operands is its CMD word with N = 0. -/
theorem assemble_noOperands (u : UnitId) (op : AsmOp) :
    assemble { unit := u, op := op, operands := [] } = some [cmdNumber u.number.toNat (asmOpcode op).number.toNat 0] := by
  rw [cmdNumber_eq_header _ _ _ u.number.isLt (asmOpcode op).number.isLt (Nat.zero_le _)]
  simp [assemble, operandWords]

/-- The FINALIZE of the five units that `restart` is defined for writes their registers and emits nothing (R89, R98, R106, R118, R125). -/
theorem exec_fin_of_restartable {u : UnitId} (hu : u = .b64d ∨ u = .hexe ∨ u = .hexd ∨ u = .bfp ∨ u = .bfu) :
    ∃ i, build u .feed [] = some i ∧
      ∀ s, ∃ t ret, WritesOnly u s t ∧ exec i s = complete u [] .ok ret t := by
  obtain rfl | rfl | rfl | rfl | rfl := hu
  · exact ⟨.b64dFin, rfl, fun s => ⟨_, _, .setB64d s _, rfl⟩⟩
  · exact ⟨.hexeFin, rfl, fun s => ⟨_, _, .setHexe s _, rfl⟩⟩
  · exact ⟨.hexdFin, rfl, fun s => ⟨_, _, .setHexd s _, rfl⟩⟩
  · exact ⟨.bfpFin, rfl, fun s => ⟨_, _, .setBfp s _, rfl⟩⟩
  · exact ⟨.bfuFin, rfl, fun s => ⟨_, _, .setBfu s _, rfl⟩⟩

/-- With the word of `restart` alone at the port, a step consumes it and answers without an event. -/
theorem step_restart {u : UnitId} (hu : u = .b64d ∨ u = .hexe ∨ u = .hexd ∨ u = .bfp ∨ u = .bfu) {s : State}
    (hport : s.port = [cmdNumber u.number.toNat 3 0]) :
    ∃ t ret, step s = .next t ∧ t.port = [] ∧ t.trace = s.trace ++ outputs u [] .ok ret := by
  obtain ⟨i, hbuild, hexec⟩ := exec_fin_of_restartable hu
  obtain ⟨t, ret, hwrites, hcomplete⟩ := hexec (s.setPort [])
  have hdecode : decode s.params s.port = .instr i [] := hport ▸ isFinalize_of u i hbuild s.params []
  have hstep : step s = complete u [] .ok ret t := by simp only [step, hdecode, hcomplete]
  exact ⟨_, ret, hstep, hwrites.port, congrArg (· ++ outputs u [] .ok ret) hwrites.trace⟩

theorem expandPseudo_restart (u : UnitId) :
    expandPseudo (.restart u) =
      if u = .b64e ∨ u = .crc ∨ u = .cks then none else some [{ unit := u, op := .fin, operands := [] }] := by
  cases u <;> rfl

/-- `encode` is undefined for an empty string: its FEED would be a FINALIZE. -/
theorem expandPseudo_b64eEncode (s : List Byte) :
    expandPseudo (.b64eEncode s) =
      if s = [] then none
      else some [{ unit := .b64e, op := .feed, operands := [.text s] }, { unit := .b64e, op := .fin, operands := [] }] := by
  cases s <;> rfl

/-- Settles O58: the rows of the table, and `step_restart`. -/
theorem pseudoInstructionsExpand : Obligations.PseudoInstructionsExpand :=
  ⟨expandPseudo_restart, fun _ => rfl, fun s => ⟨expandPseudo_b64eEncode s, rfl, rfl⟩,
    fun u => ⟨assemble_noOperands u .fin, assemble_noOperands u .config⟩, fun _ _ hu => step_restart hu⟩

end Sys2Proof.Machine

/-! PROOFS. The base64 units: one element of a FEED in numbers, the commands on a state, and the round trip (40_base64.md R76 to R92). -/

namespace Sys2Proof.Machine

/-! ## What one command answers -/

theorem complete_eq (u : UnitId) (events : List Event) (status : Status) (ret : Ret) (s : State) :
    complete u events status ret s = .next { s with trace := s.trace ++ outputs u events status ret } :=
  complete_eq_next_iff.mpr rfl

theorem describe_eq (u : UnitId) (s : State) :
    describe u s =
      .next { s with trace := s.trace ++ [.response { status := .ok, ret := .bytes (Config.describeText u) }] } :=
  complete_eq u [] .ok _ s

theorem exec_b64eFeed (bytes : List Byte) (s : State) :
    exec (.b64eFeed bytes) s =
      .next { s with
        b64e := (feedWith b64eElement s.b64e bytes).regs
        trace := s.trace ++ outputs .b64e (feedWith b64eElement s.b64e bytes).events .ok
          (.bytes (feedWith b64eElement s.b64e bytes).bytes) } :=
  complete_eq _ _ _ _ (s.setB64e _)

theorem exec_b64eFin (s : State) :
    exec .b64eFin s =
      .next { s with
        b64e := { phase := .zero, pend := 0 }
        trace := s.trace ++ outputs .b64e (if (flushChars s.b64e).isEmpty then [] else [.bytes (flushChars s.b64e)]) .ok
          (.bytes (flushChars s.b64e)) } :=
  complete_eq _ _ _ _ (s.setB64e _)

/-- The text of `b64e.oneshot` (R83): that of an encoder started from the reset registers. -/
def oneshotText (bytes : List Byte) : List Byte :=
  (feedWith b64eElement .initial bytes).bytes ++ flushChars (feedWith b64eElement .initial bytes).regs

theorem exec_b64eOneshot (bytes : List Byte) (s : State) :
    exec (.b64eOneshot bytes) s =
      .next { s with trace := s.trace ++ outputs .b64e [] .ok (.bytes (oneshotText bytes)) } :=
  complete_eq _ _ _ _ s

theorem exec_b64dFeed (chars : List Byte) (s : State) :
    exec (.b64dFeed chars) s =
      .next { s with
        b64d := (feedWith b64dElement s.b64d chars).regs
        trace := s.trace ++ outputs .b64d (feedWith b64dElement s.b64d chars).events
          (inputStatus (feedWith b64dElement s.b64d chars).flagged) (.bytes (feedWith b64dElement s.b64d chars).bytes) } :=
  complete_eq _ _ _ _ (s.setB64d _)

/-! ## One element in numbers (R76, R77, R84) -/

/-- An accepted element: the registers after it and its output, which is one event unless it is empty. -/
def Fed.accepted {σ : Type} (regs : σ) (out : List Byte) : Fed σ :=
  { regs := regs, events := if out = [] then [] else [.bytes out], bytes := out, flagged := false }

section Encoder
variable {x : B64Enc} (b : Byte)

theorem b64eElement_zero (hphase : x.phase = .zero) :
    b64eElement x b = .accepted ⟨.one, BitVec.ofNat 6 (b.toNat % 4 * 16)⟩ [b64CharOf (b.toNat / 4)] := by
  obtain ⟨hout, hpend, -⟩ := encPieces b
  simp [b64eElement, encStep, Fed.accepted, b64CharOf, hphase, hout, hpend]

theorem b64eElement_one (hphase : x.phase = .one) :
    b64eElement x b =
      .accepted ⟨.two, BitVec.ofNat 6 (b.toNat % 16 * 4)⟩ [b64Char (x.pend ||| BitVec.ofNat 6 (b.toNat / 16))] := by
  obtain ⟨-, -, hpend, hout, -⟩ := encPieces b
  simp [b64eElement, encStep, Fed.accepted, hphase, hout, hpend]

theorem b64eElement_two (hphase : x.phase = .two) :
    b64eElement x b =
      .accepted ⟨.zero, 0⟩ [b64Char (x.pend ||| BitVec.ofNat 6 (b.toNat / 64)), b64CharOf (b.toNat % 64)] := by
  obtain ⟨-, -, -, -, hout, hlast⟩ := encPieces b
  simp [b64eElement, encStep, Fed.accepted, b64CharOf, hphase, hout, hlast]

theorem flushChars_zero (hphase : x.phase = .zero) : flushChars x = [] := by
  simp [flushChars, hphase]

theorem flushChars_one (hphase : x.phase = .one) : flushChars x = [b64Char x.pend, padChar, padChar] := by
  simp [flushChars, hphase]

theorem flushChars_two (hphase : x.phase = .two) : flushChars x = [b64Char x.pend, padChar] := by
  simp [flushChars, hphase]

end Encoder

/-- A character without a decode value restarts the group (R84). -/
theorem b64dElement_rejected (x : B64Dec) {c : Byte} (hvalue : b64Value c = none) :
    b64dElement x c = { regs := ⟨.zero, 0⟩, events := [], bytes := [], flagged := true } := by
  simp [b64dElement, hvalue]

theorem b64dElement_pad (x : B64Dec) :
    b64dElement x padChar = { regs := ⟨.zero, 0⟩, events := [], bytes := [], flagged := true } :=
  b64dElement_rejected x rfl

section Decoder
variable {x : B64Dec} {c : Byte} {v : BitVec 6} (hvalue : b64Value c = some v)
include hvalue

theorem b64dElement_zero (hphase : x.phase = .zero) :
    b64dElement x c = .accepted ⟨.one, BitVec.ofNat 6 v.toNat⟩ [] := by
  simp [b64dElement, Fed.accepted, hvalue, hphase]

theorem b64dElement_one (hphase : x.phase = .one) :
    b64dElement x c =
      .accepted ⟨.two, BitVec.ofNat 6 (v.toNat % 16)⟩ [BitVec.ofNat 8 (x.pend.toNat * 4 + v.toNat / 16)] := by
  obtain ⟨hkept, -⟩ := decKept v
  simp only [b64dElement, Fed.accepted, hvalue, hphase, hkept, decByte_one]
  rfl

theorem b64dElement_two (hphase : x.phase = .two) (hpend : x.pend.toNat < 16) :
    b64dElement x c =
      .accepted ⟨.three, BitVec.ofNat 6 (v.toNat % 4)⟩ [BitVec.ofNat 8 (x.pend.toNat * 16 + v.toNat / 4)] := by
  obtain ⟨-, hkept⟩ := decKept v
  simp only [b64dElement, Fed.accepted, hvalue, hphase, hkept, decByte_two _ _ hpend]
  rfl

theorem b64dElement_three (hphase : x.phase = .three) (hpend : x.pend.toNat < 4) :
    b64dElement x c = .accepted ⟨.zero, 0⟩ [BitVec.ofNat 8 (x.pend.toNat * 64 + v.toNat)] := by
  simp only [b64dElement, Fed.accepted, hvalue, hphase, decByte_three _ _ hpend]
  rfl

end Decoder

/-! ## Commands without data -/

theorem takesNoData_describe {u : UnitId} {i : Instr} (hbuild : build u .describe [] = some i) : TakesNoData u.number.toNat 0 i :=
  takesNoData_of u .describe i (.inl rfl) hbuild

theorem takesNoData_config {u : UnitId} {i : Instr} (hmax : ∀ p, maxParams p u = 0) (hbuild : build u .config [] = some i) :
    TakesNoData u.number.toNat 2 i :=
  takesNoData_of u .config i (.inr (.inr (.inr ⟨rfl, hmax⟩))) hbuild

/-- Settles O18: the eight meanings are `describe`, whose answer `describe_eq` gives. -/
theorem describeReturnsTheTextOnly : Obligations.DescribeReturnsTheTextOnly := by
  refine ⟨⟨takesNoData_describe (u := .b64e) rfl, takesNoData_describe (u := .b64d) rfl,
    takesNoData_describe (u := .hexe) rfl, takesNoData_describe (u := .hexd) rfl,
    takesNoData_describe (u := .bfp) rfl, takesNoData_describe (u := .bfu) rfl,
    takesNoData_describe (u := .crc) rfl, takesNoData_describe (u := .cks) rfl⟩, fun s => ?_⟩
  exact ⟨describe_eq .b64e s, describe_eq .b64d s, describe_eq .hexe s, describe_eq .hexd s,
    describe_eq .bfp s, describe_eq .bfu s, describe_eq .crc s, describe_eq .cks s⟩

/-- Settles O22: each of the four commands completes on the state with its unit's registers cleared. -/
theorem configWithoutParametersClears : Obligations.ConfigWithoutParametersClears := by
  refine ⟨⟨takesNoData_config (u := .b64e) (fun _ => rfl) rfl, takesNoData_config (u := .b64d) (fun _ => rfl) rfl,
    isFinalize_of .b64d .b64dFin rfl, takesNoData_config (u := .cks) (fun _ => rfl) rfl⟩, fun s => ?_⟩
  exact ⟨complete_eq .b64e [] .ok .none (s.setB64e _), complete_eq .b64d [] .ok .none (s.setB64d _),
    complete_eq .b64d [] .ok (.bytes []) (s.setB64d _), complete_eq .cks [] .ok .none (s.setCks _)⟩

/-! ## One element as a command -/

/-- UNIT, FEED with DB words is the command of their bytes, for a unit that feeds bytes (R64, R67). -/
theorem takesBytes_feed {u : UnitId} {feed : List Byte → Instr} {fin : Instr} (hu : u ≠ .bfp)
    (hbuild : ∀ data, build u .feed data = some (feedOrFin feed fin data)) : TakesBytes u.number.toNat 3 1 feed := by
  refine takesBytes_of u .feed 1 feed (.inl rfl) hu fun data hlen => ?_
  rw [hbuild]
  cases data with
  | nil => simp at hlen
  | cons d rest => rfl

theorem exec_b64eFeed_accepted {s : State} {b : Byte} {regs : B64Enc} {out : List Byte}
    (h : b64eElement s.b64e b = .accepted regs out) :
    exec (.b64eFeed [b]) s =
      .next { s with b64e := regs, trace := s.trace ++ outputs .b64e (if out = [] then [] else [.bytes out]) .ok (.bytes out) } := by
  rw [exec_b64eFeed, feedWith_singleton, h, Fed.accepted]

theorem exec_b64dFeed_accepted {s : State} {c : Byte} {regs : B64Dec} {out : List Byte}
    (h : b64dElement s.b64d c = .accepted regs out) :
    exec (.b64dFeed [c]) s =
      .next { s with b64d := regs, trace := s.trace ++ outputs .b64d (if out = [] then [] else [.bytes out]) .ok (.bytes out) } := by
  rw [exec_b64dFeed, feedWith_singleton, h, Fed.accepted]
  rfl

/-- Settles O20: ENC_STEP in numbers, phase by phase. -/
theorem encoderFeedOfOneByte : Obligations.EncoderFeedOfOneByte := by
  refine ⟨takesBytes_feed (u := .b64e) nofun fun _ => rfl, fun s b => ⟨fun hphase => ?_, fun hphase => ?_, fun hphase => ?_⟩⟩
  · exact exec_b64eFeed_accepted (b64eElement_zero b hphase)
  · exact exec_b64eFeed_accepted (b64eElement_one b hphase)
  · exact exec_b64eFeed_accepted (b64eElement_two b hphase)

/-- Settles O25: DEC_STEP in numbers, for a rejected character and phase by phase for one with a value. -/
theorem decoderFeedOfOneCharacter : Obligations.DecoderFeedOfOneCharacter := by
  refine ⟨takesBytes_feed (u := .b64d) nofun fun _ => rfl, fun s c => ⟨fun hnone => ?rejected, fun v hvalue =>
    ⟨fun hphase => ?_, fun hphase => ?_, fun hphase hpend => ?_, fun hphase hpend => ?_⟩⟩⟩
  case rejected =>
    rw [exec_b64dFeed, feedWith_singleton, b64dElement_rejected _ hnone]
    rfl
  · exact exec_b64dFeed_accepted (b64dElement_zero hvalue hphase)
  · exact exec_b64dFeed_accepted (b64dElement_one hvalue hphase)
  · exact exec_b64dFeed_accepted (b64dElement_two hvalue hphase hpend)
  · exact exec_b64dFeed_accepted (b64dElement_three hvalue hphase hpend)

/-- Settles O21: the flush of each phase. -/
theorem encoderFinalizePads : Obligations.EncoderFinalizePads := by
  refine ⟨isFinalize_of .b64e .b64eFin rfl, fun s => ⟨fun hphase => ?_, fun hphase => ?_, fun hphase => ?_⟩⟩
  · rw [exec_b64eFin, flushChars_zero hphase]
    rfl
  · rw [exec_b64eFin, flushChars_one hphase]
    rfl
  · rw [exec_b64eFin, flushChars_two hphase]
    rfl

/-! ## FEED in parts (R90, R91) -/

/-- Settles O26: both FEEDs fold their elements, so `feedWith_append` splits them. -/
theorem base64FeedSplitsAnywhere : Obligations.Base64FeedSplitsAnywhere := by
  refine ⟨fun s a b => ?encoder, fun s a b => ?decoder⟩
  case encoder =>
    have hwhole := exec_b64eFeed (a ++ b) s
    rw [feedWith_append] at hwhole
    exact ⟨_, _, _, _, _, _, _, exec_b64eFeed a s, exec_b64eFeed b _, hwhole, rfl, rfl, rfl,
      fun u => by cases u <;> rfl, rfl, rfl⟩
  case decoder =>
    have hwhole := exec_b64dFeed (a ++ b) s
    rw [feedWith_append] at hwhole
    exact ⟨_, _, _, _, _, _, _, _, _, exec_b64dFeed a s, exec_b64dFeed b _, hwhole, rfl, rfl, rfl,
      fun u => by cases u <;> rfl, rfl, rfl⟩

/-- At PHASE 0 the encoder does not read PEND, so a non-empty FEED there is that of a reset encoder. -/
theorem feedWith_b64eElement_of_zero {x : B64Enc} (hphase : x.phase = .zero) {bytes : List Byte} (hne : bytes ≠ []) :
    feedWith b64eElement x bytes = feedWith b64eElement .initial bytes := by
  obtain ⟨b, rest, rfl⟩ := List.exists_cons_of_ne_nil hne
  rw [feedWith_cons, feedWith_cons, b64eElement_zero b hphase, b64eElement_zero b rfl]

/-- Settles O24: at PHASE 0 the unit's own encoder gives the text that `b64e.oneshot` computes from the reset registers. -/
theorem oneshotIsFeedThenFinalize : Obligations.OneshotIsFeedThenFinalize := by
  refine fun s hphase => ⟨fun bytes hne => ?some, ?none⟩
  case some =>
    have honeshot := exec_b64eOneshot bytes s
    rw [oneshotText, ← feedWith_b64eElement_of_zero hphase hne] at honeshot
    exact ⟨_, _, _, _, _, _, _, honeshot, exec_b64eFeed bytes s, exec_b64eFin _, rfl, rfl, rfl⟩
  case none =>
    have hfin := exec_b64eFin s
    rw [flushChars_zero hphase] at hfin
    exact ⟨_, _, _, exec_b64eOneshot [] s, hfin, rfl, rfl⟩

/-! ## The round trip: the decoder trails the encoder by at most one byte (R92) -/

theorem toNat_ofNat_six {n : Nat} (h : n < 64) : (BitVec.ofNat 6 n).toNat = n := by
  rw [BitVec.toNat_ofNat, Nat.mod_eq_of_lt h]

/-- The character of a 6-bit number decodes to it. -/
theorem b64Value_b64CharOf (n : Nat) : b64Value (b64CharOf n) = some (BitVec.ofNat 6 n) :=
  b64Value_b64Char _

/-- PEND holds a character's high bits, a multiple of `m`, and the next byte gives the low ones. -/
theorem b64Char_or {m k : Nat} (hm : m = 2 ^ k) (a : Nat) {n : Nat} (h : n < m) :
    b64Char (BitVec.ofNat 6 (a * m) ||| BitVec.ofNat 6 n) = b64CharOf (a * m + n) := by
  subst hm
  rw [b64CharOf, Nat.mul_comm, Nat.two_pow_add_eq_or_of_lt h, BitVec.ofNat_or]

section SplitByte
variable {y : B64Dec} (b : Byte) {low : Nat}

/-- With the 6 high bits of `b` in PEND, a character that begins with its 2 low bits gives `b` and leaves the bits after them. -/
theorem b64dElement_gives_one (hphase : y.phase = .one) (hpend : y.pend.toNat = b.toNat / 4) (hlow : low < 16) :
    b64dElement y (b64CharOf (b.toNat % 4 * 16 + low)) = .accepted ⟨.two, BitVec.ofNat 6 low⟩ [b] := by
  have hvalue : (BitVec.ofNat 6 (b.toNat % 4 * 16 + low)).toNat = b.toNat % 4 * 16 + low := toNat_ofNat_six (by omega)
  have hbyte : b.toNat / 4 * 4 + (b.toNat % 4 * 16 + low) / 16 = b.toNat := by omega
  have hkept : (b.toNat % 4 * 16 + low) % 16 = low := by omega
  rw [b64dElement_one (b64Value_b64CharOf _) hphase, hvalue, hpend, hbyte, hkept, BitVec.ofNat_toNat, BitVec.setWidth_eq]

/-- The same with the 4 high bits of `b` in PEND. -/
theorem b64dElement_gives_two (hphase : y.phase = .two) (hpend : y.pend.toNat = b.toNat / 16) (hlow : low < 4) :
    b64dElement y (b64CharOf (b.toNat % 16 * 4 + low)) = .accepted ⟨.three, BitVec.ofNat 6 low⟩ [b] := by
  have hb := b.isLt
  have hvalue : (BitVec.ofNat 6 (b.toNat % 16 * 4 + low)).toNat = b.toNat % 16 * 4 + low := toNat_ofNat_six (by omega)
  have hbyte : b.toNat / 16 * 16 + (b.toNat % 16 * 4 + low) / 4 = b.toNat := by omega
  have hkept : (b.toNat % 16 * 4 + low) % 4 = low := by omega
  rw [b64dElement_two (b64Value_b64CharOf _) hphase (by omega), hvalue, hpend, hbyte, hkept, BitVec.ofNat_toNat,
    BitVec.setWidth_eq]

/-- With the 2 high bits of `b` in PEND, the character of its other bits gives `b` and ends the group. -/
theorem b64dElement_gives_three (hphase : y.phase = .three) (hpend : y.pend.toNat = b.toNat / 64) :
    b64dElement y (b64CharOf (b.toNat % 64)) = .accepted ⟨.zero, 0⟩ [b] := by
  have hb := b.isLt
  have hvalue : (BitVec.ofNat 6 (b.toNat % 64)).toNat = b.toNat % 64 := toNat_ofNat_six (by omega)
  have hbyte : b.toNat / 64 * 64 + b.toNat % 64 = b.toNat := by omega
  rw [b64dElement_three (b64Value_b64CharOf _) hphase (by omega), hvalue, hpend, hbyte, BitVec.ofNat_toNat,
    BitVec.setWidth_eq]

end SplitByte

/-- The decoder has been fed the encoder's characters: both are in the same phase, and the decoder still owes the byte whose bits are split between
its PEND and the encoder's. -/
inductive Trails (x : B64Enc) (y : B64Dec) : List Byte → Prop
  | zero (hx : x.phase = .zero) (hy : y.phase = .zero) : Trails x y []
  | one (b : Byte) (hx : x.phase = .one) (hlow : x.pend = BitVec.ofNat 6 (b.toNat % 4 * 16))
      (hy : y.phase = .one) (hhigh : y.pend.toNat = b.toNat / 4) : Trails x y [b]
  | two (b : Byte) (hx : x.phase = .two) (hlow : x.pend = BitVec.ofNat 6 (b.toNat % 16 * 4))
      (hy : y.phase = .two) (hhigh : y.pend.toNat = b.toNat / 16) : Trails x y [b]

/-- The encoder is at `x` after `bytes` in all, and the decoder's answer `d` to its characters rejects none and lacks only what it still owes. -/
def Follows (x : B64Enc) (d : Fed B64Dec) (bytes : List Byte) : Prop :=
  d.flagged = false ∧ ∃ owed, Trails x d.regs owed ∧ bytes = d.bytes ++ owed

/-- The characters of one more byte give the decoder the byte it owes, and at the end of a group the new one too. -/
theorem Trails.element {x : B64Enc} {y : B64Dec} {owed : List Byte} (h : Trails x y owed) (b : Byte) :
    Follows (b64eElement x b).regs (feedWith b64dElement y (b64eElement x b).bytes) (owed ++ [b]) := by
  have hb := b.isLt
  cases h with
  | zero hx hy =>
    rw [b64eElement_zero b hx]
    simp only [Fed.accepted, feedWith_singleton]
    rw [b64dElement_zero (b64Value_b64CharOf _) hy, toNat_ofNat_six (by omega)]
    exact ⟨rfl, [b], .one b rfl rfl rfl (toNat_ofNat_six (by omega)), rfl⟩
  | one a hx hlow hy hhigh =>
    rw [b64eElement_one b hx, hlow, b64Char_or (m := 16) (k := 4) rfl _ (by omega)]
    simp only [Fed.accepted, feedWith_singleton]
    rw [b64dElement_gives_one a hy hhigh (by omega)]
    exact ⟨rfl, [b], .two b rfl rfl rfl (toNat_ofNat_six (by omega)), rfl⟩
  | two a hx hlow hy hhigh =>
    rw [b64eElement_two b hx, hlow, b64Char_or (m := 4) (k := 2) rfl _ (by omega)]
    simp only [Fed.accepted, feedWith_cons, feedWith_nil]
    rw [b64dElement_gives_two a hy hhigh (by omega), Fed.accepted, b64dElement_gives_three b rfl (toNat_ofNat_six (by omega))]
    exact ⟨rfl, [], .zero rfl rfl, rfl⟩

/-- The same for any number of bytes. -/
theorem Trails.feed {x : B64Enc} {y : B64Dec} {owed : List Byte} (h : Trails x y owed) (bytes : List Byte) :
    Follows (feedWith b64eElement x bytes).regs (feedWith b64dElement y (feedWith b64eElement x bytes).bytes)
      (owed ++ bytes) := by
  induction bytes generalizing x y owed with
  | nil => exact ⟨rfl, owed, h, by simp⟩
  | cons b rest ih =>
    obtain ⟨hflag, owed', htrails, hout⟩ := h.element b
    obtain ⟨hflag', owed'', htrails', hout'⟩ := ih htrails
    simp only [feedWith_cons, feedWith_append]
    refine ⟨by simp [hflag, hflag'], owed'', htrails', ?_⟩
    rw [List.append_assoc, ← hout', ← List.append_assoc, ← hout, List.append_assoc, List.singleton_append]

/-- The flush gives the decoder the byte it owes, and its padding, if there is any, is rejected (R77, R84). -/
theorem Trails.flush {x : B64Enc} {y : B64Dec} {owed : List Byte} (h : Trails x y owed) :
    (feedWith b64dElement y (flushChars x)).bytes = owed ∧
      ((feedWith b64dElement y (flushChars x)).flagged = false ↔ x.phase = .zero) := by
  cases h with
  | zero hx hy => simp [flushChars_zero hx, hx]
  | one b hx hlow hy hhigh =>
    have hchar := b64dElement_gives_one b hy hhigh (low := 0) (by omega)
    rw [Nat.add_zero, b64CharOf, ← hlow] at hchar
    simp [flushChars_one hx, feedWith_cons, hchar, Fed.accepted, b64dElement_pad, hx]
  | two b hx hlow hy hhigh =>
    have hchar := b64dElement_gives_two b hy hhigh (low := 0) (by omega)
    rw [Nat.add_zero, b64CharOf, ← hlow] at hchar
    simp [flushChars_two hx, feedWith_cons, hchar, Fed.accepted, b64dElement_pad, hx]

/-- How many bytes of the group the encoder holds (R24). -/
def EncPhase.number : EncPhase → Nat
  | .zero => 0
  | .one => 1
  | .two => 2

theorem EncPhase.number_eq_zero_iff (phase : EncPhase) : phase.number = 0 ↔ phase = .zero := by
  cases phase <;> decide

theorem b64eElement_phase (x : B64Enc) (b : Byte) : (b64eElement x b).regs.phase.number = (x.phase.number + 1) % 3 := by
  cases hphase : x.phase <;> simp only [b64eElement, encStep, hphase] <;> rfl

/-- PHASE counts the bytes modulo 3. -/
theorem feedWith_b64eElement_phase (x : B64Enc) (bytes : List Byte) :
    (feedWith b64eElement x bytes).regs.phase.number = (x.phase.number + bytes.length) % 3 := by
  induction bytes generalizing x with
  | nil => cases hphase : x.phase <;> simp [hphase, EncPhase.number]
  | cons b rest ih =>
    rw [feedWith_cons, ih, b64eElement_phase, List.length_cons]
    omega

/-- A decoder at PHASE 0 answers the text of `bytes` with `bytes`, and rejects padding exactly if the last group is partial. -/
theorem feedWith_oneshotText {y : B64Dec} (hy : y.phase = .zero) (bytes : List Byte) :
    (feedWith b64dElement y (oneshotText bytes)).bytes = bytes ∧
      ((feedWith b64dElement y (oneshotText bytes)).flagged = false ↔ bytes.length % 3 = 0) := by
  have hstart : Trails .initial y [] := .zero rfl hy
  obtain ⟨hflag, owed, htrails, hout⟩ := hstart.feed bytes
  obtain ⟨hbytes, hpadded⟩ := htrails.flush
  rw [oneshotText, feedWith_append]
  refine ⟨by rw [hbytes, ← hout, List.nil_append], ?_⟩
  have hphase := feedWith_b64eElement_phase .initial bytes
  rw [hflag, Bool.false_or, hpadded, ← EncPhase.number_eq_zero_iff, hphase]
  simp [B64Enc.initial, EncPhase.number]

theorem inputStatus_eq_ite {flag : Bool} {p : Prop} [Decidable p] (h : flag = false ↔ p) :
    inputStatus flag = if p then .ok else .okInputRejected := by
  cases flag <;> simp_all [inputStatus]

/-- Settles O27: the decoder trails the encoder byte by byte, and the flush gives it the last byte. -/
theorem base64RoundTrip : Obligations.Base64RoundTrip := by
  intro s1 s2 bytes text t1 _ hexec hlast hphase
  obtain rfl := Host.Outcome.next.inj ((exec_b64eOneshot bytes s1).symm.trans hexec)
  rw [getLast?_append_outputs] at hlast
  obtain rfl : oneshotText bytes = text := by simpa using hlast
  obtain ⟨hbytes, hflag⟩ := feedWith_oneshotText hphase bytes
  refine ⟨_, exec_b64dFeed _ s2, ?_⟩
  rw [getLast?_append_outputs, hbytes, inputStatus_eq_ite hflag]

end Sys2Proof.Machine

/-! PROOFS. The hex units: one element of a FEED in numbers, the commands on a state, and the round trip (41_hex.md R93 to R109). -/

namespace Sys2Proof.Machine

/-! ## What one command answers -/

/-- The window size that a CONFIG gives, 0 by default (R96, R104). -/
def windowSize (ps : List Word) : Nat := if 1 ≤ ps.length then (ps.getD 0 0).toNat else 0

theorem toNat_paramOr_zero (ps : List Word) : (paramOr ps 0 0).toNat = windowSize ps := by
  by_cases hgiven : 1 ≤ ps.length
  · rw [paramOr_given hgiven, windowSize, if_pos hgiven]
  · rw [paramOr_absent hgiven, windowSize, if_neg hgiven]
    rfl

theorem exec_hexeConfig (ps : List Word) (s : State) :
    exec (.hexeConfig ps) s =
      if s.params.hexWinMax < windowSize ps then
        .next { s with trace := s.trace ++ [.response { status := .cfgNoSpace, ret := .none }] }
      else
        .next { s with
          hexe := { size := windowSize ps, idx := 0, buf := s.hexe.buf }
          trace := s.trace ++ outputs .hexe [] .ok .none } := by
  rw [← toNat_paramOr_zero]
  rfl

theorem exec_hexdConfig (ps : List Word) (s : State) :
    exec (.hexdConfig ps) s =
      if s.params.hexWinMax < windowSize ps then
        .next { s with trace := s.trace ++ [.response { status := .cfgNoSpace, ret := .none }] }
      else
        .next { s with
          hexd := { size := windowSize ps, idx := 0, buf := s.hexd.buf, nph := false, nhi := 0 }
          trace := s.trace ++ outputs .hexd [] .ok .none } := by
  rw [← toNat_paramOr_zero]
  rfl

theorem exec_hexeFeed (bytes : List Byte) (s : State) :
    exec (.hexeFeed bytes) s =
      .next { s with
        hexe := (feedWith hexeElement s.hexe bytes).regs
        trace := s.trace ++ outputs .hexe (feedWith hexeElement s.hexe bytes).events .ok
          (.bytes (feedWith hexeElement s.hexe bytes).bytes) } :=
  complete_eq _ _ _ _ (s.setHexe _)

theorem exec_hexdFeed (chars : List Byte) (s : State) :
    exec (.hexdFeed chars) s =
      .next { s with
        hexd := (feedWith hexdElement s.hexd chars).regs
        trace := s.trace ++ outputs .hexd (feedWith hexdElement s.hexd chars).events
          (inputStatus (feedWith hexdElement s.hexd chars).flagged) (.bytes (feedWith hexdElement s.hexd chars).bytes) } :=
  complete_eq _ _ _ _ (s.setHexd _)

/-! ## One byte of the encoder in numbers (R93, R97) -/

/-- The character of a byte's high nibble. -/
def highChar (b : Byte) : Byte := hexChar (BitVec.ofNat 4 (b.toNat / 16))

/-- The character of a byte's low nibble. -/
def lowChar (b : Byte) : Byte := hexChar (BitVec.ofNat 4 (b.toNat % 16))

theorem hexText_cons (b : Byte) (rest : List Byte) : hexText (b :: rest) = highChar b :: lowChar b :: hexText rest := rfl

/-- The window after the two characters of `b` are written at IDX. -/
def HexEnc.written (x : HexEnc) (b : Byte) : List Byte := (x.buf.set x.idx (highChar b)).set (x.idx + 1) (lowChar b)

section Encoder
variable {x : HexEnc} (b : Byte)

theorem hexeElement_continuous (hsize : x.size = 0) :
    hexeElement x b =
      { regs := x, events := [.bytes [highChar b, lowChar b]], bytes := [highChar b, lowChar b], flagged := false } := by
  simp [hexeElement, highChar, lowChar, highNibble_eq, lowNibble_eq, hsize]

theorem hexeElement_fits (hsize : 0 < x.size) (hroom : x.idx + 2 ≠ 2 * x.size) :
    hexeElement x b =
      { regs := { size := x.size, idx := x.idx + 2, buf := x.written b }, events := [], bytes := [highChar b, lowChar b],
        flagged := false } := by
  simp [hexeElement, hexePut, HexEnc.written, highChar, lowChar, highNibble_eq, lowNibble_eq, hsize.ne', hroom]

theorem hexeElement_fills (hsize : 0 < x.size) (hfull : x.idx + 2 = 2 * x.size) :
    hexeElement x b =
      { regs := { size := x.size, idx := 0, buf := x.written b }, events := [.bytes ((x.written b).take (2 * x.size))],
        bytes := [highChar b, lowChar b], flagged := false } := by
  simp [hexeElement, hexePut, HexEnc.written, highChar, lowChar, highNibble_eq, lowNibble_eq, hsize.ne', hfull]

/-- In every mode RET gets the two characters. -/
theorem hexeElement_bytes : (hexeElement x b).bytes = [highChar b, lowChar b] := by
  rcases Nat.eq_zero_or_pos x.size with hsize | hsize
  · rw [hexeElement_continuous b hsize]
  · by_cases hfull : x.idx + 2 = 2 * x.size
    · rw [hexeElement_fills b hsize hfull]
    · rw [hexeElement_fits b hsize hfull]

end Encoder

/-- The RET of a FEED is the hex text of its bytes, from any registers. -/
theorem feedWith_hexeElement_bytes (x : HexEnc) (bytes : List Byte) : (feedWith hexeElement x bytes).bytes = hexText bytes := by
  induction bytes generalizing x with
  | nil => rfl
  | cons b rest ih =>
    rw [feedWith_cons, ih, hexeElement_bytes, hexText_cons]
    rfl

/-! ## One character of the decoder in numbers (R100, R101, R105) -/

/-- A character without a hex value drops the pending nibble (R100). -/
theorem hexdElement_rejected (x : HexDec) {c : Byte} (hvalue : hexValue c = none) :
    hexdElement x c = { regs := { x with nph := false, nhi := 0 }, events := [], bytes := [], flagged := true } := by
  simp [hexdElement, hvalue]

/-- The byte of the pending nibble and the new one. -/
def HexDec.joined (x : HexDec) (v : BitVec 4) : Byte := BitVec.ofNat 8 (x.nhi.toNat * 16 + v.toNat)

section Decoder
variable {x : HexDec} {c : Byte} {v : BitVec 4} (hvalue : hexValue c = some v)
include hvalue

theorem hexdElement_first (hnph : x.nph = false) :
    hexdElement x c = { regs := { x with nph := true, nhi := v }, events := [], bytes := [], flagged := false } := by
  simp [hexdElement, hvalue, hnph]

theorem hexdElement_continuous (hnph : x.nph = true) (hsize : x.size = 0) :
    hexdElement x c =
      { regs := { x with nph := false, nhi := 0 }, events := [.bytes [x.joined v]], bytes := [x.joined v], flagged := false } := by
  simp [hexdElement, HexDec.joined, nibbles_append, hvalue, hnph, hsize]

theorem hexdElement_fits (hnph : x.nph = true) (hsize : 0 < x.size) (hroom : x.idx + 1 ≠ x.size) :
    hexdElement x c =
      { regs := { size := x.size, idx := x.idx + 1, buf := x.buf.set x.idx (x.joined v), nph := false, nhi := 0 }
        events := [], bytes := [x.joined v], flagged := false } := by
  simp [hexdElement, hexdPut, HexDec.joined, nibbles_append, hvalue, hnph, hsize.ne', hroom]

theorem hexdElement_fills (hnph : x.nph = true) (hsize : 0 < x.size) (hfull : x.idx + 1 = x.size) :
    hexdElement x c =
      { regs := { size := x.size, idx := 0, buf := x.buf.set x.idx (x.joined v), nph := false, nhi := 0 }
        events := [.bytes ((x.buf.set x.idx (x.joined v)).take x.size)], bytes := [x.joined v], flagged := false } := by
  simp [hexdElement, hexdPut, HexDec.joined, nibbles_append, hvalue, hnph, hsize.ne', hfull]

/-- In every mode the second digit gives its byte and leaves no nibble pending. -/
theorem hexdElement_second (hnph : x.nph = true) :
    (hexdElement x c).bytes = [x.joined v] ∧ (hexdElement x c).flagged = false ∧ (hexdElement x c).regs.nph = false := by
  rcases Nat.eq_zero_or_pos x.size with hsize | hsize
  · simp [hexdElement_continuous hvalue hnph hsize]
  · by_cases hfull : x.idx + 1 = x.size
    · simp [hexdElement_fills hvalue hnph hsize hfull]
    · simp [hexdElement_fits hvalue hnph hsize hfull]

end Decoder

/-! ## The round trip (R108) -/

/-- With the high nibble of `b` pending, the low nibble's value gives `b`. -/
theorem HexDec.joined_nibbles {x : HexDec} {b : Byte} (hnhi : x.nhi = BitVec.ofNat 4 (b.toNat / 16)) :
    x.joined (BitVec.ofNat 4 (b.toNat % 16)) = b := by
  have hb := b.isLt
  apply BitVec.eq_of_toNat_eq
  simp only [HexDec.joined, hnhi, BitVec.toNat_ofNat]
  omega

/-- The two characters of a byte, in any case, give a decoder without a pending nibble that byte and nothing else in RET. -/
theorem feedWith_hexdElement_pair {y : HexDec} (hnph : y.nph = false) {b high low : Byte} (hhigh : upperCase high = highChar b)
    (hlow : upperCase low = lowChar b) :
    (feedWith hexdElement y [high, low]).bytes = [b] ∧ (feedWith hexdElement y [high, low]).flagged = false ∧
      (feedWith hexdElement y [high, low]).regs.nph = false := by
  have hfirst := hexdElement_first (hexValue_of_upperCase high _ hhigh) hnph
  have hsecond := hexdElement_second (hexValue_of_upperCase low _ hlow)
    (x := { y with nph := true, nhi := BitVec.ofNat 4 (b.toNat / 16) }) rfl
  rw [HexDec.joined_nibbles rfl] at hsecond
  simpa [feedWith_cons, hfirst] using hsecond

/-- The same for any number of bytes: the text in any case decodes to the bytes, and no character is rejected. -/
theorem feedWith_hexdElement_text {y : HexDec} (hnph : y.nph = false) {bytes variant : List Byte}
    (hcase : variant.map upperCase = hexText bytes) :
    (feedWith hexdElement y variant).bytes = bytes ∧ (feedWith hexdElement y variant).flagged = false := by
  induction bytes generalizing y variant with
  | nil =>
    obtain rfl : variant = [] := List.map_eq_nil_iff.mp hcase
    exact ⟨rfl, rfl⟩
  | cons b rest ih =>
    rw [hexText_cons] at hcase
    obtain ⟨high, tail, rfl, hhigh, htail⟩ := List.map_eq_cons_iff.mp hcase
    obtain ⟨low, variant', rfl, hlow, hrest⟩ := List.map_eq_cons_iff.mp htail
    obtain ⟨hpair, hflag, hnph'⟩ := feedWith_hexdElement_pair hnph hhigh hlow
    obtain ⟨hbytes, hflag'⟩ := ih hnph' hrest
    have hsplit := feedWith_append hexdElement y [high, low] variant'
    rw [List.cons_append, List.singleton_append] at hsplit
    rw [hsplit]
    exact ⟨by rw [hpair, hbytes, List.singleton_append], by rw [hflag, hflag', Bool.or_false]⟩

/-- Settles O35: the encoder's RET is the hex text of the bytes, and the decoder reads that text in any case. -/
theorem hexRoundTrip : Obligations.HexRoundTrip := by
  intro s1 s2 bytes text variant t1 _ hexec hlast hcase hnph
  obtain rfl := Host.Outcome.next.inj ((exec_hexeFeed bytes s1).symm.trans hexec)
  rw [getLast?_append_outputs, feedWith_hexeElement_bytes] at hlast
  obtain rfl : hexText bytes = text := by simpa using hlast
  obtain ⟨hbytes, hflag⟩ := feedWith_hexdElement_text hnph hcase
  refine ⟨_, exec_hexdFeed variant s2, ?_⟩
  rw [getLast?_append_outputs, hbytes, hflag]
  rfl

/-! ## CONFIG, FINALIZE and QUERY (R96, R98, R99, R104, R106, R107) -/

/-- Settles O29: both units refuse or set the window by the same comparison. -/
theorem hexConfigSetsTheWindow : Obligations.HexConfigSetsTheWindow := by
  refine ⟨⟨takesParams_of .hexe _ _ (fun _ => rfl) fun _ => rfl, takesParams_of .hexd _ _ (fun _ => rfl) fun _ => rfl⟩,
    fun s ps => ?_⟩
  have hhexe := exec_hexeConfig ps s
  have hhexd := exec_hexdConfig ps s
  by_cases hspace : s.params.hexWinMax < windowSize ps
  · rw [if_pos hspace] at hhexe hhexd
    exact (if_pos hspace).mpr ⟨hhexe, hhexd⟩
  · rw [if_neg hspace] at hhexe hhexd
    exact (if_neg hspace).mpr ⟨hhexe, hhexd⟩

theorem takesNoData_query {u : UnitId} {i : Instr} (hbuild : build u .query [] = some i) : TakesNoData u.number.toNat 4 i :=
  takesNoData_of u .query i (.inr (.inr (.inl rfl))) hbuild

/-- Settles O32: each of the four commands completes on the state with the window emptied. -/
theorem hexFinalizeAndQuery : Obligations.HexFinalizeAndQuery := by
  refine ⟨⟨isFinalize_of .hexe .hexeFin rfl, takesNoData_query (u := .hexe) rfl, isFinalize_of .hexd .hexdFin rfl,
    takesNoData_query (u := .hexd) rfl⟩, fun s => ?_⟩
  exact ⟨complete_eq .hexe [] .ok _ (s.setHexe _), complete_eq .hexe [] .ok _ (s.setHexe _),
    complete_eq .hexd [] .ok _ (s.setHexd _), complete_eq .hexd [] .ok _ (s.setHexd _)⟩

/-! ## FEED of one element, and in parts (R93, R100, R101, R109) -/

theorem exec_hexeFeed_one {s : State} {b : Byte} {fed : Fed HexEnc} (h : hexeElement s.hexe b = fed) :
    exec (.hexeFeed [b]) s =
      .next { s with hexe := fed.regs, trace := s.trace ++ outputs .hexe fed.events .ok (.bytes fed.bytes) } := by
  rw [exec_hexeFeed, feedWith_singleton, h]

theorem exec_hexdFeed_one {s : State} {c : Byte} {fed : Fed HexDec} (h : hexdElement s.hexd c = fed) :
    exec (.hexdFeed [c]) s =
      .next { s with
        hexd := fed.regs, trace := s.trace ++ outputs .hexd fed.events (inputStatus fed.flagged) (.bytes fed.bytes) } := by
  rw [exec_hexdFeed, feedWith_singleton, h]

/-- Settles O30: HEXE_PUT in numbers, and continuous mode. -/
theorem hexEncoderFeedOfOneByte : Obligations.HexEncoderFeedOfOneByte := by
  refine ⟨takesBytes_feed (u := .hexe) nofun fun _ => rfl, fun s b =>
    ⟨fun hsize => ?continuous, fun hsize hroom => ?fits, fun hsize hfull => ?fills⟩⟩
  case continuous => exact exec_hexeFeed_one (hexeElement_continuous b hsize)
  case fits => exact exec_hexeFeed_one (hexeElement_fits b hsize hroom)
  case fills => exact exec_hexeFeed_one (hexeElement_fills b hsize hfull)

/-- Settles O31: HEX_STEP for a rejected character, a first digit, and a second one in each mode of HEXD_PUT. -/
theorem hexDecoderFeedOfOneCharacter : Obligations.HexDecoderFeedOfOneCharacter := by
  refine ⟨takesBytes_feed (u := .hexd) nofun fun _ => rfl, fun s c => ⟨fun hnone => ?rejected, fun v hvalue =>
    ⟨fun hnph => ?first, fun hnph hsize => ?continuous, fun hnph hsize hroom => ?fits, fun hnph hsize hfull => ?fills⟩⟩⟩
  case rejected => exact exec_hexdFeed_one (hexdElement_rejected _ hnone)
  case first => exact exec_hexdFeed_one (hexdElement_first hvalue hnph)
  case continuous => exact exec_hexdFeed_one (hexdElement_continuous hvalue hnph hsize)
  case fits => exact exec_hexdFeed_one (hexdElement_fits hvalue hnph hsize hroom)
  case fills => exact exec_hexdFeed_one (hexdElement_fills hvalue hnph hsize hfull)

/-- Settles O33: both FEEDs fold their elements, so `feedWith_append` splits them, in either mode. -/
theorem hexFeedSplitsAnywhere : Obligations.HexFeedSplitsAnywhere := by
  refine ⟨fun s a b => ?encoder, fun s a b => ?decoder⟩
  case encoder =>
    have hwhole := exec_hexeFeed (a ++ b) s
    rw [feedWith_append] at hwhole
    exact ⟨_, _, _, _, _, _, _, exec_hexeFeed a s, exec_hexeFeed b _, hwhole, rfl, rfl, rfl,
      fun u => by cases u <;> rfl, rfl, rfl⟩
  case decoder =>
    have hwhole := exec_hexdFeed (a ++ b) s
    rw [feedWith_append] at hwhole
    exact ⟨_, _, _, _, _, _, _, _, _, exec_hexdFeed a s, exec_hexdFeed b _, hwhole, rfl, rfl, rfl,
      fun u => by cases u <;> rfl, rfl, rfl⟩

end Sys2Proof.Machine

/-! PROOFS. The bit-field units: the commands on a state, one element of a FEED in closed form, and the splitting of a FEED
(42_bitfield.md R110 to R126, R128). -/

namespace Sys2Proof.Machine

/-! ## What one command answers -/

theorem bitFieldUnsupported_eq_false_iff (x : BitField) : bitFieldUnsupported x = false ↔ x.Supported := by
  simp [bitFieldUnsupported, BitField.Supported]

theorem raise_eq (e : Status) (s : State) :
    raise e s = .next { s with trace := s.trace ++ [.response { status := e, ret := .none }] } :=
  raise_eq_next_iff.mpr rfl

section Feed
variable {s : State}

theorem exec_bfpFeed (hsup : s.bfp.Supported) (values : List Word) :
    exec (.bfpFeed values) s =
      .next { s with
        bfp := (feedWith bfpElement s.bfp values).regs
        trace := s.trace ++ outputs .bfp (feedWith bfpElement s.bfp values).events
          (streamStatus (feedWith bfpElement s.bfp values).flagged) .none } := by
  have hpass : ¬ bitFieldUnsupported s.bfp = true := by
    rw [Bool.not_eq_true, bitFieldUnsupported_eq_false_iff]
    exact hsup
  exact (if_neg hpass).trans (complete_eq _ _ _ _ (s.setBfp _))

theorem exec_bfuFeed (hsup : s.bfu.Supported) (bytes : List Byte) :
    exec (.bfuFeed bytes) s =
      .next { s with
        bfu := (feedWith bfuElement s.bfu bytes).regs
        trace := s.trace ++ outputs .bfu (feedWith bfuElement s.bfu bytes).events
          (streamStatus (feedWith bfuElement s.bfu bytes).flagged) .none } := by
  have hpass : ¬ bitFieldUnsupported s.bfu = true := by
    rw [Bool.not_eq_true, bitFieldUnsupported_eq_false_iff]
    exact hsup
  exact (if_neg hpass).trans (complete_eq _ _ _ _ (s.setBfu _))

theorem exec_bfpFeed_unsupported (hsup : ¬ s.bfp.Supported) (values : List Word) :
    exec (.bfpFeed values) s = raise .unsupported s :=
  if_pos (by rwa [← Bool.not_eq_false, bitFieldUnsupported_eq_false_iff])

theorem exec_bfuFeed_unsupported (hsup : ¬ s.bfu.Supported) (bytes : List Byte) :
    exec (.bfuFeed bytes) s = raise .unsupported s :=
  if_pos (by rwa [← Bool.not_eq_false, bitFieldUnsupported_eq_false_iff])

end Feed

section Config
variable {s : State} {ps : List Word} {r : BitField × Bool}

theorem exec_bfpConfig_refuses (h : bitFieldConfig s.bfp ps = none) : exec (.bfpConfig ps) s = raise .cfgInvalid s := by
  simp only [exec, execBfpConfig, h]

theorem exec_bfuConfig_refuses (h : bitFieldConfig s.bfu ps = none) : exec (.bfuConfig ps) s = raise .cfgInvalid s := by
  simp only [exec, execBfuConfig, h]

theorem exec_bfpConfig_sets (h : bitFieldConfig s.bfp ps = some r) :
    exec (.bfpConfig ps) s =
      .next { s with bfp := r.1, trace := s.trace ++ outputs .bfp [] (configStatus r.2) .none } := by
  simp only [exec, execBfpConfig, h]
  exact complete_eq .bfp [] _ .none (s.setBfp r.1)

theorem exec_bfuConfig_sets (h : bitFieldConfig s.bfu ps = some r) :
    exec (.bfuConfig ps) s =
      .next { s with bfu := r.1, trace := s.trace ++ outputs .bfu [] (configStatus r.2) .none } := by
  simp only [exec, execBfuConfig, h]
  exact complete_eq .bfu [] _ .none (s.setBfu r.1)

end Config

/-! ## The last line of both steps -/

theorem BitField.dropIfDone_eq (x : BitField) :
    x.dropIfDone = { x with acc := if x.done then 0 else x.acc, nb := if x.done then 0 else x.nb } := by
  unfold BitField.dropIfDone
  split <;> rfl

theorem BitField.dropIfDone_of_going {x : BitField} (h : x.done = false) : x.dropIfDone = x := if_neg (by simp [h])

/-! ## One value of `bfp.feed` (R113) -/

theorem bfpElement_going {x : BitField} (h : x.done = false) (v : Word) :
    bfpElement x v = { regs := (packStep x v).1, events := (packStep x v).2, bytes := [], flagged := false } :=
  if_neg (by simp [h])

/-- Settles O39: `packStep_eq` and the last line of the step are the statement's registers and words. -/
theorem packerEmitsTheWholeWords : Obligations.PackerEmitsTheWholeWords := by
  intro s v hs hsup hgoing
  have hexec := exec_bfpFeed hsup [v]
  rw [feedWith_singleton, bfpElement_going hgoing, packStep_eq s.params s.bfp v hs.bfp hgoing, BitField.dropIfDone_eq] at hexec
  exact hexec

/-! ## One byte of `bfu.feed` (R120) -/

/-- The unpacker with a byte appended to its pending bits. -/
def BitField.withByte (x : BitField) (b : Byte) : BitField := { x with acc := (x.acc <<< 8) ||| b.setWidth 64, nb := x.nb + 8 }

/-- The pending bits of a unit as a number: ACC without its dead bits (R32). -/
def BitField.pending (x : BitField) : Nat := x.acc.toNat % 2 ^ x.nb

theorem BitField.pending_withByte {x : BitField} (b : Byte) (h : x.nb ≤ 56) :
    (x.withByte b).pending = x.pending * 256 + b.toNat :=
  appendedByte_toNat x.acc x.nb b h

/-- Reading fields depends on the unit only through the widths that lie ahead; so it may start `k` fields later on. -/
theorem fieldsNumber_ahead {x y : BitField} {k : Nat} (h : ∀ j, widthAhead y j = widthAhead x (k + j)) (fs : List Nat) (j n : Nat) :
    fieldsNumber y fs j n = fieldsNumber x fs (k + j) n := by
  induction fs generalizing j n with
  | nil => rfl
  | cons f fs ih => rw [fieldsNumber, fieldsNumber, h, ih, Nat.add_assoc]

theorem fieldsNumber_withByte (x : BitField) (b : Byte) (fs : List Nat) :
    fieldsNumber (x.withByte b) fs 0 0 = fieldsNumber x fs 0 0 :=
  fieldsNumber_ahead (y := x.withByte b) (fun j => (congrArg (widthAhead x) (Nat.zero_add j)).symm) fs 0 0

theorem BitField.UnpackWf.nb_le {p : Params} {x : BitField} (hx : x.UnpackWf p) : x.nb ≤ 31 := by
  obtain ⟨⟨-, hwidths, -, hfidx, -, -⟩, hnb⟩ := hx
  have := hwidths _ (getD_mem_widths hfidx)
  omega

/-- What the loop leaves pending: the low bits of what was pending before it. -/
theorem Cuts.pending {x y : BitField} {fields : List Nat} (h : Cuts x fields y) : y.pending = x.pending % 2 ^ y.nb := by
  have hle : y.nb ≤ x.nb := by rw [h.nb]; omega
  rw [BitField.pending, BitField.pending, h.acc, Nat.mod_mod_of_dvd _ (Nat.pow_dvd_pow 2 hle)]

/-- Settles O40: the fields that `Cuts` gives for the pending bits with the byte appended, and then the last line of the step. -/
theorem unpackerCutsTheBitStream : Obligations.UnpackerCutsTheBitStream := by
  intro s b hs hsup hgoing
  obtain ⟨fields, y, helement, hcuts⟩ := bfuElement_cuts s.params s.bfu b hs.bfu hgoing
  change Cuts (s.bfu.withByte b) fields y at hcuts
  obtain ⟨hwidths, hofs, hreps, hws, hend⟩ := hcuts.config
  have hnb := hs.bfu.nb_le
  have hvalue := BitField.pending_withByte (x := s.bfu) b (by omega)
  have hexec := exec_bfuFeed hsup [b]
  rw [feedWith_singleton, helement, BitField.dropIfDone_eq] at hexec
  have hnumber := hcuts.number
  rw [fieldsNumber_withByte] at hnumber
  refine ⟨fields, _, hexec, hcuts.small, hcuts.enough, ?number, hwidths, hofs, hreps, hws, hend, hcuts.fidx, hcuts.cyc, hcuts.done,
    hcuts.bounded, hcuts.last, fun h => ?going, fun h => ?complete⟩
  case number => exact hnumber.trans (congrArg (· / _) hvalue)
  case going =>
    have h : y.done = false := h
    obtain ⟨hshort, -⟩ := hcuts.going h
    simp only [h, Bool.false_eq_true, if_false]
    exact ⟨hcuts.nb, hshort, hcuts.pending.trans (congrArg (· % _) hvalue)⟩
  case complete =>
    have h : y.done = true := h
    exact ⟨if_pos h, if_pos h, hcuts.complete h⟩

/-! ## CONFIG (R110) -/

theorem paramOr_eq_ite (ps : List Word) (k : Nat) (dflt : Word) :
    paramOr ps k dflt = if k < ps.length then ps.getD k 0 else dflt := by
  by_cases hgiven : k < ps.length
  · rw [paramOr_given hgiven, if_pos hgiven]
  · rw [paramOr_absent hgiven, if_neg hgiven]

/-- The field list L of a CONFIG. -/
def listParam (ps : List Word) : List Nat :=
  (if 0 < ps.length then (ps.getD 0 0).toNat else 8) :: (ps.drop 5).map BitVec.toNat

/-- The word size of a CONFIG, before the fallback. -/
def wsParam (ps : List Word) : Nat := if 3 < ps.length then (ps.getD 3 0).toNat else 8

/-- The endianness of a CONFIG, before the fallback. -/
def endParam (ps : List Word) : Nat := if 4 < ps.length then (ps.getD 4 0).toNat else 1

/-- The word sizes that R110 accepts. -/
abbrev WsLegal (ws : Nat) : Prop := ws = 8 ∨ ws = 16 ∨ ws = 24 ∨ ws = 32

/-- The endianness values that R110 accepts. -/
abbrev EndLegal (en : Nat) : Prop := en = 0 ∨ en = 1

/-- The registers that BF_CONFIG sets. -/
def configured (ps : List Word) (last : Word) : BitField :=
  { widths := listParam ps
    ofs := if 1 < ps.length then ps.getD 1 0 else 0
    reps := if 2 < ps.length then ps.getD 2 0 else 0
    ws := if WsLegal (wsParam ps) then wsParam ps else 8
    bigEnd := if EndLegal (endParam ps) then endParam ps == 1 else true
    acc := 0, nb := 0, fidx := 0, cyc := 0, done := false, last := last }

theorem fieldList_eq (ps : List Word) :
    (paramOr ps 0 8).toNat :: (ps.drop 5).map BitVec.toNat = listParam ps := by
  rw [paramOr_eq_ite, listParam]
  split <;> rfl

theorem paramWordSize_three (ps : List Word) :
    paramWordSize ps 3 = if WsLegal (wsParam ps) then (wsParam ps, false) else (8, true) := by
  rw [paramWordSize_eq, wsParam]
  split <;> rfl

theorem paramBit_four (ps : List Word) :
    paramBit ps 4 true = if EndLegal (endParam ps) then (endParam ps == 1, false) else (true, true) := by
  have hle : ∀ n : Nat, n ≤ 1 ↔ EndLegal n := by intro n; omega
  rw [paramBit_eq, endParam]
  split
  · simp only [hle]
  · rfl

theorem bitFieldConfig_of_illegal {ps : List Word} (h : ∃ w ∈ listParam ps, w < 1 ∨ 32 < w) (x : BitField) :
    bitFieldConfig x ps = none := by
  obtain ⟨w, hw, hbad⟩ := h
  unfold bitFieldConfig
  simp only [fieldList_eq]
  refine if_neg fun hall => ?_
  have hlegal := List.all_eq_true.mp hall w hw
  simp only [widthLegal, Bool.and_eq_true, decide_eq_true_eq] at hlegal
  omega

theorem bitFieldConfig_of_legal {ps : List Word} (h : ¬ ∃ w ∈ listParam ps, w < 1 ∨ 32 < w) (x : BitField) :
    bitFieldConfig x ps =
      some (configured ps x.last, !decide (WsLegal (wsParam ps) ∧ EndLegal (endParam ps))) := by
  have hall : (listParam ps).all widthLegal = true := by
    refine List.all_eq_true.mpr fun w hw => ?_
    have hlegal : ¬ (w < 1 ∨ 32 < w) := fun hbad => h ⟨w, hw, hbad⟩
    simp only [widthLegal, Bool.and_eq_true, decide_eq_true_eq]
    omega
  unfold bitFieldConfig
  simp only [fieldList_eq, paramWordSize_three, paramBit_four, hall, if_true]
  simp only [paramOr_eq_ite, configured]
  by_cases hws : WsLegal (wsParam ps) <;> by_cases hen : EndLegal (endParam ps) <;> simp [hws, hen]

theorem configStatus_not_decide (q : Prop) [Decidable q] : configStatus (!decide q) = if q then .ok else .okCfgDefaulted := by
  by_cases hq : q <;> simp [configStatus, hq]

/-- Settles O36: both units refuse or set the registers by the same configuration step. -/
theorem bitFieldConfigSetsOrRefuses : Obligations.BitFieldConfigSetsOrRefuses := by
  refine ⟨⟨takesParams_of .bfp _ _ (fun _ => Nat.add_comm _ 4) fun _ => rfl,
      takesParams_of .bfu _ _ (fun _ => Nat.add_comm _ 4) fun _ => rfl⟩,
    fun s ps => ?_⟩
  by_cases hbad : ∃ w ∈ listParam ps, w < 1 ∨ 32 < w
  · refine (if_pos hbad).mpr ⟨?_, ?_⟩
    · rw [exec_bfpConfig_refuses (bitFieldConfig_of_illegal hbad _), raise_eq]
    · rw [exec_bfuConfig_refuses (bitFieldConfig_of_illegal hbad _), raise_eq]
  · refine (if_neg hbad).mpr ⟨?_, ?_⟩
    · rw [exec_bfpConfig_sets (bitFieldConfig_of_legal hbad _), configStatus_not_decide]
      rfl
    · rw [exec_bfuConfig_sets (bitFieldConfig_of_legal hbad _), configStatus_not_decide]
      rfl

/-! ## The commands that are no FEED (R111) -/

/-- The command completes or is refused with a status other than UNSUPPORTED. -/
def AnswersSupported (r : StepResult) : Prop :=
  ∃ t resp, r = .next t ∧ t.trace.getLast? = some (.response resp) ∧ resp.status ≠ .unsupported

theorem AnswersSupported.completes (u : UnitId) {status : Status} (hstatus : status ≠ .unsupported) (ret : Ret) (s : State) :
    AnswersSupported (complete u [] status ret s) :=
  ⟨_, _, complete_eq u [] status ret s, getLast?_append_outputs _ _ _ _ _, hstatus⟩

theorem AnswersSupported.refuses {e : Status} (he : e ≠ .unsupported) (s : State) : AnswersSupported (raise e s) :=
  ⟨_, _, raise_eq e s, List.getLast?_concat, he⟩

theorem configStatus_ne_unsupported (defaulted : Bool) : configStatus defaulted ≠ .unsupported := by
  cases defaulted <;> exact nofun

theorem AnswersSupported.bfpConfig (ps : List Word) (s : State) : AnswersSupported (exec (.bfpConfig ps) s) := by
  cases hconfig : bitFieldConfig s.bfp ps with
  | none => exact exec_bfpConfig_refuses hconfig ▸ refuses (e := .cfgInvalid) nofun s
  | some r => exact ⟨_, _, exec_bfpConfig_sets hconfig, getLast?_append_outputs _ _ _ _ _, configStatus_ne_unsupported _⟩

theorem AnswersSupported.bfuConfig (ps : List Word) (s : State) : AnswersSupported (exec (.bfuConfig ps) s) := by
  cases hconfig : bitFieldConfig s.bfu ps with
  | none => exact exec_bfuConfig_refuses hconfig ▸ refuses (e := .cfgInvalid) nofun s
  | some r => exact ⟨_, _, exec_bfuConfig_sets hconfig, getLast?_append_outputs _ _ _ _ _, configStatus_ne_unsupported _⟩

/-- Of the commands of the two units only the FEEDs make the check of R111. -/
theorem exec_answersSupported (s : State) (i : Instr) (hunit : i.unit = .bfp ∨ i.unit = .bfu) (hbfp : ∀ vs, i ≠ .bfpFeed vs)
    (hbfu : ∀ bs, i ≠ .bfuFeed bs) : AnswersSupported (exec i s) := by
  cases i with
  | bfpDescribe | bfuDescribe | bfpReset | bfuReset | bfpFin | bfuFin | bfpQuery | bfuQuery => exact .completes (status := .ok) _ nofun _ _
  | bfpConfig ps => exact .bfpConfig ps s
  | bfuConfig ps => exact .bfuConfig ps s
  | bfpFeed vs => exact absurd rfl (hbfp vs)
  | bfuFeed bs => exact absurd rfl (hbfu bs)
  | _ => simp [Instr.unit] at hunit

/-- Settles O37: the guard of the two FEEDs, and no other command of the units has it. -/
theorem bitFieldFeedIsRefusedWhenUnsupported : Obligations.BitFieldFeedIsRefusedWhenUnsupported := by
  refine ⟨⟨takesValues_bfp, takesBytes_feed (u := .bfu) nofun fun _ => rfl⟩, fun s =>
    ⟨fun hsup values _ => ?_, fun hsup bytes _ => ?_, exec_answersSupported s⟩⟩
  · exact (exec_bfpFeed_unsupported hsup values).trans (raise_eq _ s)
  · exact (exec_bfuFeed_unsupported hsup bytes).trans (raise_eq _ s)

/-! ## FEED in parts (R128) -/

theorem advance_supported {x : BitField} (h : x.Supported) : x.advance.Supported := by
  unfold BitField.advance
  split <;> exact h

theorem dropIfDone_supported {x : BitField} (h : x.Supported) : x.dropIfDone.Supported := by
  rw [BitField.dropIfDone_eq]
  exact h

theorem packWords_supported (fuel : Nat) {x : BitField} (h : x.Supported) : (packWords fuel x).1.Supported := by
  induction fuel generalizing x with
  | zero => exact h
  | succ fuel ih =>
    rw [packWords]
    split
    · exact ih h
    · exact h

theorem unpackFields_supported (fuel : Nat) {x : BitField} (h : x.Supported) : (unpackFields fuel x).1.Supported := by
  induction fuel generalizing x with
  | zero => exact h
  | succ fuel ih =>
    rw [unpackFields]
    split
    · exact ih (advance_supported h)
    · exact h

theorem bfpElement_supported (x : BitField) (v : Word) (h : x.Supported) : (bfpElement x v).regs.Supported := by
  unfold bfpElement
  split
  · exact h
  · exact dropIfDone_supported (packWords_supported _ (advance_supported h))

theorem bfuElement_supported (x : BitField) (b : Byte) (h : x.Supported) : (bfuElement x b).regs.Supported := by
  unfold bfuElement
  split
  · exact h
  · exact dropIfDone_supported (unpackFields_supported _ h)

/-- Settles O42: both FEEDs fold their elements, so `feedWith_append` splits them; no element changes END or OFS, so the second part is
not refused. -/
theorem bitFieldFeedSplitsAnywhere : Obligations.BitFieldFeedSplitsAnywhere := by
  refine ⟨fun s a b hsup => ?packer, fun s a b hsup => ?unpacker⟩
  case packer =>
    have hwhole := exec_bfpFeed hsup (a ++ b)
    rw [feedWith_append] at hwhole
    have hsup' := feedWith_keeps bfpElement bfpElement_supported s.bfp a hsup
    exact ⟨_, _, _, _, _, _, _, exec_bfpFeed hsup a, exec_bfpFeed hsup' b, hwhole, rfl, rfl, rfl,
      fun u => by cases u <;> rfl, rfl, rfl⟩
  case unpacker =>
    have hwhole := exec_bfuFeed hsup (a ++ b)
    rw [feedWith_append] at hwhole
    have hsup' := feedWith_keeps bfuElement bfuElement_supported s.bfu a hsup
    exact ⟨_, _, _, _, _, _, _, exec_bfuFeed hsup a, exec_bfuFeed hsup' b, hwhole, rfl, rfl, rfl,
      fun u => by cases u <;> rfl, rfl, rfl⟩

/-! ## FINALIZE and QUERY (R118, R119, R125, R126) -/

/-- Settles O43: each of the four commands completes, the fins on the state with the stream registers cleared. -/
theorem bitFieldFinalizeAndQuery : Obligations.BitFieldFinalizeAndQuery := by
  refine ⟨⟨isFinalize_of .bfp .bfpFin rfl, takesNoData_query (u := .bfp) rfl, isFinalize_of .bfu .bfuFin rfl,
    takesNoData_query (u := .bfu) rfl⟩, fun s => ?_⟩
  exact ⟨complete_eq .bfp [] .ok .none (s.setBfp _), complete_eq .bfp [] .ok _ s,
    complete_eq .bfu [] .ok .none (s.setBfu _), complete_eq .bfu [] .ok _ s⟩

end Sys2Proof.Machine

/-! PROOFS. The bit-field round trip for any field list (42_bitfield.md R127): the values fed to the packer, the bytes between the units and
the fields that the unpacker emits are one bit string, read as numbers with the pending bits of the two units. -/

namespace Sys2Proof.Machine

/-! ## Bit strings as numbers -/

/-- The number that digits of `d` bits each append to the number `n`. -/
def readDigits (d n : Nat) (digits : List Nat) : Nat := digits.foldl (fun n q => n * 2 ^ d + q) n

theorem readDigits_cons (d n q : Nat) (digits : List Nat) : readDigits d n (q :: digits) = readDigits d (n * 2 ^ d + q) digits := rfl

theorem readDigits_append (d n : Nat) (l l' : List Nat) : readDigits d n (l ++ l') = readDigits d (readDigits d n l) l' :=
  List.foldl_append

/-- The number of a byte string, the first byte in the most significant bits (R47). -/
def bytesNumber (bytes : List Byte) : Nat := readDigits 8 0 (bytes.map BitVec.toNat)

theorem bytesNumber_append (a b : List Byte) : bytesNumber (a ++ b) = readDigits 8 (bytesNumber a) (b.map BitVec.toNat) := by
  rw [bytesNumber, List.map_append, readDigits_append, ← bytesNumber]

/-- The whole words of a bit string and the bits left are the bit string. -/
theorem readDigits_wordsOf {ws : Nat} (hws : 0 < ws) (n : Nat) : ∀ {nb a : Nat}, a < 2 ^ nb →
    readDigits ws n (wordsOf ws nb a) * 2 ^ (nb % ws) + a % 2 ^ (nb % ws) = n * 2 ^ nb + a := by
  intro nb
  induction nb using Nat.strong_induction_on generalizing n with
  | _ nb ih =>
    intro a ha
    by_cases hlong : ws ≤ nb
    · have hword : a / 2 ^ (nb - ws) < 2 ^ ws := by
        apply Nat.div_lt_of_lt_mul
        rwa [← Nat.pow_add, Nat.sub_add_cancel hlong]
      have hrest : a % 2 ^ (nb - ws) < 2 ^ (nb - ws) := Nat.mod_lt _ (Nat.two_pow_pos _)
      have hmod : nb % ws = (nb - ws) % ws := Nat.mod_eq_sub_mod hlong
      have hleft : a % 2 ^ (nb % ws) = a % 2 ^ (nb - ws) % 2 ^ ((nb - ws) % ws) := by
        rw [hmod, Nat.mod_mod_of_dvd _ (Nat.pow_dvd_pow 2 (Nat.mod_le _ _))]
      have hpow : 2 ^ nb = 2 ^ ws * 2 ^ (nb - ws) := by rw [← Nat.pow_add, Nat.add_sub_cancel' hlong]
      calc _ = (n * 2 ^ ws + a / 2 ^ (nb - ws)) * 2 ^ (nb - ws) + a % 2 ^ (nb - ws) := by
            rw [wordsOf_long a hws hlong, readDigits_cons, Nat.mod_eq_of_lt hword, hleft, hmod]
            exact ih (nb - ws) (by omega) _ hrest
        _ = n * 2 ^ nb + (2 ^ (nb - ws) * (a / 2 ^ (nb - ws)) + a % 2 ^ (nb - ws)) := by rw [hpow]; ring
        _ = n * 2 ^ nb + a := by rw [Nat.div_add_mod]
    · have hshort : nb < ws := by omega
      rw [wordsOf_short a hshort, Nat.mod_eq_of_lt hshort, Nat.mod_eq_of_lt ha]
      rfl

@[simp] theorem length_wordsOf (ws nb a : Nat) : (wordsOf ws nb a).length = nb / ws := by
  simp [wordsOf]

theorem lt_of_mem_wordsOf {ws nb a q : Nat} (h : q ∈ wordsOf ws nb a) : q < 2 ^ ws := by
  obtain ⟨k, -, rfl⟩ := List.mem_map.mp h
  exact Nat.mod_lt _ (Nat.two_pow_pos ws)

/-- The bytes of a word are its digits of 8 bits. -/
theorem map_toNat_bytesOfWord (ws q : Nat) : (bytesOfWord ws q).map BitVec.toNat = wordsOf 8 ws q := by
  simp only [bytesOfWord, wordsOf, List.map_map]
  refine List.map_congr_left fun k _ => ?_
  rw [Function.comp_apply, BitVec.toNat_ofNat, Nat.mul_succ, Nat.sub_add_eq, Nat.sub_right_comm]

/-- A string of words read word by word or byte by byte is the same number. -/
theorem readDigits_bytesOfWords {ws : Nat} (hws : 8 ∣ ws) (n : Nat) {words : List Nat} (hwords : ∀ q ∈ words, q < 2 ^ ws) :
    readDigits 8 n ((words.flatMap (bytesOfWord ws)).map BitVec.toNat) = readDigits ws n words := by
  induction words generalizing n with
  | nil => rfl
  | cons q words ih =>
    have hq := readDigits_wordsOf (ws := 8) (by omega) n (hwords q List.mem_cons_self)
    rw [Nat.mod_eq_zero_of_dvd hws, Nat.pow_zero, Nat.mul_one, Nat.mod_one, Nat.add_zero] at hq
    rw [List.flatMap_cons, List.map_append, readDigits_append, map_toNat_bytesOfWord, hq, readDigits_cons,
      ih _ fun q' h => hwords q' (List.mem_cons_of_mem q h)]

theorem length_bytesOfWords {ws : Nat} (hws : 8 ∣ ws) (words : List Nat) :
    8 * (words.flatMap (bytesOfWord ws)).length = ws * words.length := by
  have hword : ∀ q, (bytesOfWord ws q).length = ws / 8 := fun q => by simp [bytesOfWord]
  rw [List.length_flatMap, List.map_congr_left (fun q _ => hword q), List.map_const', List.sum_replicate, smul_eq_mul,
    Nat.mul_left_comm, Nat.mul_div_cancel' hws, Nat.mul_comm]

theorem eventBytes_append (a b : List Event) : eventBytes (a ++ b) = eventBytes a ++ eventBytes b := List.flatMap_append

theorem eventBytes_words (ws : Nat) (words : List Nat) :
    eventBytes (words.map fun m => .bytes (bytesOfWord ws m)) = words.flatMap (bytesOfWord ws) :=
  List.flatMap_map _ _ _

theorem eight_dvd_of_wsLegal {ws : Nat} (h : WsLegal ws) : 8 ∣ ws := by
  omega

/-- Dropping the low bits of a bit string. -/
theorem mul_two_pow_add_div {n r : Nat} (a : Nat) (h : r < 2 ^ n) : (a * 2 ^ n + r) / 2 ^ n = a := by
  rw [Nat.mul_comm, Nat.mul_add_div (Nat.two_pow_pos n), Nat.div_eq_of_lt h, Nat.add_zero]

theorem mul_two_pow_add_mod {n r : Nat} (a : Nat) (h : r < 2 ^ n) : (a * 2 ^ n + r) % 2 ^ n = r := by
  rw [Nat.mul_add_mod', Nat.mod_eq_of_lt h]

/-! ## Fields as numbers -/

theorem bitsAhead_succ (x : BitField) (m : Nat) : bitsAhead x (m + 1) = bitsAhead x m + widthAhead x m := by
  simp [bitsAhead, List.range_succ]

theorem bitsAhead_eq_sum (x : BitField) (m : Nat) : ((List.range m).map fun i => widthAhead x (0 + i)).sum = bitsAhead x m := by
  simp only [Nat.zero_add, bitsAhead]

theorem fieldsNumber_append (x : BitField) (fs gs : List Nat) (j n : Nat) :
    fieldsNumber x (fs ++ gs) j n = fieldsNumber x gs (j + fs.length) (fieldsNumber x fs j n) := by
  induction fs generalizing j n with
  | nil => rfl
  | cons f fs ih => rw [List.cons_append, fieldsNumber, ih, fieldsNumber, List.length_cons, Nat.add_assoc, Nat.add_comm 1]

theorem fieldsNumber_concat (x : BitField) (fs : List Nat) (f : Nat) :
    fieldsNumber x (fs ++ [f]) 0 0 = fieldsNumber x fs 0 0 * 2 ^ widthAhead x fs.length + f := by
  rw [fieldsNumber_append, fieldsNumber, fieldsNumber, Nat.zero_add]

/-- Every field of the list is below 2^(its width). -/
def FieldsFit (x : BitField) (fs : List Nat) : Prop := ∀ j, j < fs.length → fs.getD j 0 < 2 ^ widthAhead x j

theorem FieldsFit.nil (x : BitField) : FieldsFit x [] := nofun

theorem fieldsFit_append {x : BitField} {fs gs : List Nat} :
    FieldsFit x (fs ++ gs) ↔ FieldsFit x fs ∧ ∀ j, j < gs.length → gs.getD j 0 < 2 ^ widthAhead x (fs.length + j) := by
  constructor
  · refine fun h => ⟨fun j hj => ?_, fun j hj => ?_⟩
    · have := h j (by rw [List.length_append]; omega)
      rwa [List.getD_append _ _ _ _ hj] at this
    · have := h (fs.length + j) (by rw [List.length_append]; omega)
      rwa [List.getD_append_right _ _ _ _ (by omega), Nat.add_sub_cancel_left] at this
  · rintro ⟨hfs, hgs⟩ j hj
    rw [List.length_append] at hj
    by_cases hfirst : j < fs.length
    · rw [List.getD_append _ _ _ _ hfirst]
      exact hfs j hfirst
    · obtain ⟨i, rfl⟩ := Nat.exists_eq_add_of_le (Nat.le_of_not_lt hfirst)
      rw [List.getD_append_right _ _ _ _ (by omega), Nat.add_sub_cancel_left]
      exact hgs i (by omega)

theorem fieldsFit_concat {x : BitField} {fs : List Nat} {f : Nat} :
    FieldsFit x (fs ++ [f]) ↔ FieldsFit x fs ∧ f < 2 ^ widthAhead x fs.length := by
  rw [fieldsFit_append]
  refine and_congr_right fun _ => ⟨fun h => h 0 Nat.one_pos, fun h j hj => ?_⟩
  obtain rfl : j = 0 := Nat.lt_one_iff.mp hj
  exact h

/-- The leading bits of a string of fields are the number of its first fields. -/
theorem fieldsNumber_take {x : BitField} {fs : List Nat} (hfit : FieldsFit x fs) {m : Nat} (hm : m ≤ fs.length) :
    fieldsNumber x (fs.take m) 0 0 = fieldsNumber x fs 0 0 / 2 ^ (bitsAhead x fs.length - bitsAhead x m) := by
  induction fs using List.reverseRecOn with
  | nil =>
    obtain rfl : m = 0 := Nat.le_zero.mp hm
    simp [fieldsNumber]
  | append_singleton fs f ih =>
    obtain ⟨hfs, hf⟩ := fieldsFit_concat.mp hfit
    rw [List.length_append, List.length_singleton] at hm ⊢
    obtain rfl | hlt := Nat.eq_or_lt_of_le hm
    · rw [List.take_of_length_le (by simp), Nat.sub_self, Nat.pow_zero, Nat.div_one]
    · have hmono : bitsAhead x m ≤ bitsAhead x fs.length :=
        monotone_nat_of_le_succ (fun j => bitsAhead_succ x j ▸ Nat.le_add_right _ _) (Nat.le_of_lt_succ hlt)
      rw [List.take_append_of_le_length (Nat.le_of_lt_succ hlt), ih hfs (Nat.le_of_lt_succ hlt), fieldsNumber_concat,
        bitsAhead_succ, Nat.add_comm (bitsAhead x fs.length), Nat.add_sub_assoc hmono, Nat.pow_add, ← Nat.div_div_eq_div_mul,
        mul_two_pow_add_div _ hf]

/-- Fields are determined by their number. -/
theorem eq_of_fieldsNumber_eq {x : BitField} {fs gs : List Nat} (hfs : FieldsFit x fs) (hgs : FieldsFit x gs)
    (hlength : fs.length = gs.length) (h : fieldsNumber x fs 0 0 = fieldsNumber x gs 0 0) : fs = gs := by
  induction fs using List.reverseRecOn generalizing gs with
  | nil => exact (List.length_eq_zero_iff.mp hlength.symm).symm
  | append_singleton fs f ih =>
    obtain rfl | ⟨gs, g, rfl⟩ := List.eq_nil_or_concat' gs
    · simp at hlength
    · obtain ⟨hfront, hf⟩ := fieldsFit_concat.mp hfs
      obtain ⟨hfront', hg⟩ := fieldsFit_concat.mp hgs
      have hsame : fs.length = gs.length := by simpa using hlength
      rw [hsame] at hf
      rw [fieldsNumber_concat, fieldsNumber_concat, hsame] at h
      have hlast := congrArg (· % 2 ^ widthAhead x gs.length) h
      have hnumber := congrArg (· / 2 ^ widthAhead x gs.length) h
      simp only [mul_two_pow_add_mod _ hf, mul_two_pow_add_mod _ hg] at hlast
      simp only [mul_two_pow_add_div _ hf, mul_two_pow_add_div _ hg] at hnumber
      rw [ih hfront hfront' hsame hnumber, hlast]

/-! ## A unit in an endless stream -/

/-- `y` stands `k` fields further in the cycle than `x`, and its stream never completes (REPS = 0). -/
structure Moved (x : BitField) (k : Nat) (y : BitField) : Prop where
  widths : y.widths = x.widths
  fidx : y.fidx = (x.fidx + k) % x.widths.length
  reps : y.reps = 0
  going : y.done = false

theorem Moved.widthAhead {x y : BitField} {k : Nat} (h : Moved x k y) (j : Nat) : widthAhead y j = widthAhead x (k + j) := by
  simp only [Machine.widthAhead, h.widths, h.fidx, Nat.mod_add_mod, Nat.add_assoc]

theorem Moved.bitsAhead {x y : BitField} {k : Nat} (h : Moved x k y) (m : Nat) :
    bitsAhead x (k + m) = bitsAhead x k + bitsAhead y m := by
  induction m with
  | zero => rfl
  | succ m ih => rw [← Nat.add_assoc, bitsAhead_succ, bitsAhead_succ, ih, h.widthAhead, Nat.add_assoc]

theorem Moved.width {x y : BitField} {k : Nat} (h : Moved x k y) (hy : y.fidx < y.widths.length) : y.width = Machine.widthAhead x k := by
  rw [← widthAhead_zero y hy, h.widthAhead, Nat.add_zero]

/-- The unit after `m` more fields. -/
theorem Moved.trans {x y z : BitField} {k m : Nat} (h : Moved x k y) (hwidths : z.widths = y.widths)
    (hfidx : z.fidx = (y.fidx + m) % y.widths.length) (hreps : z.reps = y.reps) (hgoing : z.done = false) : Moved x (k + m) z where
  widths := hwidths.trans h.widths
  fidx := by rw [hfidx, h.widths, h.fidx, Nat.mod_add_mod, Nat.add_assoc]
  reps := hreps.trans h.reps
  going := hgoing

/-! ## The packer: values to bytes -/

/-- The fields that a list of values fills, from the current field of `x` on. -/
def packedFields (x : BitField) (values : List Word) : List Nat := values.mapIdx fun j v => v.toNat % 2 ^ widthAhead x j

theorem packedFields_concat (x : BitField) (values : List Word) (v : Word) :
    packedFields x (values ++ [v]) = packedFields x values ++ [v.toNat % 2 ^ widthAhead x values.length] :=
  List.mapIdx_concat

@[simp] theorem length_packedFields (x : BitField) (values : List Word) : (packedFields x values).length = values.length :=
  List.length_mapIdx

theorem fieldsFit_packedFields (x : BitField) (values : List Word) : FieldsFit x (packedFields x values) := by
  intro j hj
  rw [← List.getElem_eq_getD (h := hj)]
  simp only [packedFields, List.getElem_mapIdx]
  exact Nat.mod_lt _ (Nat.two_pow_pos _)

theorem nextIndex_eq_mod {x : BitField} (h : x.fidx < x.widths.length) : nextIndex x = (x.fidx + 1) % x.widths.length := by
  have hnext : nextIndex x < x.widths.length := by
    unfold nextIndex
    split <;> omega
  rw [← Nat.zero_add 1, ← nextIndex_add_mod x h, Nat.add_zero, Nat.mod_eq_of_lt hnext]

/-- One value of an endless stream: the whole words of the pending bits and the field are emitted, and the bits left stay. -/
theorem bfpElement_endless {p : Params} {y : BitField} (v : Word) (hy : y.PackWf p) (hreps : y.reps = 0) (hgoing : y.done = false) :
    ∃ z : BitField,
      bfpElement y v =
        { regs := z
          events := (wordsOf y.ws (y.nb + y.width) (y.acc.toNat * 2 ^ y.width + v.toNat % 2 ^ y.width)).map
            fun m => .bytes (bytesOfWord y.ws m)
          bytes := [], flagged := false } ∧
      Moved y 1 z ∧ z.ws = y.ws ∧ z.nb = (y.nb + y.width) % y.ws ∧
      z.acc.toNat = (y.acc.toNat * 2 ^ y.width + v.toNat % 2 ^ y.width) % 2 ^ z.nb := by
  have hendless : decide (y.fidx + 1 = y.widths.length ∧ y.reps ≠ 0 ∧ y.cyc + 1 = y.reps) = false := by simp [hreps]
  rw [bfpElement_going hgoing, packStep_eq p y v hy hgoing, hendless, BitField.dropIfDone_of_going (by rfl)]
  obtain ⟨⟨-, -, hws, hfidx, -, -⟩, -, -⟩ := hy
  refine ⟨_, rfl, ⟨rfl, nextIndex_eq_mod hfidx, hreps, rfl⟩, rfl, rfl, ?_⟩
  have hnb : (y.nb + y.width) % y.ws < y.ws := Nat.mod_lt _ (by omega)
  exact Nat.mod_eq_of_lt (Nat.lt_of_lt_of_le (Nat.mod_lt _ (Nat.two_pow_pos _)) (Nat.pow_le_pow_right Nat.two_pos (by omega)))

/-- What the packer has done with `values` from `x` on: its bytes and its pending bits are the bit string of the fields. -/
structure Packs (x : BitField) (values : List Word) (fed : Fed BitField) : Prop where
  moved : Moved x values.length fed.regs
  ws : fed.regs.ws = x.ws
  nb : fed.regs.nb = bitsAhead x values.length % x.ws
  bits : 8 * (eventBytes fed.events).length + fed.regs.nb = bitsAhead x values.length
  number : bytesNumber (eventBytes fed.events) * 2 ^ fed.regs.nb + fed.regs.acc.toNat = fieldsNumber x (packedFields x values) 0 0
  accepted : fed.flagged = false

theorem Packs.start {p : Params} {x : BitField} (hx : x.PackWf p) (hreps : x.reps = 0) (hgoing : x.done = false) (hempty : x.nb = 0) :
    Packs x [] (feedWith bfpElement x []) where
  moved := by
    obtain ⟨⟨-, -, -, hfidx, -, -⟩, -, -⟩ := hx
    exact ⟨rfl, (Nat.mod_eq_of_lt hfidx).symm, hreps, hgoing⟩
  ws := rfl
  nb := hempty.trans (Nat.zero_mod _).symm
  bits := congrArg (8 * 0 + ·) hempty
  number := by
    obtain ⟨-, -, hacc⟩ := hx
    rw [hempty] at hacc
    simpa [eventBytes, bytesNumber, readDigits, packedFields, fieldsNumber] using Nat.lt_one_iff.mp hacc
  accepted := rfl

theorem Packs.element {p : Params} {x : BitField} {values : List Word} {fed : Fed BitField} (h : Packs x values fed)
    (hwf : fed.regs.PackWf p) (v : Word) :
    Packs x (values ++ [v])
      { regs := (bfpElement fed.regs v).regs
        events := fed.events ++ (bfpElement fed.regs v).events
        bytes := fed.bytes ++ (bfpElement fed.regs v).bytes
        flagged := fed.flagged || (bfpElement fed.regs v).flagged } := by
  obtain ⟨z, helement, hmoved, hws, hnb, hacc⟩ := bfpElement_endless v hwf h.moved.reps h.moved.going
  obtain ⟨⟨-, hwidths, hlegal, hfidx, -, -⟩, hshort, hbound⟩ := hwf
  have hwidth := h.moved.width hfidx
  have hbytes := eight_dvd_of_wsLegal hlegal
  have hmax : fed.regs.width ≤ 32 := (hwidths _ (getD_mem_widths hfidx)).2
  have hbits : bitsAhead x (values.length + 1) = bitsAhead x values.length + fed.regs.width := by rw [bitsAhead_succ, hwidth]
  have hvalue := (appended_toNat fed.regs.acc fed.regs.nb fed.regs.width v hbound (by omega)).2
  rw [helement]
  constructor
  case moved =>
    rw [List.length_append, List.length_singleton]
    exact h.moved.trans hmoved.widths hmoved.fidx (hmoved.reps.trans h.moved.reps.symm) hmoved.going
  case ws => exact hws.trans h.ws
  case nb =>
    rw [List.length_append, List.length_singleton, hbits, ← Nat.mod_add_mod, ← h.nb, ← h.ws]
    exact hnb
  case bits =>
    rw [List.length_append, List.length_singleton, hbits, ← h.bits, eventBytes_append, eventBytes_words, List.length_append,
      Nat.mul_add, length_bytesOfWords hbytes, length_wordsOf, hnb, Nat.add_assoc, Nat.div_add_mod, Nat.add_assoc]
  case number =>
    have hwords := readDigits_wordsOf (ws := fed.regs.ws) (by omega) (bytesNumber (eventBytes fed.events)) hvalue
    rw [eventBytes_append, eventBytes_words, bytesNumber_append, readDigits_bytesOfWords hbytes _ fun q => lt_of_mem_wordsOf, hacc, hnb,
      hwords, packedFields_concat, fieldsNumber_concat, length_packedFields, ← hwidth, ← h.number, Nat.pow_add]
    ring
  case accepted => exact congrArg (· || false) h.accepted

theorem feedWith_bfpElement_wf {p : Params} {x : BitField} (hx : x.PackWf p) (values : List Word) :
    (feedWith bfpElement x values).regs.PackWf p :=
  feedWith_keeps bfpElement (fun y v hy => (bfpElement_keeps p y v hy).1) x values hx

/-- The packer on any list of values, from a unit with nothing pending. -/
theorem feedWith_bfpElement_packs {p : Params} {x : BitField} (hx : x.PackWf p) (hreps : x.reps = 0) (hgoing : x.done = false)
    (hempty : x.nb = 0) (values : List Word) : Packs x values (feedWith bfpElement x values) := by
  induction values using List.reverseRecOn with
  | nil => exact Packs.start hx hreps hgoing hempty
  | append_singleton values v ih =>
    rw [feedWith_append, feedWith_singleton]
    exact ih.element (feedWith_bfpElement_wf hx values) v

/-- The bytes of the packer are the whole words of its bit string. -/
theorem Packs.whole {x : BitField} {values : List Word} {fed : Fed BitField} (h : Packs x values fed) :
    8 * (eventBytes fed.events).length = bitsAhead x values.length / x.ws * x.ws := by
  have hbits := h.bits
  have hdiv := Nat.div_add_mod' (bitsAhead x values.length) x.ws
  rw [h.nb] at hbits
  omega

/-! ## The unpacker: bytes to fields -/

/-- What the unpacker has done with `bytes` from `x` on: its fields and its pending bits are the bit string of the bytes. -/
structure Unpacks (x : BitField) (bytes : List Byte) (fields : List Nat) (fed : Fed BitField) : Prop where
  moved : Moved x fields.length fed.regs
  events : fed.events = fields.map fun f => .value (BitVec.ofNat 32 f)
  fit : FieldsFit x fields
  bits : bitsAhead x fields.length + fed.regs.nb = 8 * bytes.length
  number : fieldsNumber x fields 0 0 * 2 ^ fed.regs.nb + fed.regs.pending = bytesNumber bytes
  accepted : fed.flagged = false

/-- `x` may be any unit with the same fields ahead as the unpacker `y` that is fed. -/
theorem Unpacks.start {x y : BitField} (hmoved : Moved x 0 y) (hempty : y.nb = 0) : Unpacks x [] [] (feedWith bfuElement y []) where
  moved := hmoved
  events := rfl
  fit := .nil x
  bits := congrArg (0 + ·) hempty
  number := by
    have hpending : y.pending = 0 := by rw [BitField.pending, hempty, Nat.pow_zero, Nat.mod_one]
    simp [fieldsNumber, hpending, bytesNumber, readDigits]
  accepted := rfl

theorem Cuts.number_add {x y : BitField} {fields : List Nat} (h : Cuts x fields y) :
    fieldsNumber x fields 0 0 * 2 ^ y.nb + y.pending = x.pending := by
  rw [h.number, ← h.nb, h.pending]
  exact Nat.div_add_mod' _ _

theorem Unpacks.element {p : Params} {x : BitField} {bytes : List Byte} {fields : List Nat} {fed : Fed BitField}
    (h : Unpacks x bytes fields fed) (hwf : fed.regs.UnpackWf p) (b : Byte) :
    ∃ more, Unpacks x (bytes ++ [b]) (fields ++ more)
      { regs := (bfuElement fed.regs b).regs
        events := fed.events ++ (bfuElement fed.regs b).events
        bytes := fed.bytes ++ (bfuElement fed.regs b).bytes
        flagged := fed.flagged || (bfuElement fed.regs b).flagged } := by
  obtain ⟨more, z, helement, hcuts⟩ := bfuElement_cuts p fed.regs b hwf h.moved.going
  change Cuts (fed.regs.withByte b) more z at hcuts
  obtain ⟨hwidths, -, hreps, -, -⟩ := hcuts.config
  have hreps : z.reps = fed.regs.reps := hreps
  have hgoing : z.done = false := by
    have hnever : (fed.regs.withByte b).reps = 0 := h.moved.reps
    rw [hcuts.done, hnever]
    rfl
  have henough : bitsAhead fed.regs more.length ≤ fed.regs.nb + 8 := hcuts.enough
  have hnb : z.nb = fed.regs.nb + 8 - bitsAhead fed.regs more.length := hcuts.nb
  have hnumber := hcuts.number_add
  rw [fieldsNumber_withByte, BitField.pending_withByte b (by have := hwf.nb_le; omega)] at hnumber
  rw [helement, BitField.dropIfDone_of_going hgoing]
  refine ⟨more, ?_⟩
  constructor
  case moved =>
    rw [List.length_append]
    exact h.moved.trans hwidths hcuts.fidx hreps hgoing
  case events => rw [h.events, List.map_append]
  case fit => exact fieldsFit_append.mpr ⟨h.fit, fun j hj => h.moved.widthAhead j ▸ hcuts.small j hj⟩
  case bits =>
    have hbits := h.bits
    rw [List.length_append, List.length_append, List.length_singleton, h.moved.bitsAhead, hnb]
    omega
  case number =>
    have hsplit : fieldsNumber x (fields ++ more) 0 0 =
        fieldsNumber x fields 0 0 * 2 ^ bitsAhead fed.regs more.length + fieldsNumber fed.regs more 0 0 := by
      rw [fieldsNumber_append, Nat.zero_add, ← Nat.add_zero fields.length, ← fieldsNumber_ahead h.moved.widthAhead,
        fieldsNumber_from, bitsAhead_eq_sum]
    have hpow : 2 ^ bitsAhead fed.regs more.length * 2 ^ z.nb = 2 ^ fed.regs.nb * 256 := by
      rw [← Nat.pow_add, hnb, Nat.add_sub_cancel' henough, Nat.pow_add]
    calc _ = fieldsNumber x fields 0 0 * (2 ^ bitsAhead fed.regs more.length * 2 ^ z.nb) +
          (fieldsNumber fed.regs more 0 0 * 2 ^ z.nb + z.pending) := by rw [hsplit]; ring
      _ = (fieldsNumber x fields 0 0 * 2 ^ fed.regs.nb + fed.regs.pending) * 256 + b.toNat := by rw [hpow, hnumber]; ring
      _ = bytesNumber (bytes ++ [b]) := by rw [h.number, bytesNumber_append]; rfl
  case accepted => exact congrArg (· || false) h.accepted

theorem feedWith_bfuElement_wf {p : Params} {x : BitField} (hx : x.UnpackWf p) (bytes : List Byte) :
    (feedWith bfuElement x bytes).regs.UnpackWf p :=
  feedWith_keeps bfuElement (fun y b hy => (bfuElement_keeps p y b hy).1) x bytes hx

/-- The unpacker on any byte string, from a unit with nothing pending. -/
theorem feedWith_bfuElement_unpacks {p : Params} {x y : BitField} (hy : y.UnpackWf p) (hmoved : Moved x 0 y) (hempty : y.nb = 0)
    (bytes : List Byte) : ∃ fields, Unpacks x bytes fields (feedWith bfuElement y bytes) := by
  induction bytes using List.reverseRecOn with
  | nil => exact ⟨[], .start hmoved hempty⟩
  | append_singleton bytes b ih =>
    obtain ⟨fields, h⟩ := ih
    obtain ⟨more, h'⟩ := h.element (feedWith_bfuElement_wf hy bytes) b
    rw [feedWith_append, feedWith_singleton]
    exact ⟨_, h'⟩

/-- The unpacker stops within a field: one more field does not fit into the bytes. -/
theorem Unpacks.short {p : Params} {x : BitField} {bytes : List Byte} {fields : List Nat} {fed : Fed BitField}
    (h : Unpacks x bytes fields fed) (hwf : fed.regs.UnpackWf p) : 8 * bytes.length < bitsAhead x (fields.length + 1) := by
  obtain ⟨⟨-, -, -, hfidx, -, -⟩, hnb⟩ := hwf
  have hnb : fed.regs.nb < fed.regs.width := hnb
  rw [h.moved.width hfidx] at hnb
  rw [bitsAhead_succ, ← h.bits]
  omega

/-! ## The round trip -/

theorem bitsAhead_strictMono {x : BitField} (hwidths : ∀ w ∈ x.widths, 1 ≤ w ∧ w ≤ 32) (hfidx : x.fidx < x.widths.length) :
    StrictMono (bitsAhead x) := by
  refine strictMono_nat_of_lt_succ fun m => ?_
  have hpos : 1 ≤ widthAhead x m := (hwidths _ (getD_mem_widths (Nat.mod_lt _ (by omega)))).1
  rw [bitsAhead_succ]
  omega

/-- The unpacker's fields are the first of the packer's: both are the leading bits of the one bit string. -/
theorem Unpacks.fields_eq {p : Params} {x : BitField} {values : List Word} {packed fed : Fed BitField} {fields : List Nat}
    (hu : Unpacks x (eventBytes packed.events) fields fed) (hp : Packs x values packed) (hwf : packed.regs.PackWf p)
    (hle : fields.length ≤ values.length) : fields = (packedFields x values).take fields.length := by
  obtain ⟨-, -, hbound⟩ := hwf
  have hpending : fed.regs.pending < 2 ^ fed.regs.nb := Nat.mod_lt _ (Nat.two_pow_pos _)
  have hfit := fieldsFit_packedFields x values
  have hlength := length_packedFields x values
  have hbits : bitsAhead x values.length - bitsAhead x fields.length = packed.regs.nb + fed.regs.nb := by
    have := hp.bits
    have := hu.bits
    omega
  have htake := (List.take_append_drop fields.length (packedFields x values)).symm ▸ hfit
  refine eq_of_fieldsNumber_eq hu.fit (fieldsFit_append.mp htake).1 (by rw [List.length_take, hlength, Nat.min_eq_left hle]) ?_
  rw [fieldsNumber_take hfit (by rwa [hlength]), hlength, hbits, Nat.pow_add, ← Nat.div_div_eq_div_mul, ← hp.number,
    mul_two_pow_add_div _ hbound, ← hu.number, mul_two_pow_add_div _ hpending]

/-- The first `m` fields of the packer, said field by field. -/
theorem take_packedFields (x : BitField) {values : List Word} {m : Nat} (hm : m ≤ values.length) :
    (packedFields x values).take m = (List.range m).map fun j => (values.getD j 0).toNat % 2 ^ widthAhead x j := by
  refine List.ext_getElem (by simp [hm]) fun j hj hj' => ?_
  have hvalue : j < values.length := by
    rw [List.length_map, List.length_range] at hj'
    omega
  simp [packedFields, hvalue]

/-- The round trip on the registers: `x` packs and then `y`, with the same fields ahead, unpacks (R127). -/
theorem unpack_pack {p : Params} {x y : BitField} (hx : x.PackWf p) (hy : y.UnpackWf p) (hreps : x.reps = 0) (hgoing : x.done = false)
    (hempty : x.nb = 0) (hmoved : Moved x 0 y) (hempty' : y.nb = 0) (values : List Word) :
    ∃ m, m ≤ values.length ∧
      bitsAhead x m ≤ bitsAhead x values.length / x.ws * x.ws ∧ bitsAhead x values.length / x.ws * x.ws < bitsAhead x (m + 1) ∧
      (feedWith bfpElement x values).flagged = false ∧
      (feedWith bfuElement y (eventBytes (feedWith bfpElement x values).events)).events =
        ((List.range m).map fun j => .value (BitVec.ofNat 32 ((values.getD j 0).toNat % 2 ^ widthAhead x j))) ∧
      (feedWith bfuElement y (eventBytes (feedWith bfpElement x values).events)).flagged = false ∧
      (x.ws ∣ bitsAhead x values.length → m = values.length) := by
  have hp := feedWith_bfpElement_packs hx hreps hgoing hempty values
  obtain ⟨fields, hu⟩ := feedWith_bfuElement_unpacks hy hmoved hempty' (eventBytes (feedWith bfpElement x values).events)
  have hpwf := feedWith_bfpElement_wf hx values
  have huwf := feedWith_bfuElement_wf hy (eventBytes (feedWith bfpElement x values).events)
  obtain ⟨⟨-, hwidths, -, hfidx, -, -⟩, -, -⟩ := hx
  have hfits : bitsAhead x fields.length ≤ bitsAhead x values.length := by
    have := hp.bits
    have := hu.bits
    omega
  have hmono := bitsAhead_strictMono hwidths hfidx
  have hle := hmono.le_iff_le.mp hfits
  have hshort := hp.whole ▸ hu.short huwf
  refine ⟨fields.length, hle, ?fits, hshort, hp.accepted, ?events, hu.accepted, fun hdvd => ?whole⟩
  case fits =>
    rw [← hp.whole, ← hu.bits]
    exact Nat.le_add_right _ _
  case events =>
    rw [hu.events, hu.fields_eq hp hpwf hle, List.length_take, length_packedFields, Nat.min_eq_left hle, take_packedFields x hle,
      List.map_map]
    rfl
  case whole =>
    rw [Nat.div_mul_cancel hdvd] at hshort
    exact Nat.le_antisymm hle (Nat.lt_succ_iff.mp (hmono.lt_iff_lt.mp hshort))

/-- The parameters of a CONFIG with the field list `first :: others`, no start offset, endless cycles and big-endian (R110). -/
def listConfig (first : Nat) (others : List Nat) (ws : Nat) : List Word :=
  [BitVec.ofNat 32 first, 0, 0, BitVec.ofNat 32 ws, 1] ++ others.map (BitVec.ofNat 32)

/-- A unit newly configured so. -/
def BitField.fresh (widths : List Nat) (ws : Nat) (last : Word) : BitField :=
  { widths := widths, ofs := 0, reps := 0, ws := ws, bigEnd := true, acc := 0, nb := 0, fidx := 0, cyc := 0, done := false, last := last }

section ListConfig
variable {first : Nat} {others : List Nat} (hwidths : ∀ w ∈ first :: others, 1 ≤ w ∧ w ≤ 32)
include hwidths

theorem listParam_listConfig (ws : Nat) : listParam (listConfig first others ws) = first :: others := by
  have hword : ∀ w ∈ first :: others, (BitVec.ofNat 32 w).toNat = w := fun w hw => by
    have := hwidths w hw
    rw [BitVec.toNat_ofNat]
    omega
  have hothers : (others.map (BitVec.ofNat 32)).map BitVec.toNat = others := by
    rw [List.map_map]
    exact (List.map_congr_left fun w hw => hword w (List.mem_cons_of_mem _ hw)).trans (List.map_id others)
  exact congrArg₂ List.cons (hword first List.mem_cons_self) hothers

theorem bitFieldConfig_listConfig {ws : Nat} (hws : WsLegal ws) (x : BitField) :
    bitFieldConfig x (listConfig first others ws) = some (.fresh (first :: others) ws x.last, false) := by
  have hlist := listParam_listConfig hwidths ws
  have hsize : wsParam (listConfig first others ws) = ws := by
    simp [wsParam, listConfig]
    omega
  have hend : endParam (listConfig first others ws) = 1 := by simp [endParam, listConfig]
  have hlegal : ¬ ∃ w ∈ listParam (listConfig first others ws), w < 1 ∨ 32 < w := by
    rintro ⟨w, hw, hbad⟩
    have := hwidths w (hlist ▸ hw)
    omega
  have hofs : (if 1 < (listConfig first others ws).length then (listConfig first others ws).getD 1 0 else 0) = 0 := ite_self _
  have hreps : (if 2 < (listConfig first others ws).length then (listConfig first others ws).getD 2 0 else 0) = 0 := ite_self _
  have hend' : EndLegal 1 := .inr rfl
  rw [bitFieldConfig_of_legal hlegal, configured, hlist, hsize, hend, hofs, hreps, if_pos hws, if_pos hend',
    decide_eq_true ⟨hws, hend'⟩]
  rfl

/-- A unit newly configured so is legal in a build that admits the list. -/
theorem fresh_wf {ws : Nat} (hws : WsLegal ws) (last : Word) :
    (BitField.fresh (first :: others) ws last).PackWf { hexWinMax := 1, fieldListMax := others.length + 1 } ∧
      (BitField.fresh (first :: others) ws last).UnpackWf { hexWinMax := 1, fieldListMax := others.length + 1 } :=
  bitFieldConfig_keeps (x := .fresh [] 8 last) (by simp [listConfig]) (Nat.le_add_left 1 _) (bitFieldConfig_listConfig hwidths hws _)

theorem exec_bfpConfig_list {ws : Nat} (hws : WsLegal ws) (s : State) :
    ∃ t, exec (.bfpConfig (listConfig first others ws)) s = .next t ∧ t.bfp = .fresh (first :: others) ws s.bfp.last :=
  ⟨_, exec_bfpConfig_sets (bitFieldConfig_listConfig hwidths hws s.bfp), rfl⟩

theorem exec_bfuConfig_list {ws : Nat} (hws : WsLegal ws) (s : State) :
    ∃ t, exec (.bfuConfig (listConfig first others ws)) s = .next t ∧ t.bfu = .fresh (first :: others) ws s.bfu.last :=
  ⟨_, exec_bfuConfig_sets (bitFieldConfig_listConfig hwidths hws s.bfu), rfl⟩

end ListConfig

theorem exec_bfpFeed_accepted {s : State} (hsup : s.bfp.Supported) {values : List Word}
    (hpass : (feedWith bfpElement s.bfp values).flagged = false) :
    ∃ t, exec (.bfpFeed values) s = .next t ∧
      t.trace = s.trace ++ outputs .bfp (feedWith bfpElement s.bfp values).events .ok .none :=
  ⟨_, exec_bfpFeed hsup values, by rw [hpass]; rfl⟩

theorem exec_bfuFeed_accepted {s : State} (hsup : s.bfu.Supported) {bytes : List Byte}
    (hpass : (feedWith bfuElement s.bfu bytes).flagged = false) :
    ∃ t, exec (.bfuFeed bytes) s = .next t ∧
      t.trace = s.trace ++ outputs .bfu (feedWith bfuElement s.bfu bytes).events .ok .none :=
  ⟨_, exec_bfuFeed hsup bytes, by rw [hpass]; rfl⟩

theorem widthAhead_fresh (first : Nat) (others : List Nat) (ws : Nat) (last : Word) :
    widthAhead (.fresh (first :: others) ws last) = fun j => (first :: others).getD (j % (others.length + 1)) 0 := by
  funext j
  exact congrArg (fun i => (first :: others).getD (i % (others.length + 1)) 0) (Nat.zero_add j)

/-- Settles O59: the two CONFIGs make fresh units, and `unpack_pack` is the round trip between them. -/
theorem bitFieldRoundTripWithAnyFieldList : Obligations.BitFieldRoundTripWithAnyFieldList := by
  intro s first others ws values hwidths hws
  have hbyte : WsLegal 8 := .inl rfl
  obtain ⟨s1, hconfig, hbfp⟩ := exec_bfpConfig_list hwidths hws s
  have hx := (fresh_wf hwidths hws s.bfp.last).1
  have hround := fun last => unpack_pack hx (fresh_wf hwidths hbyte last).2 rfl rfl rfl
    ⟨rfl, (Nat.zero_mod _).symm, rfl, rfl⟩ rfl values
  simp only [← hbfp] at hround
  obtain ⟨-, -, -, -, hpass, -⟩ := hround 0
  obtain ⟨s2, hfeed, htrace⟩ := exec_bfpFeed_accepted (by rw [hbfp]; exact ⟨rfl, rfl⟩) hpass
  obtain ⟨s3, hconfig', hbfu⟩ := exec_bfuConfig_list hwidths hbyte s2
  obtain ⟨m, hle, hfit, hshort, -, hevents, hpass', hwhole⟩ := hround s2.bfu.last
  rw [← hbfu] at hevents hpass'
  obtain ⟨s4, hfeed', htrace'⟩ := exec_bfuFeed_accepted (by rw [hbfu]; exact ⟨rfl, rfl⟩) hpass'
  rw [hevents] at htrace'
  simp only [bitsAhead, hbfp, widthAhead_fresh] at hfit hshort hwhole htrace'
  exact ⟨m, s1, s2, s3, s4, _, hle, hfit, hshort, hconfig, hfeed, htrace, hconfig', hfeed', htrace', hwhole⟩

end Sys2Proof.Machine

/-! PROOFS. The CRC and the checksum units: the commands on a state, the CRC of a message, and the checksum invariant (43_checksum_crc.md R132 to
R147). -/

namespace Sys2Proof.Machine

/-! ## The value a CRC register is reported as (R138) -/

/-- The byte-wise reflection of the pseudocode is the reversal of all 16 bits. -/
theorem rev16_eq_reverse (x : Half) : rev16 x = x.reverse := by
  apply BitVec.eq_of_getLsbD_eq
  intro i hi
  have hbit := rev16_getLsbD x (15 - i) (by omega)
  rw [show 15 - (15 - i) = i by omega] at hbit
  have hindex : 16 - 1 - i = 15 - i := by omega
  rw [hbit, BitVec.getLsbD_reverse, BitVec.getMsbD, hindex, decide_eq_true hi, Bool.true_and]

theorem crcFinal_eq_crcReported (reg : Half) (refout : Bool) (xorout : Half) :
    crcFinal reg refout xorout = crcReported reg refout xorout := by
  rw [crcFinal, crcReported, rev16_eq_reverse]

/-- The two bytes of a CRC result, as numbers (R50). -/
theorem crcBytes_eq (v : Half) : crcBytes v = [BitVec.ofNat 8 (v.toNat / 256), BitVec.ofNat 8 (v.toNat % 256)] := by
  have hhigh : v.extractLsb' 8 8 = BitVec.ofNat 8 (v.toNat / 256) := by
    apply BitVec.eq_of_toNat_eq
    simp [Nat.shiftRight_eq_div_pow]
  have hlow : v.extractLsb' 0 8 = BitVec.ofNat 8 (v.toNat % 256) := by
    apply BitVec.eq_of_toNat_eq
    simp
  rw [crcBytes, hhigh, hlow]

/-- The CRC of a message under the configuration of `x`, from its INIT on (R137, R138). -/
def Crc.ofMessage (x : Crc) (bytes : List Byte) : Half :=
  crcReported (bytes.foldl (crcUpdate x.poly x.refin) x.init) x.refout x.xorout

/-! ## What one CRC command answers -/

theorem exec_crcReset (s : State) :
    exec .crcReset s = .next { s with crc := .initial, trace := s.trace ++ outputs .crc [] .ok .none } :=
  complete_eq _ _ _ _ (s.setCrc _)

theorem exec_crcFeed (bytes : List Byte) (s : State) :
    exec (.crcFeed bytes) s =
      .next { s with
        crc := { s.crc with reg := bytes.foldl (crcUpdate s.crc.poly s.crc.refin) s.crc.reg }
        trace := s.trace ++ outputs .crc [] .ok .none } :=
  complete_eq _ _ _ _ (s.setCrc _)

theorem exec_crcFin (s : State) :
    let v := crcReported s.crc.reg s.crc.refout s.crc.xorout
    exec .crcFin s =
      .next { s with
        crc := { s.crc with reg := s.crc.init }
        trace := s.trace ++ outputs .crc [.bytes (crcBytes v)] .ok (.value (v.setWidth 32)) } := by
  rw [← crcFinal_eq_crcReported]
  exact complete_eq _ _ _ _ (s.setCrc _)

theorem exec_crcQuery (s : State) :
    exec .crcQuery s =
      .next { s with
        trace := s.trace ++
          outputs .crc [] .ok (.value ((crcReported s.crc.reg s.crc.refout s.crc.xorout).setWidth 32)) } := by
  rw [← crcFinal_eq_crcReported]
  exact complete_eq _ _ _ _ s

/-- `crc.oneshot` returns the CRC of its bytes under the reset configuration (R145). -/
theorem exec_crcOneshot (bytes : List Byte) (s : State) :
    exec (.crcOneshot bytes) s =
      .next { s with
        trace := s.trace ++ outputs .crc [] .ok (.value ((Crc.initial.ofMessage bytes).setWidth 32)) } := by
  rw [Crc.ofMessage, ← crcFinal_eq_crcReported]
  exact complete_eq _ _ _ _ s

/-- Settles O49: the answers of the two commands, with the emitted bytes as numbers. -/
theorem crcFinalizeAndQuery : Obligations.CrcFinalizeAndQuery := by
  refine ⟨⟨isFinalize_of .crc .crcFin rfl, takesNoData_query (u := .crc) rfl⟩, fun s => ⟨?fin, exec_crcQuery s⟩⟩
  case fin =>
    rw [← crcBytes_eq]
    exact exec_crcFin s

/-! ## CONFIG (R141) -/

/-- Parameter `k` is given and above its limit. -/
abbrev OutOfRange (ps : List Word) (k limit : Nat) : Prop := k < ps.length ∧ limit < (ps.getD k 0).toNat

/-- Some parameter of `crc.config` is out of range. -/
abbrev CrcDefaulted (ps : List Word) : Prop :=
  OutOfRange ps 0 0xFFFF ∨ OutOfRange ps 1 0xFFFF ∨ OutOfRange ps 2 1 ∨ OutOfRange ps 3 1 ∨ OutOfRange ps 4 0xFFFF

/-- A 16-bit parameter, or its default. -/
def halfParam (ps : List Word) (k : Nat) (dflt : Half) : Half :=
  if k < ps.length ∧ (ps.getD k 0).toNat ≤ 0xFFFF then BitVec.ofNat 16 (ps.getD k 0).toNat else dflt

/-- A one-bit parameter whose default is 1. -/
def flagParam (ps : List Word) (k : Nat) : Bool :=
  if k < ps.length ∧ (ps.getD k 0).toNat ≤ 1 then (ps.getD k 0).toNat == 1 else true

/-- A parameter's value and whether it fell back, as two separate conditions. -/
theorem given_inRange_eq {α : Type} (ps : List Word) (k limit : Nat) (value dflt : α) :
    (if k < ps.length then if (ps.getD k 0).toNat ≤ limit then (value, false) else (dflt, true) else (dflt, false)) =
      (if k < ps.length ∧ (ps.getD k 0).toNat ≤ limit then value else dflt, decide (OutOfRange ps k limit)) := by
  unfold OutOfRange
  generalize (ps.getD k 0).toNat = v
  by_cases hgiven : k < ps.length
  · by_cases hrange : v ≤ limit
    · simp [hgiven, hrange]
    · simp [hgiven, hrange, Nat.lt_of_not_le hrange]
  · simp [hgiven]

theorem param16_eq_halfParam (ps : List Word) (k : Nat) (dflt : Half) :
    param16 ps k dflt = (halfParam ps k dflt, decide (OutOfRange ps k 0xFFFF)) :=
  (param16_eq ps k dflt).trans (given_inRange_eq ..)

theorem paramBit_eq_flagParam (ps : List Word) (k : Nat) :
    paramBit ps k true = (flagParam ps k, decide (OutOfRange ps k 1)) :=
  (paramBit_eq ps k true).trans (given_inRange_eq ..)

theorem configStatus_of_iff {defaulted : Bool} {q : Prop} [Decidable q] (h : defaulted = true ↔ q) :
    configStatus defaulted = if q then .okCfgDefaulted else .ok := by
  simp only [configStatus, h]

/-- The registers that `crc.config` writes. -/
def crcConfigured (ps : List Word) : Crc :=
  { poly := halfParam ps 0 crcDefaultPoly
    init := halfParam ps 1 0
    refin := flagParam ps 2
    refout := flagParam ps 3
    xorout := halfParam ps 4 0
    reg := halfParam ps 1 0 }

theorem exec_crcConfig (ps : List Word) (s : State) :
    exec (.crcConfig ps) s =
      .next { s with
        crc := crcConfigured ps
        trace := s.trace ++ outputs .crc [] (if CrcDefaulted ps then .okCfgDefaulted else .ok) .none } := by
  have hexec : exec (.crcConfig ps) s = complete .crc [] (configStatus _) .none (s.setCrc _) := rfl
  simp only [param16_eq_halfParam, paramBit_eq_flagParam] at hexec
  rw [hexec, configStatus_of_iff (q := CrcDefaulted ps) (by simp only [Bool.or_eq_true, decide_eq_true_eq, or_assoc]), complete_eq]
  rfl

/-- Settles O48: the statement writes `crcConfigured` and the status out. -/
theorem crcConfigSetsEachParameter : Obligations.CrcConfigSetsEachParameter :=
  ⟨takesParams_of .crc _ _ (fun _ => rfl) fun _ => rfl, fun s ps => exec_crcConfig ps s⟩

/-! ## The CRC of a message (R146, R147) -/

theorem exec_crcReset_sets (s : State) : ∃ t, exec .crcReset s = .next t ∧ t.crc = .initial :=
  ⟨_, exec_crcReset s, rfl⟩

theorem exec_crcConfig_sets (ps : List Word) (s : State) : ∃ t, exec (.crcConfig ps) s = .next t ∧ t.crc = crcConfigured ps :=
  ⟨_, exec_crcConfig ps s, rfl⟩

/-- From a register at INIT, FEED and FINALIZE emit and return the CRC of the message. -/
theorem exec_crcFeed_crcFin {s : State} {x : Crc} (hcrc : s.crc = x) (hreg : x.reg = x.init) {bytes : List Byte} {v : Half}
    (hv : x.ofMessage bytes = v) :
    ∃ t1 t2, exec (.crcFeed bytes) s = .next t1 ∧ exec .crcFin t1 = .next t2 ∧
      t2.trace = t1.trace ++ outputs .crc [.bytes (crcBytes v)] .ok (.value (v.setWidth 32)) := by
  subst hcrc hv
  refine ⟨_, _, exec_crcFeed bytes s, exec_crcFin _, ?_⟩
  rw [Crc.ofMessage, ← hreg]

/-- The same without a FEED: the CRC of the empty message. -/
theorem exec_crcFin_of_init {s : State} {x : Crc} (hcrc : s.crc = x) (hreg : x.reg = x.init) {v : Half} (hv : x.ofMessage [] = v) :
    ∃ t, exec .crcFin s = .next t ∧
      t.trace = s.trace ++ outputs .crc [.bytes (crcBytes v)] .ok (.value (v.setWidth 32)) := by
  subst hcrc hv
  refine ⟨_, exec_crcFin s, ?_⟩
  rw [Crc.ofMessage, List.foldl_nil, ← hreg]

/-- Settles O50: FEED is a left fold over its bytes, and `crc.reset` makes the configuration that `crc.oneshot` has fixed. -/
theorem crcOneshotIsResetFeedFinalize : Obligations.CrcOneshotIsResetFeedFinalize := by
  refine ⟨fun s a b => ?split, fun s bytes _ => ?some, fun s => ?none⟩
  case split =>
    refine ⟨_, _, _, exec_crcFeed a s, exec_crcFeed b _, exec_crcFeed (a ++ b) s, ?_⟩
    rw [List.foldl_append]
  case some =>
    obtain ⟨t1, hreset, hcrc⟩ := exec_crcReset_sets s
    obtain ⟨t2, t3, hfeed, hfin, htrace⟩ := exec_crcFeed_crcFin hcrc rfl (bytes := bytes) rfl
    exact ⟨_, t1, t2, t3, _, exec_crcOneshot bytes s, hreset, hfeed, hfin, getLast?_append_outputs _ _ _ _ _,
      htrace ▸ getLast?_append_outputs _ _ _ _ _⟩
  case none =>
    obtain ⟨t1, hreset, hcrc⟩ := exec_crcReset_sets s
    obtain ⟨t2, hfin, htrace⟩ := exec_crcFin_of_init hcrc rfl rfl
    exact ⟨_, t1, t2, _, exec_crcOneshot [] s, hreset, hfin, getLast?_append_outputs _ _ _ _ _,
      htrace ▸ getLast?_append_outputs _ _ _ _ _⟩

/-- The message "123456789" of R147. -/
def checkMessage : List Byte := [0x31, 0x32, 0x33, 0x34, 0x35, 0x36, 0x37, 0x38, 0x39]

theorem initial_ofMessage_checkMessage : Crc.initial.ofMessage checkMessage = 0xBB3D := by decide +kernel

theorem modbus_ofMessage_checkMessage : (crcConfigured [0x8005, 0xFFFF, 1, 1, 0]).ofMessage checkMessage = 0x4B37 := by
  decide +kernel

/-- A zero register is reported as 0 in either bit order, if XOROUT is 0. -/
theorem ofMessage_nil_of_zero {x : Crc} (hinit : x.init = 0) (hxorout : x.xorout = 0) : x.ofMessage [] = 0 := by
  rw [Crc.ofMessage, List.foldl_nil, hinit, hxorout]
  cases x.refout <;> decide

/-- CONFIG, FEED and FINALIZE emit and return the CRC of the message under the configuration given. -/
theorem exec_crcConfig_crcFeed_crcFin (ps : List Word) {bytes : List Byte} {v : Half} (hv : (crcConfigured ps).ofMessage bytes = v)
    (s : State) :
    ∃ t1 t2 t3, exec (.crcConfig ps) s = .next t1 ∧ exec (.crcFeed bytes) t1 = .next t2 ∧ exec .crcFin t2 = .next t3 ∧
      t3.trace = t2.trace ++ outputs .crc [.bytes (crcBytes v)] .ok (.value (v.setWidth 32)) := by
  obtain ⟨t1, hconfig, hcrc⟩ := exec_crcConfig_sets ps s
  obtain ⟨t2, t3, hfeed, hfin, htrace⟩ := exec_crcFeed_crcFin hcrc rfl hv
  exact ⟨t1, t2, t3, hconfig, hfeed, hfin, htrace⟩

/-- Settles O51: the CRCs of the two messages under the configurations that the statement names. -/
theorem crcKnownValues : Obligations.CrcKnownValues := by
  refine fun s => ⟨?oneshot, ?default, ?modbus, fun poly refin refout => ?empty⟩
  case oneshot =>
    have hexec := exec_crcOneshot checkMessage s
    rw [initial_ofMessage_checkMessage] at hexec
    exact ⟨_, hexec, rfl⟩
  case default => exact exec_crcConfig_crcFeed_crcFin [] initial_ofMessage_checkMessage s
  case modbus => exact exec_crcConfig_crcFeed_crcFin [0x8005, 0xFFFF, 1, 1, 0] modbus_ofMessage_checkMessage s
  case empty =>
    have hzero : (crcConfigured [poly, 0, refin, refout, 0]).ofMessage [] = 0 := ofMessage_nil_of_zero rfl rfl
    obtain ⟨t1, hconfig, hcrc⟩ := exec_crcConfig_sets [poly, 0, refin, refout, 0] s
    obtain ⟨t2, hfin, htrace⟩ := exec_crcFin_of_init hcrc rfl hzero
    exact ⟨t1, t2, hconfig, hfin, htrace⟩

/-! ## Checksum (R132 to R135) -/

theorem exec_cksFeed (bytes : List Byte) (s : State) :
    exec (.cksFeed bytes) s =
      .next { s with
        cks := { acc := BitVec.ofNat 8 ((s.cks.acc.toNat + byteSum bytes) % 256) }
        trace := s.trace ++ outputs .cks [] .ok .none } := by
  rw [← foldl_add_eq_byteSum]
  exact complete_eq _ _ _ _ (s.setCks _)

/-- (256 − ACC) mod 256, the number that `cks.fin` emits and returns. -/
def Cks.negated (x : Cks) : Nat := (256 - x.acc.toNat) % 256

theorem exec_cksFin (s : State) :
    exec .cksFin s =
      .next { s with
        cks := { acc := 0 }
        trace := s.trace ++
          outputs .cks [.bytes [BitVec.ofNat 8 s.cks.negated]] .ok (.value (BitVec.ofNat 32 s.cks.negated)) } := by
  have hword : (cksNegate s.cks.acc).setWidth 32 = BitVec.ofNat 32 s.cks.negated := by
    apply BitVec.eq_of_toNat_eq
    simp [cksNegate_eq, Cks.negated]
  rw [← hword, Cks.negated, ← cksNegate_eq]
  exact complete_eq _ _ _ _ (s.setCks _)

theorem exec_cksQuery (s : State) :
    exec .cksQuery s =
      .next { s with
        trace := s.trace ++
          outputs .cks (if s.cks.acc.toNat = 0 then [.empty] else []) .ok (.value (BitVec.ofNat 32 s.cks.acc.toNat)) } := by
  have hzero : s.cks.acc.toNat = 0 ↔ s.cks.acc = 0 := (BitVec.toNat_eq (y := 0)).symm
  simp only [hzero, BitVec.ofNat_toNat]
  exact complete_eq _ _ _ _ s

/-- Settles O52: `exec_cksFeed` is the answer on every state. -/
theorem checksumFeedAddsEveryByte : Obligations.ChecksumFeedAddsEveryByte :=
  ⟨takesBytes_feed (u := .cks) nofun fun _ => rfl, fun s bytes => exec_cksFeed bytes s⟩

/-- Settles O53: the answers of the two commands. -/
theorem checksumFinalizeAndQuery : Obligations.ChecksumFinalizeAndQuery :=
  ⟨⟨isFinalize_of .cks .cksFin rfl, takesNoData_query (u := .cks) rfl⟩, fun s => ⟨exec_cksFin s, exec_cksQuery s⟩⟩

theorem byteSum_concat (bytes : List Byte) (b : Byte) : byteSum (bytes ++ [b]) = byteSum bytes + b.toNat := by
  simp [byteSum]

theorem Cks.negated_lt (x : Cks) : x.negated < 256 := Nat.mod_lt _ (by decide)

/-- The negated sum completes the sum to a multiple of 256. -/
theorem add_negated_ofNat (n : Nat) : (n + Cks.negated { acc := BitVec.ofNat 8 (n % 256) }) % 256 = 0 := by
  simp only [Cks.negated, BitVec.toNat_ofNat]
  omega

/-- From ACC = 0 a FEED leaves the sum of its bytes. -/
theorem exec_cksFeed_of_zero {s : State} (hacc : s.cks.acc = 0) (bytes : List Byte) :
    ∃ t, exec (.cksFeed bytes) s = .next t ∧ t.cks = { acc := BitVec.ofNat 8 (byteSum bytes % 256) } := by
  refine ⟨_, exec_cksFeed bytes s, ?_⟩
  simp [hacc]

/-- Settles O54: after `cks.feed` ACC is the sum, `add_negated_ofNat` completes it, and the sum of all bytes fed then leaves ACC at 0. -/
theorem checksumInvariant : Obligations.ChecksumInvariant := by
  intro s bytes hacc
  obtain ⟨t1, hfeed1, hcks1⟩ := exec_cksFeed_of_zero hacc bytes
  have hsum : (byteSum bytes + t1.cks.negated) % 256 = 0 := hcks1 ▸ add_negated_ofNat _
  obtain ⟨t3, hfeed3, hcks3⟩ := exec_cksFeed_of_zero hacc (bytes ++ [BitVec.ofNat 8 t1.cks.negated])
  have hacc3 : t3.cks.acc = 0 := by
    rw [hcks3, byteSum_concat, BitVec.toNat_ofNat, Nat.mod_eq_of_lt (Cks.negated_lt _), hsum]
    rfl
  obtain ⟨t4, hquery, -, htrace⟩ := exec_cksQuery_of_zero hacc3
  exact ⟨t1, _, t3, t4, t1.cks.negated, hfeed1, exec_cksFin t1, rfl, Cks.negated_lt _, hsum, hfeed3, hquery, htrace⟩

end Sys2Proof.Machine

/-! PROOFS. The reset state: RESET of a unit and power-on (70_reset_and_hazards.md R163, R164). -/

namespace Sys2Proof.Machine

/-! ## RESET of one unit -/

/-- The state with the registers of `u` at the values of the table of R164. -/
def State.restored (s : State) : UnitId → State
  | .b64e => s.setB64e .initial
  | .b64d => s.setB64d .initial
  | .hexe => s.setHexe (.initial s.params)
  | .hexd => s.setHexd (.initial s.params)
  | .bfp => s.setBfp .initial
  | .bfu => s.setBfu .initial
  | .crc => s.setCrc .initial
  | .cks => s.setCks .initial

@[simp] theorem State.restored_trace (s : State) (u : UnitId) : (s.restored u).trace = s.trace := by
  cases u <;> rfl

/-- A RESET restores the registers of its unit and answers OK with RET NONE and no event (R164). -/
theorem exec_reset {i : Instr} (hop : i.op = .reset) (s : State) :
    exec i s = .next { s.restored i.unit with trace := s.trace ++ [.response { status := .ok, ret := .none }] } := by
  have hexec : exec i s = complete i.unit [] .ok .none (s.restored i.unit) := by
    cases i with
    | b64eReset | b64dReset | hexeReset | hexdReset | bfpReset | bfuReset | crcReset | cksReset => rfl
    | _ => simp [Instr.op] at hop
  rw [hexec, complete_eq, State.restored_trace]
  rfl

theorem takesNoData_reset {u : UnitId} {i : Instr} (hbuild : build u .reset [] = some i) : TakesNoData u.number.toNat 1 i :=
  takesNoData_of u .reset i (.inr (.inl rfl)) hbuild

/-- Settles O17: the eight encodings by `takesNoData_reset`, the eight answers by `exec_reset`. -/
theorem resetCommandsRestoreTheTable : Obligations.ResetCommandsRestoreTheTable := by
  refine ⟨⟨takesNoData_reset (u := .b64e) rfl, takesNoData_reset (u := .b64d) rfl,
    takesNoData_reset (u := .hexe) rfl, takesNoData_reset (u := .hexd) rfl,
    takesNoData_reset (u := .bfp) rfl, takesNoData_reset (u := .bfu) rfl,
    takesNoData_reset (u := .crc) rfl, takesNoData_reset (u := .cks) rfl⟩, fun s => ?_⟩
  exact ⟨exec_reset (i := .b64eReset) rfl s, exec_reset (i := .b64dReset) rfl s,
    exec_reset (i := .hexeReset) rfl s, exec_reset (i := .hexdReset) rfl s,
    exec_reset (i := .bfpReset) rfl s, exec_reset (i := .bfuReset) rfl s,
    exec_reset (i := .crcReset) rfl s, exec_reset (i := .cksReset) rfl s⟩

/-! ## Power-on -/

/-- While nothing has been delivered every SINK stream is empty (R37). -/
theorem State.sink_eq_nil {s : State} (htrace : s.trace = []) (u : UnitId) : s.sink u = [] := by
  rw [State.sink, htrace, List.filterMap_nil]

theorem State.responses_eq_nil {s : State} (htrace : s.trace = []) : s.responses = [] := by
  rw [State.responses, htrace, List.filterMap_nil]

/-- Settles O16: the registers and the port are fields of `State.resetWith`, and the trace is empty there. -/
theorem powerOnHoldsTheResetState : Obligations.PowerOnHoldsTheResetState := by
  intro p
  have htrace : (State.resetWith p).trace = [] := rfl
  exact ⟨rfl, rfl, rfl, rfl, rfl, rfl, rfl, rfl, State.sink_eq_nil htrace, State.responses_eq_nil htrace, rfl⟩

end Sys2Proof.Machine

/-! PROOFS. Decoding and encoding are inverse to each other (30_encoding.md R63 to R73), and what an assembled string stands for (R74). -/

namespace Sys2Proof.Machine

/-! ## Decode after encode (R63 to R70) -/

theorem length_bounds_of_feedCountOk {α : Type} {elements : List α} (h : feedCountOk elements = true) :
    1 ≤ elements.length ∧ elements.length ≤ maxCount := by
  simpa only [feedCountOk, Bool.and_eq_true, decide_eq_true_eq] using h

theorem ne_nil_of_feedCountOk {α : Type} {elements : List α} (h : feedCountOk elements = true) : elements ≠ [] := by
  rintro rfl
  exact absurd h nofun

/-- A well-formed command's DATA words fit the N field (R63). -/
theorem length_data_le {p : Params} {i : Instr} (hwf : i.WellFormed p = true) : i.data.length ≤ maxCount := by
  cases i with
  | b64eOneshot _ | crcOneshot _ => exact List.length_map byteWord ▸ of_decide_eq_true hwf
  | b64eFeed _ | b64dFeed _ | hexeFeed _ | hexdFeed _ | bfuFeed _ | crcFeed _ | cksFeed _ =>
    exact List.length_map byteWord ▸ (length_bounds_of_feedCountOk hwf).2
  | bfpFeed _ => exact (length_bounds_of_feedCountOk hwf).2
  | hexeConfig _ | hexdConfig _ | bfpConfig _ | bfuConfig _ | crcConfig _ =>
    simp only [Instr.WellFormed, configCountOk, Bool.and_eq_true] at hwf
    obtain ⟨-, hmax⟩ := hwf
    exact of_decide_eq_true hmax
  | _ => exact Nat.zero_le _

theorem map_lowByte_byteWord (bytes : List Byte) : (bytes.map byteWord).map lowByte = bytes := by
  simp [Function.comp_def]

/-- The bytes of a FEED are read back from its words; only an empty FEED would be read as the FINALIZE (R67). -/
theorem feedOrFin_byteWords (feed : List Byte → Instr) (fin : Instr) {bytes : List Byte} (hcount : feedCountOk bytes = true) :
    feedOrFin feed fin (bytes.map byteWord) = feed bytes := by
  obtain ⟨b, rest, rfl⟩ := List.exists_cons_of_ne_nil (ne_nil_of_feedCountOk hcount)
  rw [List.map_cons, feedOrFin, ← List.map_cons, map_lowByte_byteWord]

/-- The pair and the DATA words of a well-formed command stand for that command. -/
theorem build_data {p : Params} {i : Instr} (hwf : i.WellFormed p = true) : build i.unit i.op i.data = some i := by
  cases i with
  | b64eOneshot bytes | crcOneshot bytes => simp only [Instr.unit, Instr.op, Instr.data, build, map_lowByte_byteWord]
  | b64eFeed _ | b64dFeed _ | hexeFeed _ | hexdFeed _ | bfuFeed _ | crcFeed _ | cksFeed _ =>
    exact congrArg some (feedOrFin_byteWords _ _ hwf)
  | bfpFeed values => exact congrArg some (if_neg (mt List.isEmpty_iff.mp (ne_nil_of_feedCountOk hwf)))
  | _ => rfl

theorem legalPair_unit_op (i : Instr) : legalPair i.unit i.op = true := by
  cases i <;> rfl

/-- A well-formed command passes the count check (R69). -/
theorem countLegal_data {p : Params} {i : Instr} (hwf : i.WellFormed p = true) : countLegal p i.unit i.op i.data.length = true := by
  cases i with
  | hexeConfig _ | hexdConfig _ | bfpConfig _ | bfuConfig _ | crcConfig _ =>
    exact decide_eq_true (length_le_of_configCountOk hwf)
  | _ => rfl

/-- The words of bytes pass the data check (R64). -/
theorem dataLegal_data (i : Instr) : dataLegal i.unit i.op i.data = true := by
  cases i with
  | b64eOneshot _ | crcOneshot _ | b64eFeed _ | b64dFeed _ | hexeFeed _ | hexdFeed _ | bfuFeed _ | crcFeed _ | cksFeed _ =>
    simp [dataLegal, Instr.unit, Instr.op, Instr.data]
  | _ => rfl

/-- A well-formed command, with every operand, is read back from its words. -/
theorem decode_encode {p : Params} {i : Instr} (hwf : i.WellFormed p = true) (rest : List Word) :
    decode p (encode i ++ rest) = .instr i rest := by
  have hfits : i.data.length < 65536 := Nat.lt_succ_of_le (length_data_le hwf)
  have hcount := countField_header i.unit.number i.op.number 0 i.data.length hfits
  have hok : decodeCommand p (header i.unit.number i.op.number 0 i.data.length) i.data = .ok i :=
    decodeCommand_of_checks (by rw [unitField_header _ _ _ _ hfits, unitOf_number]) (by rw [opField_header _ _ _ _ hfits, opOf_number])
      (legalPair_unit_op i) (rsvField_header _ _ _ _ hfits) (by rw [hcount, countLegal_data hwf]) (dataLegal_data i) (build_data hwf)
  rw [encode, List.cons_append, decode_command p _ i.data rest hcount.symm, hok]

/-- Settles O1: the fields of the header are the command's, so every check passes and `build` gives the command. -/
theorem decodeOfEncodeIsTheCommand : Obligations.DecodeOfEncodeIsTheCommand :=
  fun _ _ rest hwf => decode_encode hwf rest

/-! ## Encode after decode (R63 to R73) -/

/-- Words that decode are a CMD word with its DATA words, which passed the checks, and the rest. -/
theorem decode_eq_instr {p : Params} {ws rest : List Word} {i : Instr} (h : decode p ws = .instr i rest) :
    ∃ cmd data, ws = cmd :: (data ++ rest) ∧ data.length = countField cmd ∧ decodeCommand p cmd data = .ok i := by
  cases hfetch : fetch ws with
  | incomplete => simp [decode, hfetch] at h
  | command cmd data rest' =>
    cases hcommand : decodeCommand p cmd data with
    | error why => simp [decode, hfetch, hcommand] at h
    | ok j =>
      simp only [decode, hfetch, hcommand, Decoded.instr.injEq] at h
      obtain ⟨rfl, rfl⟩ := h
      obtain ⟨hws, hlen⟩ := fetch_eq_command_iff.mp hfetch
      exact ⟨cmd, data, hws, hlen, hcommand⟩

/-- The command that the checks accept is well-formed, and its header and DATA are the words that were checked. -/
theorem words_of_decodeCommand {p : Params} {cmd : Word} {data : List Word} {i : Instr} (hlen : data.length = countField cmd)
    (h : decodeCommand p cmd data = .ok i) :
    i.WellFormed p = true ∧ cmd = header i.unit.number i.op.number 0 i.data.length ∧ i.data = data := by
  obtain ⟨u, op, hu, ho, -, hrsv, hcount, hdata, hbuild⟩ := checks_of_decodeCommand h
  have hmax : countField cmd ≤ 65535 := by
    rw [countField_eq]
    omega
  obtain ⟨rfl, rfl, rfl, hwf⟩ := fields_of_build p hbuild hdata (hlen ▸ hcount) (hlen ▸ hmax)
  have hcmd := header_of_fields cmd
  rw [hrsv, ← hlen, ← number_of_unitOf hu, ← number_of_opOf ho] at hcmd
  exact ⟨hwf, hcmd.symm, rfl⟩

/-- Settles O2: a CMD word is its four fields, and the checks fix each of them. -/
theorem decodedWordsAreTheEncoding : Obligations.DecodedWordsAreTheEncoding := by
  intro p ws i rest h
  obtain ⟨cmd, data, rfl, hlen, hcommand⟩ := decode_eq_instr h
  obtain ⟨hwf, hcmd, hdata⟩ := words_of_decodeCommand hlen hcommand
  exact ⟨hwf, by rw [encode, ← hcmd, hdata, List.cons_append]⟩

/-! ## Written-out words (R74) -/

/-- Words that are the encoding of a well-formed command decode to it. -/
theorem decode_of_eq_encode {p : Params} {i : Instr} {ws : List Word} (hws : ws = encode i) (hwf : i.WellFormed p = true) :
    decode p ws = .instr i [] := by
  rw [hws, ← List.append_nil (encode i), decode_encode hwf]

/-- Settles O3: each list of words is the encoding of its command. -/
theorem writtenOutWordsDecode : Obligations.WrittenOutWordsDecode := fun _ =>
  ⟨decode_of_eq_encode (by decide) rfl, decode_of_eq_encode (by decide) rfl, decode_of_eq_encode (by decide) rfl,
    decode_of_eq_encode (by decide) rfl, decode_of_eq_encode (by decide) rfl, decode_of_eq_encode (by decide) rfl,
    decode_of_eq_encode (by decide) rfl, decode_of_eq_encode (by decide) rfl⟩

/-! ## The assembler's string operands (R74) -/

theorem operandWords_text (chars : List Byte) : operandWords true [.text chars] = some (chars.map byteWord) := by
  simp [operandWords]

/-- A line whose one operand is a string is its CMD word and the words of its characters. -/
theorem assemble_text {u : UnitId} {op : AsmOp} {chars : List Byte} (htext : allowsText u op = true) (hfin : op ≠ .fin)
    (hlen : chars.length ≤ maxCount) :
    assemble { unit := u, op := op, operands := [.text chars] } =
      some (header u.number (asmOpcode op).number 0 chars.length :: chars.map byteWord) := by
  simp [assemble, htext, hfin, operandWords_text, hlen]

/-- Where the DATA format is not DB a string has no words. -/
theorem assemble_text_refused {u : UnitId} {op : AsmOp} (htext : allowsText u op = false) (chars : List Byte) :
    assemble { unit := u, op := op, operands := [.text chars] } = none := by
  simp [assemble, htext, operandWords]

theorem feedCountOk_of_length {α : Type} {elements : List α} (hmin : 1 ≤ elements.length) (hmax : elements.length ≤ 65535) :
    feedCountOk elements = true := by
  simp [feedCountOk, maxCount, hmin, hmax]

/-- The assembled FEED of a string decodes to `i` if `i` is the well-formed FEED of that unit with the characters' words as its DATA. -/
theorem assembled_feed_decodes {i : Instr} {chars : List Byte} (htext : allowsText i.unit .feed = true) (hop : i.op = .feed)
    (hdata : i.data = chars.map byteWord) {p : Params} (hwf : i.WellFormed p = true) (rest : List Word) :
    ∃ ws, assemble { unit := i.unit, op := .feed, operands := [.text chars] } = some ws ∧ decode p (ws ++ rest) = .instr i rest := by
  have hlen : chars.length ≤ maxCount := by
    rw [← List.length_map byteWord, ← hdata]
    exact length_data_le hwf
  refine ⟨encode i, ?_, decode_encode hwf rest⟩
  rw [assemble_text htext nofun hlen, encode, hop, hdata, List.length_map]
  rfl

/-- Settles O57: the assembled words are an encoding, so `decode_encode` reads them back. -/
theorem assembledStringFeedDecodes : Obligations.AssembledStringFeedDecodes := by
  refine ⟨by decide, fun p chars rest hmin hmax mk hmk => ?feeds, assemble_text_refused rfl,
    fun u => assemble_text_refused (by cases u <;> rfl)⟩
  have hcount := feedCountOk_of_length hmin hmax
  simp only [List.mem_cons, List.not_mem_nil, or_false] at hmk
  obtain rfl | rfl | rfl | rfl | rfl | rfl | rfl := hmk
  · exact assembled_feed_decodes (i := .b64eFeed chars) rfl rfl rfl hcount rest
  · exact assembled_feed_decodes (i := .b64dFeed chars) rfl rfl rfl hcount rest
  · exact assembled_feed_decodes (i := .hexeFeed chars) rfl rfl rfl hcount rest
  · exact assembled_feed_decodes (i := .hexdFeed chars) rfl rfl rfl hcount rest
  · exact assembled_feed_decodes (i := .bfuFeed chars) rfl rfl rfl hcount rest
  · exact assembled_feed_decodes (i := .crcFeed chars) rfl rfl rfl hcount rest
  · exact assembled_feed_decodes (i := .cksFeed chars) rfl rfl rfl hcount rest

end Sys2Proof.Machine

/-! PROOFS. What a step runs and delivers (10_state.md R37 to R40), and that the units do not interfere (R19). -/

namespace Sys2Proof.Machine

/-! ## A step runs the decoded command, and always answers (R38, R39, R151) -/

/-- Settles O4: the arm of `step` for a decoded command. -/
theorem stepRunsTheDecodedCommand : Obligations.StepRunsTheDecodedCommand := by
  intro s i rest hdecode
  simp only [step, hdecode]
  rfl

/-- Settles O8: without a whole command the step waits, and by `commandRunsOnlyWhenWhole` a whole one is answered. -/
theorem stepAlwaysAnswersNext : Obligations.StepAlwaysAnswersNext := by
  intro s
  cases hfetch : fetch s.port with
  | incomplete => exact ⟨s, step_of_incomplete hfetch⟩
  | command cmd data rest =>
    obtain ⟨hport, hlen⟩ := fetch_eq_command_iff.mp hfetch
    obtain ⟨-, -, hwhole⟩ := commandRunsOnlyWhenWhole
    obtain ⟨t, hstep, -⟩ := hwhole s cmd data rest hport (hlen.trans (countField_eq cmd))
    exact ⟨t, hstep⟩

/-! ## Events of the addressed unit, then one response (R37, R38) -/

/-- However a command ends, it appends events of its unit and then its response. -/
theorem CommandAnswer.delivers {u : UnitId} {s : State} {res : StepResult} (h : CommandAnswer u s res) :
    ∃ (t : State) (events : List Event) (r : Response),
      res = .next t ∧ t.trace = s.trace ++ (events.map (Output.event u) ++ [.response r]) := by
  cases h with
  | completes _ hwrites => exact ⟨_, _, _, rfl, congrArg (· ++ _) hwrites.trace⟩
  | raises _ => exact ⟨_, [], _, rfl, rfl⟩

/-- The decoded command addresses the unit whose number is CMD[31:28] (R66). -/
theorem unit_number_of_decodeCommand {p : Params} {cmd : Word} {data : List Word} {i : Instr} (hlen : data.length = countField cmd)
    (h : decodeCommand p cmd data = .ok i) : i.unit.number.toNat = cmd.toNat / 2 ^ 28 := by
  obtain ⟨hwf, hcmd, -⟩ := words_of_decodeCommand hlen h
  rw [← unitField_toNat, hcmd, unitField_header _ _ _ _ (Nat.lt_succ_of_le (length_data_le hwf))]

/-- Settles O9: a rejected command delivers its response alone, and an executed one what `exec_answer` allows. -/
theorem eventsOfTheUnitThenOneResponse : Obligations.EventsOfTheUnitThenOneResponse := by
  intro s cmd data rest hport hlen
  obtain ⟨why, -, hstep⟩ | ⟨i, hdecode, hstep⟩ := step_wholeCommand hport hlen
  · exact ⟨_, [], _, hstep, rfl, nofun⟩
  · obtain ⟨t, events, r, hexec, htrace⟩ := (exec_answer (s.setPort rest) i).delivers
    refine ⟨t, events.map (Output.event i.unit), r, hstep.trans hexec, htrace, fun o ho => ?_⟩
    obtain ⟨e, -, rfl⟩ := List.mem_map.mp ho
    exact ⟨i.unit, e, rfl, unit_number_of_decodeCommand (hlen.trans (countField_eq cmd).symm) hdecode⟩

/-! ## A command changes only its unit (R19) -/

theorem SameUnit.symm {u : UnitId} {s t : State} (h : SameUnit u s t) : SameUnit u t s := by
  cases u <;> exact Eq.symm h

theorem sameUnit_withTrace (u : UnitId) (s : State) (l : List Output) : SameUnit u { s with trace := l } s := by
  cases u <;> rfl

/-- The outputs of a command of unit `u` are on no SINK but that of `u`. -/
theorem sink_append_outputs {u v : UnitId} (hv : v ≠ u) {s t : State} {events : List Event} {status : Status} {ret : Ret}
    (htrace : t.trace = s.trace ++ outputs u events status ret) : t.sink v = s.sink v := by
  simp [State.sink, htrace, outputs, List.filterMap_append, List.filterMap_map, hv.symm]

/-- What a command of unit `u` may change from `s` to `t`: the registers and the SINK of `u`, and the responses. -/
structure ChangesOnly (u : UnitId) (s t : State) : Prop where
  registers : ∀ v, v ≠ u → SameUnit v t s
  sink : ∀ v, v ≠ u → t.sink v = s.sink v
  params : t.params = s.params
  port : t.port = s.port

theorem CommandAnswer.changesOnly {u : UnitId} {s : State} {res : StepResult} (h : CommandAnswer u s res) :
    ∃ t, res = .next t ∧ ChangesOnly u s t := by
  cases h with
  | completes _ hwrites =>
    refine ⟨_, rfl, fun v hv => (sameUnit_withTrace v _ _).trans (hwrites.others v hv), fun v hv => ?_, hwrites.params, hwrites.port⟩
    exact sink_append_outputs hv (congrArg (· ++ outputs u _ _ _) hwrites.trace)
  | raises _ =>
    exact ⟨_, rfl, fun v _ => sameUnit_withTrace v s _, fun v hv => sink_append_outputs (events := []) hv rfl, rfl, rfl⟩

theorem exec_changesOnly {i : Instr} {s t : State} (h : exec i s = .next t) : ChangesOnly i.unit s t := by
  obtain ⟨t', hexec, hchanges⟩ := (exec_answer s i).changesOnly
  obtain rfl := Host.Outcome.next.inj (h.symm.trans hexec)
  exact hchanges

/-- Settles O11: `exec_answer` leaves no other way for a command to end. -/
theorem commandChangesOnlyItsUnit : Obligations.CommandChangesOnlyItsUnit := by
  intro i s
  obtain ⟨t, hexec, hchanges⟩ := (exec_answer s i).changesOnly
  exact ⟨t, hexec, fun v hv => ⟨hchanges.registers v hv, hchanges.sink v hv⟩, hchanges.params, hchanges.port⟩

/-! ## A command reads only its unit (R19) -/

/-- The state `t`, but with the parameters and the registers of unit `u` that `s` holds. -/
def State.adopting (t : State) (u : UnitId) (s : State) : State :=
  match u with
  | .b64e => { t with params := s.params, b64e := s.b64e }
  | .b64d => { t with params := s.params, b64d := s.b64d }
  | .hexe => { t with params := s.params, hexe := s.hexe }
  | .hexd => { t with params := s.params, hexd := s.hexd }
  | .bfp => { t with params := s.params, bfp := s.bfp }
  | .bfu => { t with params := s.params, bfu := s.bfu }
  | .crc => { t with params := s.params, crc := s.crc }
  | .cks => { t with params := s.params, cks := s.cks }

theorem State.adopting_of_sameUnit {u : UnitId} {s t : State} (hunit : SameUnit u s t) (hparams : s.params = t.params) :
    t.adopting u s = t := by
  cases u <;> simp_all [SameUnit, State.adopting]

theorem sameUnit_adopting (u : UnitId) (s t : State) : SameUnit u s (t.adopting u s) := by
  cases u <;> rfl

/-- Two answers, on `s1` and on `s2`, that agree on the registers of `u` and deliver the same outputs. -/
def AnswersAlike (u : UnitId) (s1 s2 : State) (res1 res2 : StepResult) : Prop :=
  ∃ t1 t2 out, res1 = .next t1 ∧ res2 = .next t2 ∧ SameUnit u t1 t2 ∧ t1.trace = s1.trace ++ out ∧ t2.trace = s2.trace ++ out

namespace AnswersAlike

variable {u : UnitId} {s1 s2 : State}

theorem completes {events : List Event} {status : Status} {ret : Ret} {t1 t2 : State} (hunit : SameUnit u t1 t2)
    (htrace1 : t1.trace = s1.trace) (htrace2 : t2.trace = s2.trace) :
    AnswersAlike u s1 s2 (complete u events status ret t1) (complete u events status ret t2) := by
  refine ⟨_, _, outputs u events status ret, complete_eq .., complete_eq .., ?_, by rw [htrace1], by rw [htrace2]⟩
  exact (sameUnit_withTrace u t1 _).trans (hunit.trans (sameUnit_withTrace u t2 _).symm)

theorem raises (hunit : SameUnit u s1 s2) (e : Status) : AnswersAlike u s1 s2 (raise e s1) (raise e s2) :=
  completes (events := []) hunit rfl rfl

theorem of_ite {c : Prop} [Decidable c] {a1 a2 b1 b2 : StepResult} (ha : AnswersAlike u s1 s2 a1 a2)
    (hb : AnswersAlike u s1 s2 b1 b2) : AnswersAlike u s1 s2 (if c then a1 else b1) (if c then a2 else b2) := by
  split
  · exact ha
  · exact hb

theorem bfpConfig (hbfp : s1.bfp = s2.bfp) (ps : List Word) :
    AnswersAlike .bfp s1 s2 (exec (.bfpConfig ps) s1) (exec (.bfpConfig ps) s2) := by
  cases hconfig : bitFieldConfig s1.bfp ps with
  | none =>
    rw [exec_bfpConfig_refuses hconfig, exec_bfpConfig_refuses (hbfp ▸ hconfig)]
    exact raises (u := .bfp) hbfp _
  | some r => exact ⟨_, _, _, exec_bfpConfig_sets hconfig, exec_bfpConfig_sets (hbfp ▸ hconfig), rfl, rfl, rfl⟩

theorem bfuConfig (hbfu : s1.bfu = s2.bfu) (ps : List Word) :
    AnswersAlike .bfu s1 s2 (exec (.bfuConfig ps) s1) (exec (.bfuConfig ps) s2) := by
  cases hconfig : bitFieldConfig s1.bfu ps with
  | none =>
    rw [exec_bfuConfig_refuses hconfig, exec_bfuConfig_refuses (hbfu ▸ hconfig)]
    exact raises (u := .bfu) hbfu _
  | some r => exact ⟨_, _, _, exec_bfuConfig_sets hconfig, exec_bfuConfig_sets (hbfu ▸ hconfig), rfl, rfl, rfl⟩

end AnswersAlike

open AnswersAlike in
/-- On a state that has adopted the unit's registers and the parameters, every command of the unit has the same guards, outputs and new
registers: its meaning names no other field. -/
theorem exec_adopting (s t : State) :
    ∀ i : Instr, AnswersAlike i.unit s (t.adopting i.unit s) (exec i s) (exec i (t.adopting i.unit s))
  | .b64eDescribe | .b64dDescribe | .hexeDescribe | .hexdDescribe
  | .bfpDescribe | .bfuDescribe | .crcDescribe | .cksDescribe
  | .b64eReset | .b64dReset | .hexeReset | .hexdReset | .bfpReset | .bfuReset | .crcReset | .cksReset
  | .b64eConfig | .b64dConfig | .crcConfig _ | .cksConfig
  | .b64eFeed _ | .b64dFeed _ | .hexeFeed _ | .hexdFeed _ | .crcFeed _ | .cksFeed _
  | .b64eFin | .b64dFin | .hexeFin | .hexdFin | .bfpFin | .bfuFin | .crcFin | .cksFin
  | .hexeQuery | .hexdQuery | .bfpQuery | .bfuQuery | .crcQuery | .cksQuery
  | .b64eOneshot _ | .crcOneshot _ => completes rfl rfl rfl
  | .hexeConfig _ | .hexdConfig _ | .bfpFeed _ | .bfuFeed _ => of_ite (raises (sameUnit_adopting _ s t) _) (completes rfl rfl rfl)
  | .bfpConfig ps => AnswersAlike.bfpConfig (sameUnit_adopting .bfp s t) ps
  | .bfuConfig ps => AnswersAlike.bfuConfig (sameUnit_adopting .bfu s t) ps

theorem exec_alike {i : Instr} {s1 s2 : State} (hunit : SameUnit i.unit s1 s2) (hparams : s1.params = s2.params) :
    AnswersAlike i.unit s1 s2 (exec i s1) (exec i s2) := by
  have h := exec_adopting s1 s2 i
  rwa [State.adopting_of_sameUnit hunit hparams] at h

/-- Settles O12: states that agree on the unit and the parameters are related as in `exec_adopting`. -/
theorem commandReadsOnlyItsUnit : Obligations.CommandReadsOnlyItsUnit :=
  fun _ _ _ hunit hparams => exec_alike hunit hparams

/-! ## Commands to different units commute (R19, R57, R168) -/

/-- The same outputs appended to traces with the same events of `v` leave the same events of `v`. -/
theorem sink_append_congr {v : UnitId} {s1 s2 t1 t2 : State} {out : List Output} (htrace1 : t1.trace = s1.trace ++ out)
    (htrace2 : t2.trace = s2.trace ++ out) (hsink : s1.sink v = s2.sink v) : t1.sink v = t2.sink v := by
  unfold State.sink at hsink ⊢
  rw [htrace1, htrace2, List.filterMap_append, List.filterMap_append, hsink]

/-- Running `i` before or after a command that leaves its unit alone ends with the same registers and SINK of that unit. -/
theorem exec_after_other {i : Instr} {u : UnitId} (hu : i.unit ≠ u) {s ti tj : State} (hi : exec i s = .next ti)
    (hj : ChangesOnly u s tj) : ∃ tji, exec i tj = .next tji ∧ SameUnit i.unit tji ti ∧ tji.sink i.unit = ti.sink i.unit := by
  obtain ⟨tji, ti', out, htji, hti, hunit, htrace, htrace'⟩ := exec_alike (i := i) (hj.registers _ hu) hj.params
  obtain rfl := Host.Outcome.next.inj (hi.symm.trans hti)
  exact ⟨tji, htji, hunit, sink_append_congr htrace htrace' (hj.sink _ hu)⟩

/-- Settles O13: each unit's registers and SINK are written by one of the two commands at most, which finds its unit as `s` has it in
either order. -/
theorem commandsToDifferentUnitsCommute : Obligations.CommandsToDifferentUnitsCommute := by
  intro i j s hne
  obtain ⟨ti, hi, hchangesi⟩ := (exec_answer s i).changesOnly
  obtain ⟨tj, hj, hchangesj⟩ := (exec_answer s j).changesOnly
  obtain ⟨tij, hij, hunitj, hsinkj⟩ := exec_after_other hne.symm hj hchangesi
  obtain ⟨tji, hji, huniti, hsinki⟩ := exec_after_other hne hi hchangesj
  have hchangesij := exec_changesOnly hij
  have hchangesji := exec_changesOnly hji
  have hboth (v : UnitId) : SameUnit v tij tji ∧ tij.sink v = tji.sink v := by
    by_cases hvi : v = i.unit
    · subst hvi
      exact ⟨(hchangesij.registers _ hne).trans huniti.symm, (hchangesij.sink _ hne).trans hsinki.symm⟩
    by_cases hvj : v = j.unit
    · subst hvj
      exact ⟨hunitj.trans (hchangesji.registers _ hvi).symm, hsinkj.trans (hchangesji.sink _ hvi).symm⟩
    · exact ⟨((hchangesij.registers v hvj).trans (hchangesi.registers v hvi)).trans
          ((hchangesji.registers v hvi).trans (hchangesj.registers v hvj)).symm,
        ((hchangesij.sink v hvj).trans (hchangesi.sink v hvi)).trans ((hchangesji.sink v hvi).trans (hchangesj.sink v hvj)).symm⟩
  refine ⟨ti, tj, tij, tji, hi, hij, hj, hji, ⟨fun v => (hboth v).1, ?_, ?_⟩, fun v => (hboth v).2⟩
  · exact (hchangesij.params.trans hchangesi.params).trans (hchangesji.params.trans hchangesj.params).symm
  · exact (hchangesij.port.trans hchangesi.port).trans (hchangesji.port.trans hchangesj.port).symm

end Sys2Proof.Machine

/-! PROOFS. Streams against their reference functions: base64 text, hex windows and the bit-serial CRC (40_base64.md R77, R83; 41_hex.md R93, R97;
43_checksum_crc.md R136, R142, R145). -/

namespace Sys2Proof.Machine

/-! ## The base64 text of a byte string (R48, R77, R83) -/

/-- The four 6-bit digits of a 24-bit number are the pieces that ENC_STEP takes from its three bytes. -/
theorem sextets_of_bytes (a : Nat) {b c : Nat} (hb : b < 256) (hc : c < 256) :
    (a * 65536 + b * 256 + c) / 262144 = a / 4 ∧ (a * 65536 + b * 256 + c) / 4096 % 64 = a % 4 * 16 + b / 16 ∧
      (a * 65536 + b * 256 + c) / 64 % 64 = b % 16 * 4 + c / 64 ∧ (a * 65536 + b * 256 + c) % 64 = c % 64 := by
  omega

section Group
variable (a b c : Byte)

/-- A reset encoder after one byte. -/
theorem feedWith_b64eElement_first :
    feedWith b64eElement .initial [a] = .accepted ⟨.one, BitVec.ofNat 6 (a.toNat % 4 * 16)⟩ [b64CharOf (a.toNat / 4)] :=
  (feedWith_singleton ..).trans (b64eElement_zero a rfl)

/-- A reset encoder after two bytes. -/
theorem feedWith_b64eElement_second :
    (feedWith b64eElement .initial [a, b]).regs = ⟨.two, BitVec.ofNat 6 (b.toNat % 16 * 4)⟩ ∧
      (feedWith b64eElement .initial [a, b]).bytes = [b64CharOf (a.toNat / 4), b64CharOf (a.toNat % 4 * 16 + b.toNat / 16)] := by
  have hb := b.isLt
  have hor := b64Char_or (m := 16) (k := 4) rfl (a.toNat % 4) (n := b.toNat / 16) (by omega)
  have hsplit := feedWith_append b64eElement .initial [a] [b]
  rw [List.singleton_append, feedWith_b64eElement_first, feedWith_singleton, Fed.accepted, b64eElement_one b rfl, hor] at hsplit
  rw [hsplit]
  exact ⟨rfl, rfl⟩

/-- Three bytes leave a reset encoder as it was, and give the four characters of the group. -/
theorem feedWith_b64eElement_group :
    (feedWith b64eElement .initial [a, b, c]).regs = .initial ∧
      (feedWith b64eElement .initial [a, b, c]).bytes =
        [b64CharOf (a.toNat / 4), b64CharOf (a.toNat % 4 * 16 + b.toNat / 16), b64CharOf (b.toNat % 16 * 4 + c.toNat / 64),
          b64CharOf (c.toNat % 64)] := by
  have hc := c.isLt
  have hor := b64Char_or (m := 4) (k := 2) rfl (b.toNat % 16) (n := c.toNat / 64) (by omega)
  obtain ⟨hregs, hbytes⟩ := feedWith_b64eElement_second a b
  have hsplit := feedWith_append b64eElement .initial [a, b] [c]
  rw [List.cons_append, List.singleton_append, feedWith_singleton, hregs, hbytes, b64eElement_two c rfl, hor] at hsplit
  rw [hsplit]
  exact ⟨rfl, rfl⟩

theorem oneshotText_one : oneshotText [a] = base64Text [a] := by
  obtain ⟨hfirst, hsecond, -⟩ := sextets_of_bytes a.toNat (b := 0) (c := 0) (by decide) (by decide)
  rw [oneshotText, feedWith_b64eElement_first, Fed.accepted, flushChars_one rfl]
  simp only [Nat.zero_mul, Nat.zero_div, Nat.add_zero] at hfirst hsecond
  simp only [base64Text, hfirst, hsecond]
  rfl

theorem oneshotText_two : oneshotText [a, b] = base64Text [a, b] := by
  obtain ⟨hfirst, hsecond, hthird, -⟩ := sextets_of_bytes a.toNat b.isLt (c := 0) (by decide)
  obtain ⟨hregs, hbytes⟩ := feedWith_b64eElement_second a b
  rw [oneshotText, hregs, hbytes, flushChars_two rfl]
  simp only [Nat.zero_div, Nat.add_zero] at hfirst hsecond hthird
  simp only [base64Text, hfirst, hsecond, hthird]
  rfl

theorem oneshotText_group (rest : List Byte) :
    oneshotText (a :: b :: c :: rest) =
      [b64CharOf (a.toNat / 4), b64CharOf (a.toNat % 4 * 16 + b.toNat / 16), b64CharOf (b.toNat % 16 * 4 + c.toNat / 64),
        b64CharOf (c.toNat % 64)] ++ oneshotText rest := by
  obtain ⟨hregs, hbytes⟩ := feedWith_b64eElement_group a b c
  have hsplit := feedWith_append b64eElement .initial [a, b, c] rest
  simp only [List.cons_append, List.nil_append, hregs, hbytes] at hsplit
  rw [oneshotText, hsplit]
  rfl

end Group

/-- The encoder's text is the standard one: a group of three bytes at a time, and then the rest with its padding. -/
theorem oneshotText_eq_base64Text (bytes : List Byte) : oneshotText bytes = base64Text bytes := by
  induction bytes using base64Text.induct with
  | case1 a b c rest ih =>
    obtain ⟨hfirst, hsecond, hthird, hfourth⟩ := sextets_of_bytes a.toNat b.isLt c.isLt
    simp only [oneshotText_group, base64Text, hfirst, hsecond, hthird, hfourth, ih]
    rfl
  | case2 a b => exact oneshotText_two a b
  | case3 a => exact oneshotText_one a
  | case4 => rfl

theorem takesBytes_oneshot {u : UnitId} {mk : List Byte → Instr} (hu : u ≠ .bfp)
    (hbuild : ∀ data, build u .oneshot data = some (mk (data.map lowByte))) : TakesBytes u.number.toNat 5 0 mk :=
  takesBytes_of u .oneshot 0 mk (.inr rfl) hu fun data _ => hbuild data

/-- Settles O23: `exec_b64eOneshot` returns the encoder's text, which is the standard one. -/
theorem oneshotIsStandardBase64 : Obligations.OneshotIsStandardBase64 :=
  ⟨takesBytes_oneshot (u := .b64e) nofun fun _ => rfl, fun s bytes => oneshotText_eq_base64Text bytes ▸ exec_b64eOneshot bytes s⟩

/-! ## The hex windows (R93, R97) -/

/-- What `fed` has emitted and then holds is what `x` had buffered and then the text of `bytes`; the windows it emitted are whole. -/
structure Windows (x : HexEnc) (bytes : List Byte) (fed : Fed HexEnc) : Prop where
  conserved : eventBytes fed.events ++ fed.regs.buf.take fed.regs.idx = x.buf.take x.idx ++ hexText bytes
  whole : 0 < x.size → ∀ e ∈ fed.events, ∃ w, e = .bytes w ∧ w.length = 2 * x.size
  size : fed.regs.size = x.size

theorem hexText_append (a b : List Byte) : hexText (a ++ b) = hexText a ++ hexText b := List.flatMap_append

/-- One byte after the other. -/
theorem feedWith_hexeElement_windows {p : Params} {x : HexEnc} (hx : x.Wf p) (bytes : List Byte) :
    Windows x bytes (feedWith hexeElement x bytes) := by
  induction bytes generalizing x with
  | nil => exact ⟨(List.append_nil _).symm, fun _ => nofun, rfl⟩
  | cons b rest ih =>
    obtain ⟨hwf, hsize, -, hconserved, hwhole, -⟩ := hexeElement_keeps p x b hx
    have hrest := ih hwf
    rw [feedWith_cons]
    refine ⟨?conserved, fun hpos e he => ?whole, hrest.size.trans hsize⟩
    case conserved =>
      rw [eventBytes_append, List.append_assoc, hrest.conserved, ← List.append_assoc, hconserved, List.append_assoc, ← hexText_append,
        List.singleton_append]
    case whole =>
      obtain he | he := List.mem_append.mp he
      · exact hwhole hpos e he
      · exact hsize ▸ hrest.whole (hsize ▸ hpos) e he

/-- Settles O34: `hexeElement_keeps` for each byte, and `feedWith_hexeElement_bytes` for RET. -/
theorem hexEncoderWindowsConserveTheText : Obligations.HexEncoderWindowsConserveTheText := by
  intro s bytes hs
  have hwindows := feedWith_hexeElement_windows hs.hexe bytes
  have hexec := exec_hexeFeed bytes s
  rw [feedWith_hexeElement_bytes] at hexec
  exact ⟨_, _, hexec, rfl, hwindows.conserved, hwindows.whole, hwindows.size⟩

/-! ## The bit-serial CRC and the table (R136, R137) -/

/-- The table-driven update of each byte is the bit-serial register over the bits of all. -/
theorem foldl_crcUpdate (poly : Half) (refin : Bool) (reg : Half) (bytes : List Byte) :
    bytes.foldl (crcUpdate poly refin) reg = crcSerial poly refin reg bytes := by
  induction bytes generalizing reg with
  | nil => rfl
  | cons b rest ih =>
    rw [List.foldl_cons, ih, crcUpdate_eq_bits, crcSerial, crcSerial, List.flatMap_cons, List.foldl_append]

/-- Settles O47: the two commands fold `crcUpdate` over their bytes. -/
theorem crcFeedIsTheBitSerialCrc : Obligations.CrcFeedIsTheBitSerialCrc := by
  refine ⟨⟨takesBytes_feed (u := .crc) nofun fun _ => rfl, takesBytes_oneshot (u := .crc) nofun fun _ => rfl⟩,
    fun s bytes => ⟨?feed, ?oneshot⟩⟩
  case feed =>
    rw [exec_crcFeed, foldl_crcUpdate]
  case oneshot =>
    rw [exec_crcOneshot, Crc.ofMessage, foldl_crcUpdate]
    rfl

/-- With polynomial 0 a round only shifts. -/
theorem crcShifts_zero (n : Nat) (r : Half) : crcShifts 0 n r = r <<< n := by
  induction n generalizing r with
  | zero => simp [crcShifts]
  | succ n ih =>
    have hshift : crcShift 0 r = r <<< 1 := by simp [crcShift]
    rw [crcShifts, hshift, ih, ← BitVec.shiftLeft_add, Nat.add_comm]

theorem crcTable_zero (i : Byte) : crcTable 0 i = 0 := by
  rw [crcTable, crcShifts_zero, ← BitVec.shiftLeft_add]
  exact BitVec.shiftLeft_eq_zero (Nat.le_refl 16)

/-- Settles O46: the six entries by evaluation, and `crcTable_zero`. -/
theorem crcTableEntriesOfTheSpec : Obligations.CrcTableEntriesOfTheSpec :=
  ⟨by decide, crcTable_zero⟩

end Sys2Proof.Machine

/-! PROOFS. The bit-field units: a completed stream, the dead bits of the unpacker's ACC, and the round trip for one width (42_bitfield.md R112, R120,
R124, R127; 10_state.md R32). -/

namespace Sys2Proof.Machine

/-! ## A completed stream (R112, R117, R124) -/

section
variable {α : Type} {step : BitField → α → Fed BitField} {x : BitField}

/-- If every element is ignored, so is any list of them. -/
theorem feedWith_ignored (hignored : ∀ e, step x e = { regs := x, events := [], bytes := [], flagged := true }) {es : List α}
    (hne : es ≠ []) : feedWith step x es = { regs := x, events := [], bytes := [], flagged := true } := by
  induction es with
  | nil => exact absurd rfl hne
  | cons e rest ih =>
    rw [feedWith_cons, hignored]
    cases rest with
    | nil => rfl
    | cons e' rest => rw [ih (List.cons_ne_nil e' rest)]; rfl

end

theorem bfpElement_of_done {x : BitField} (h : x.done = true) (v : Word) :
    bfpElement x v = { regs := x, events := [], bytes := [], flagged := true } :=
  if_pos h

theorem bfuElement_of_done {x : BitField} (h : x.done = true) (b : Byte) :
    bfuElement x b = { regs := x, events := [], bytes := [], flagged := true } :=
  if_pos h

/-- Settles O38: with DONE = 1 the elements of both units are ignored one by one. -/
theorem completedStreamIgnoresElements : Obligations.CompletedStreamIgnoresElements := by
  refine fun s => ⟨fun hsup hdone values hne => ?packer, fun hsup hdone bytes hne => ?unpacker⟩
  case packer =>
    rw [exec_bfpFeed hsup, feedWith_ignored (bfpElement_of_done hdone) hne]
    rfl
  case unpacker =>
    rw [exec_bfuFeed hsup, feedWith_ignored (bfuElement_of_done hdone) hne]
    rfl

/-! ## The dead bits of the unpacker's ACC (R32) -/

/-- `y` is `x` but for the bits of ACC at and above NB. -/
structure DeadBitsApart (x y : BitField) : Prop where
  others : y = { x with acc := y.acc }
  pending : y.pending = x.pending

namespace DeadBitsApart

variable {x y : BitField}

theorem refl (x : BitField) : DeadBitsApart x x := ⟨rfl, rfl⟩

/-- With NB = 0 every bit of ACC is dead. -/
theorem of_empty (hempty : x.nb = 0) (a : BitVec 64) : DeadBitsApart x { x with acc := a } :=
  ⟨rfl, by simp only [BitField.pending, hempty, Nat.pow_zero, Nat.mod_one]⟩

theorem nb (h : DeadBitsApart x y) : y.nb = x.nb := by rw [h.others]

theorem done (h : DeadBitsApart x y) : y.done = x.done := by rw [h.others]

theorem last (h : DeadBitsApart x y) : y.last = x.last := by rw [h.others]

theorem width (h : DeadBitsApart x y) : y.width = x.width := by
  rw [h.others]
  rfl

theorem supported_iff (h : DeadBitsApart x y) : y.Supported ↔ x.Supported := by
  rw [h.others]

/-- A byte appended moves no dead bit below NB. -/
theorem withByte (h : DeadBitsApart x y) (b : Byte) (hnb : x.nb ≤ 56) : DeadBitsApart (x.withByte b) (y.withByte b) where
  others := by
    rw [h.others]
    rfl
  pending := by rw [BitField.pending_withByte b hnb, BitField.pending_withByte b (h.nb ▸ hnb), h.pending]

/-- One field of the loop is cut from the pending bits alone, and the unit after it holds fewer of them. -/
theorem afterField (h : DeadBitsApart x y) : DeadBitsApart (afterField x) (afterField y) := by
  have hpending : y.acc.toNat % 2 ^ x.nb = x.acc.toNat % 2 ^ x.nb := by
    have := h.pending
    rwa [BitField.pending, h.nb] at this
  constructor
  case others =>
    rw [h.others]
    simp only [Machine.afterField, hpending]
    rfl
  case pending =>
    have hless : (Machine.afterField x).nb ≤ x.nb := Nat.sub_le x.nb x.width
    have hnb : (Machine.afterField y).nb = (Machine.afterField x).nb := congrArg₂ (· - ·) h.nb h.width
    rw [BitField.pending, BitField.pending, hnb, ← Nat.mod_mod_of_dvd (Machine.afterField y).acc.toNat (Nat.pow_dvd_pow 2 hless),
      ← Nat.mod_mod_of_dvd (Machine.afterField x).acc.toNat (Nat.pow_dvd_pow 2 hless)]
    exact congrArg (· % _) hpending

theorem dropIfDone (h : DeadBitsApart x y) : DeadBitsApart x.dropIfDone y.dropIfDone := by
  cases hdone : x.done with
  | true =>
    have hsame : y.dropIfDone = x.dropIfDone := by
      rw [BitField.dropIfDone_eq, BitField.dropIfDone_eq, h.others]
      simp [hdone]
    exact hsame ▸ refl x.dropIfDone
  | false => rwa [BitField.dropIfDone_of_going hdone, BitField.dropIfDone_of_going (h.done.trans hdone)]

/-- The loop emits the same fields. -/
theorem unpackFields (fuel : Nat) (h : DeadBitsApart x y) (hnb : x.nb ≤ 64) :
    DeadBitsApart (unpackFields fuel x).1 (unpackFields fuel y).1 ∧ (unpackFields fuel y).2 = (unpackFields fuel x).2 := by
  induction fuel generalizing x y with
  | zero => exact ⟨h, rfl⟩
  | succ fuel ih =>
    by_cases hloop : x.done = false ∧ x.width ≤ x.nb
    · obtain ⟨hdone, hwidth⟩ := hloop
      obtain ⟨hregs, hevents⟩ := ih h.afterField (Nat.le_trans (Nat.sub_le x.nb x.width) hnb)
      rw [unpackFields_succ fuel hdone hnb hwidth,
        unpackFields_succ fuel (h.done.trans hdone) (h.nb ▸ hnb) (by rwa [h.width, h.nb]), hevents]
      refine ⟨hregs, ?_⟩
      have hpending := h.pending
      simp only [BitField.pending] at hpending
      rw [hpending, h.nb, h.width]
    · rw [Machine.unpackFields, Machine.unpackFields, if_neg hloop, if_neg (by rwa [h.done, h.width, h.nb])]
      exact ⟨h, rfl⟩

/-- One byte gives the same fields and the same flag. -/
theorem bfuElement (h : DeadBitsApart x y) (b : Byte) (hnb : x.nb ≤ 56) :
    DeadBitsApart (bfuElement x b).regs (bfuElement y b).regs ∧ (bfuElement y b).events = (bfuElement x b).events ∧
      (bfuElement y b).flagged = (bfuElement x b).flagged := by
  cases hdone : x.done with
  | true =>
    rw [bfuElement_of_done hdone, bfuElement_of_done (h.done.trans hdone)]
    exact ⟨h, rfl, rfl⟩
  | false =>
    have hsum : (x.withByte b).nb ≤ 64 := Nat.add_le_add_right hnb 8
    obtain ⟨hregs, hevents⟩ := (h.withByte b hnb).unpackFields (x.nb + 8) hsum
    have hstep : ∀ z : BitField, z.done = false → Machine.bfuElement z b =
        { regs := (Machine.unpackFields (z.nb + 8) (z.withByte b)).1.dropIfDone
          events := (Machine.unpackFields (z.nb + 8) (z.withByte b)).2, bytes := [], flagged := false } :=
      fun z hz => if_neg (by simp [hz])
    rw [hstep x hdone, hstep y (h.done.trans hdone), h.nb]
    exact ⟨hregs.dropIfDone, hevents, rfl⟩

/-- So do any bytes, on a legal unit. -/
theorem feed {p : Params} (h : DeadBitsApart x y) (hx : x.UnpackWf p) (bytes : List Byte) :
    DeadBitsApart (feedWith Machine.bfuElement x bytes).regs (feedWith Machine.bfuElement y bytes).regs ∧
      (feedWith Machine.bfuElement y bytes).events = (feedWith Machine.bfuElement x bytes).events ∧
      (feedWith Machine.bfuElement y bytes).flagged = (feedWith Machine.bfuElement x bytes).flagged := by
  induction bytes generalizing x y with
  | nil => exact ⟨h, rfl, rfl⟩
  | cons b rest ih =>
    obtain ⟨hregs, hevents, hflag⟩ := h.bfuElement b (Nat.le_trans hx.nb_le (by decide))
    obtain ⟨hregs', hevents', hflag'⟩ := ih hregs (bfuElement_keeps p x b hx).1
    simp only [feedWith_cons]
    exact ⟨hregs', by rw [hevents, hevents'], by rw [hflag, hflag']⟩

end DeadBitsApart

/-- Two answers that are the same but for dead bits of BFU.ACC. -/
def AnswersDeadBitsApart (res res' : StepResult) : Prop :=
  ∃ t y, res = .next t ∧ res' = .next (t.setBfu y) ∧ DeadBitsApart t.bfu y

namespace AnswersDeadBitsApart

theorem completes {u : UnitId} {events : List Event} {status : Status} {ret : Ret} {s : State} {y : BitField}
    (h : DeadBitsApart s.bfu y) :
    AnswersDeadBitsApart (complete u events status ret s) (complete u events status ret (s.setBfu y)) :=
  ⟨_, y, complete_eq .., complete_eq .., h⟩

theorem raises {s : State} {y : BitField} (h : DeadBitsApart s.bfu y) (e : Status) :
    AnswersDeadBitsApart (raise e s) (raise e (s.setBfu y)) :=
  ⟨_, y, raise_eq .., raise_eq .., h⟩

/-- CONFIG keeps LAST alone (R110). -/
theorem bfuConfig {s : State} {y : BitField} (h : DeadBitsApart s.bfu y) (ps : List Word) :
    AnswersDeadBitsApart (exec (.bfuConfig ps) s) (exec (.bfuConfig ps) (s.setBfu y)) := by
  have hsame : bitFieldConfig y ps = bitFieldConfig s.bfu ps := by rw [bitFieldConfig, bitFieldConfig, h.last]
  cases hconfig : bitFieldConfig s.bfu ps with
  | none =>
    rw [exec_bfuConfig_refuses hconfig, exec_bfuConfig_refuses (s := s.setBfu y) (hsame.trans hconfig)]
    exact raises h _
  | some r => exact ⟨_, _, exec_bfuConfig_sets hconfig, exec_bfuConfig_sets (s := s.setBfu y) (hsame.trans hconfig), .refl r.1⟩

theorem bfuFeed {s : State} {y : BitField} (h : DeadBitsApart s.bfu y) (hs : s.bfu.UnpackWf s.params) (bytes : List Byte) :
    AnswersDeadBitsApart (exec (.bfuFeed bytes) s) (exec (.bfuFeed bytes) (s.setBfu y)) := by
  by_cases hsup : s.bfu.Supported
  · obtain ⟨hregs, hevents, hflag⟩ := h.feed hs bytes
    have hexec := exec_bfuFeed (s := s.setBfu y) (h.supported_iff.mpr hsup) bytes
    rw [State.setBfu_bfu, hevents, hflag] at hexec
    exact ⟨_, _, exec_bfuFeed hsup bytes, hexec, hregs⟩
  · rw [exec_bfuFeed_unsupported hsup, exec_bfuFeed_unsupported (s := s.setBfu y) (mt h.supported_iff.mp hsup)]
    exact raises h _

/-- FINALIZE leaves no live bit (R125). -/
theorem bfuFin {s : State} {y : BitField} (h : DeadBitsApart s.bfu y) :
    AnswersDeadBitsApart (exec .bfuFin s) (exec .bfuFin (s.setBfu y)) := by
  have hfin : exec .bfuFin (s.setBfu y) =
      complete .bfu [] .ok .none (s.setBfu { y with nb := 0, fidx := 0, cyc := 0, done := false }) := rfl
  rw [hfin, h.others]
  exact completes (s := s.setBfu _) (.of_empty rfl y.acc)

/-- QUERY returns LAST (R126). -/
theorem bfuQuery {s : State} {y : BitField} (h : DeadBitsApart s.bfu y) :
    AnswersDeadBitsApart (exec .bfuQuery s) (exec .bfuQuery (s.setBfu y)) := by
  have hquery : exec .bfuQuery (s.setBfu y) = complete .bfu [] .ok (.value y.last) (s.setBfu y) := rfl
  rw [hquery, h.last]
  exact completes h

end AnswersDeadBitsApart

/-- Two states that hold the same but for the registers of BFU. -/
theorem eq_setBfu {s t : State} (hunits : ∀ u, u ≠ .bfu → SameUnit u t s) (hparams : t.params = s.params) (hport : t.port = s.port)
    (htrace : t.trace = s.trace) : t = s.setBfu t.bfu := by
  obtain ⟨params, b64e, b64d, hexe, hexd, bfp, bfu, crc, cks, port, trace⟩ := t
  obtain rfl : params = s.params := hparams
  obtain rfl : b64e = s.b64e := hunits .b64e nofun
  obtain rfl : b64d = s.b64d := hunits .b64d nofun
  obtain rfl : hexe = s.hexe := hunits .hexe nofun
  obtain rfl : hexd = s.hexd := hunits .hexd nofun
  obtain rfl : bfp = s.bfp := hunits .bfp nofun
  obtain rfl : crc = s.crc := hunits .crc nofun
  obtain rfl : cks = s.cks := hunits .cks nofun
  obtain rfl : port = s.port := hport
  obtain rfl : trace = s.trace := htrace
  rfl

theorem sameUnit_setBfu {u : UnitId} (hu : u ≠ .bfu) (s : State) (y : BitField) : SameUnit u (s.setBfu y) s := by
  cases u with
  | bfu => exact absurd rfl hu
  | _ => rfl

/-- A command of another unit neither reads nor writes the registers of BFU. -/
theorem exec_setBfu {i : Instr} (hi : i.unit ≠ .bfu) (s : State) (y : BitField) :
    ∃ t, exec i s = .next t ∧ exec i (s.setBfu y) = .next (t.setBfu y) ∧ t.bfu = s.bfu := by
  obtain ⟨t, t', out, hexec, hexec', hunit, htrace, htrace'⟩ :=
    exec_alike (i := i) (s1 := s) (s2 := s.setBfu y) (sameUnit_setBfu hi s y).symm rfl
  have hchanges := exec_changesOnly hexec
  have hchanges' := exec_changesOnly hexec'
  have hbfu : t'.bfu = y := hchanges'.registers .bfu hi.symm
  have hunits (u : UnitId) (hu : u ≠ .bfu) : SameUnit u t' t := by
    by_cases hiu : u = i.unit
    · exact hiu ▸ hunit.symm
    · exact ((hchanges'.registers u hiu).trans (sameUnit_setBfu hu s y)).trans (hchanges.registers u hiu).symm
  have ht' := eq_setBfu hunits (hchanges'.params.trans hchanges.params.symm) (hchanges'.port.trans hchanges.port.symm)
    (htrace'.trans htrace.symm)
  exact ⟨t, hexec, hexec'.trans (by rw [ht', hbfu]), hchanges.registers .bfu hi.symm⟩

open AnswersDeadBitsApart in
/-- Every command answers alike on states that differ in dead bits. -/
theorem exec_deadBits {s : State} {y : BitField} (h : DeadBitsApart s.bfu y) (hs : s.bfu.UnpackWf s.params) (i : Instr) :
    AnswersDeadBitsApart (exec i s) (exec i (s.setBfu y)) := by
  by_cases hi : i.unit = .bfu
  · cases i with
    | bfuDescribe => exact completes h
    | bfuReset => exact completes (s := s.setBfu .initial) (.refl _)
    | bfuConfig ps => exact AnswersDeadBitsApart.bfuConfig h ps
    | bfuFeed bytes => exact AnswersDeadBitsApart.bfuFeed h hs bytes
    | bfuFin => exact AnswersDeadBitsApart.bfuFin h
    | bfuQuery => exact AnswersDeadBitsApart.bfuQuery h
    | _ => exact absurd hi nofun
  · obtain ⟨t, hexec, hexec', hbfu⟩ := exec_setBfu hi s y
    exact ⟨t, y, hexec, hexec', hbfu ▸ h⟩

/-- Settles O41: `exec_deadBits`, with the registers of BFU written as those of `t` with another ACC. -/
theorem unpackerDeadBitsAreNeverRead : Obligations.UnpackerDeadBitsAreNeverRead := by
  intro i s a hs ha
  obtain ⟨t, y, hexec, hexec', hy⟩ := exec_deadBits (y := { s.bfu with acc := a }) ⟨rfl, ha⟩ hs.bfu i
  refine ⟨t, y.acc, hexec, ?_, ?_⟩
  · rw [← hy.others]
    exact hexec'
  · have hpending := hy.pending
    rwa [BitField.pending, hy.nb] at hpending

/-! ## The round trip for one width (R127) -/

/-- A CONFIG with one width means the field list of that width: the parameters it leaves out have the defaults (R71, R110). -/
theorem exec_bfpConfig_oneWidth (w ws : Nat) (s : State) :
    exec (.bfpConfig [BitVec.ofNat 32 w, 0, 0, BitVec.ofNat 32 ws]) s = exec (.bfpConfig (listConfig w [] ws)) s := rfl

theorem exec_bfuConfig_oneWidth (w : Nat) (s : State) :
    exec (.bfuConfig [BitVec.ofNat 32 w]) s = exec (.bfuConfig (listConfig w [] 8)) s := rfl

/-- In a field list of one width every field has it. -/
theorem width_of_oneWidth (w j : Nat) : [w].getD (j % 1) 0 = w := by
  rw [Nat.mod_one]
  rfl

theorem bits_of_oneWidth (w n : Nat) : ((List.range n).map fun _ => w).sum = n * w := by
  rw [List.map_const', List.sum_replicate, List.length_range, smul_eq_mul]

/-- The first `m` values, by their indices. -/
theorem map_range_getD {values : List Word} {m : Nat} (hm : m ≤ values.length) :
    (List.range m).map (fun j => values.getD j 0) = values.take m := by
  refine List.ext_getElem (by simp [hm]) fun j hj _ => ?_
  have hvalue : j < values.length := by
    rw [List.length_map, List.length_range] at hj
    omega
  simp [hvalue]

/-- Settles O44: the field list of one width in `bitFieldRoundTripWithAnyFieldList`, where m is the number of whole fields in the words emitted. -/
theorem bitFieldRoundTrip : Obligations.BitFieldRoundTrip := by
  intro s w ws values hw1 hw32 hws
  have hwidths : ∀ v ∈ [w], 1 ≤ v ∧ v ≤ 32 := by simp [hw1, hw32]
  obtain ⟨m, s1, s2, s3, s4, words, hle, hfit, hshort, hconfig, hfeed, htrace, hconfig', hfeed', htrace', hwhole⟩ :=
    bitFieldRoundTripWithAnyFieldList s w [] ws values hwidths hws
  simp only [List.length_nil, Nat.zero_add, width_of_oneWidth, bits_of_oneWidth] at hfit hshort htrace' hwhole
  obtain rfl : values.length * w / ws * ws / w = m := Nat.div_eq_of_lt_le hfit hshort
  refine ⟨s1, s2, s3, s4, words, (exec_bfpConfig_oneWidth w ws s).trans hconfig, hfeed, htrace,
    (exec_bfuConfig_oneWidth w s2).trans hconfig', hfeed', ?_, hwhole⟩
  rw [← map_range_getD hle, List.map_map]
  exact htrace'

end Sys2Proof.Machine

/-! PROOFS. Status codes, power-on, and a FINALIZE after a FINALIZE (60_exceptions.md R148; 10_state.md; 90_conflicts.md C3). -/

namespace Sys2Proof.Machine

/-! ## The status codes (R148) -/

/-- An error is a status other than the four that stand for a completed command. -/
theorem isError_eq_false_iff (st : Status) :
    st.isError = false ↔ st = .ok ∨ st = .okInputRejected ∨ st = .okCfgDefaulted ∨ st = .okStreamComplete := by
  cases st <;> decide

theorem isError_iff (st : Status) : st.isError = true ↔ 1 ≤ st.code.toNat ∧ st.code.toNat ≤ 0x0F := by
  simp [Status.isError]

theorem code_range (st : Status) : st.code.toNat ≤ 0x08 ∨ (0x10 ≤ st.code.toNat ∧ st.code.toNat ≤ 0x12) := by
  cases st <;> decide

/-- Settles O7: the rows of the table, and the classes status by status. -/
theorem statusCodesAreThoseOfTheTable : Obligations.StatusCodesAreThoseOfTheTable :=
  ⟨⟨rfl, rfl, rfl, rfl, rfl, rfl, rfl, rfl, rfl, rfl, rfl, rfl⟩, code_range, isError_iff, isError_eq_false_iff⟩

/-! ## Power-on (R163, R164) -/

theorem B64Enc.wf_initial : B64Enc.initial.Wf := by decide

theorem B64Dec.wf_initial : B64Dec.initial.Wf := by decide

/-- Settles O15: each unit's initial registers are legal, and nothing has been delivered. -/
theorem powerOnMeetsTheBoundaryConditions : Obligations.PowerOnMeetsTheBoundaryConditions := by
  intro p hp
  obtain ⟨hpack, hunpack⟩ := BitField.wf_initial hp
  exact ⟨hp, B64Enc.wf_initial, B64Dec.wf_initial, HexEnc.wf_initial p, HexDec.wf_initial p, hpack, hunpack, nofun⟩

/-! ## A second FINALIZE (C3) -/

/-- A FINALIZE completes with OK on the state that `clear` gives. On a cleared state, whatever has been delivered, `clear` changes nothing,
and there is nothing left to emit but for CRC and CKS, which always emit their result. -/
structure Finalizes (i : Instr) (clear : State → State) (events : State → List Event) (ret : State → Ret) : Prop where
  exec_eq : ∀ s, exec i s = complete i.unit (events s) .ok (ret s) (clear s)
  trace : ∀ s, (clear s).trace = s.trace
  again : ∀ s out, clear { clear s with trace := out } = { clear s with trace := out }
  silent : i ≠ .crcFin → i ≠ .cksFin → ∀ s out, events { clear s with trace := out } = []

theorem Finalizes.twice {i : Instr} {clear : State → State} {events : State → List Event} {ret : State → Ret}
    (h : Finalizes i clear events ret) (s : State) :
    ∃ t1 t2 events ret events' ret', exec i s = .next t1 ∧ exec i t1 = .next t2 ∧
      t1.trace = s.trace ++ outputs i.unit events .ok ret ∧ t2.trace = t1.trace ++ outputs i.unit events' .ok ret' ∧
      SameRegisters t2 t1 ∧ (i ≠ .crcFin → i ≠ .cksFin → events' = []) := by
  have hfirst := (h.exec_eq s).trans (complete_eq ..)
  have hsecond := h.exec_eq { clear s with trace := (clear s).trace ++ outputs i.unit (events s) .ok (ret s) }
  rw [h.again] at hsecond
  obtain ⟨t2, hnext, hsame, htrace2⟩ := complete_sameRegisters i.unit _ .ok _ _
  exact ⟨_, t2, events s, ret s, _, _, hfirst, hsecond.trans hnext, congrArg (· ++ _) (h.trace s), htrace2, hsame,
    fun hcrc hcks => h.silent hcrc hcks s _⟩

/-- What each FINALIZE clears (R82, R89, R98, R106, R118, R125, R133, R143). -/
theorem finalizes_of_fin {i : Instr}
    (hi : i = .b64eFin ∨ i = .b64dFin ∨ i = .hexeFin ∨ i = .hexdFin ∨ i = .bfpFin ∨ i = .bfuFin ∨ i = .crcFin ∨ i = .cksFin) :
    ∃ clear events ret, Finalizes i clear events ret := by
  obtain rfl | rfl | rfl | rfl | rfl | rfl | rfl | rfl := hi
  · exact ⟨fun s => s.setB64e .initial, _, _, fun _ => rfl, fun _ => rfl, fun _ _ => rfl, fun _ _ _ _ => rfl⟩
  · exact ⟨fun s => s.setB64d .initial, _, _, fun _ => rfl, fun _ => rfl, fun _ _ => rfl, fun _ _ _ _ => rfl⟩
  · exact ⟨fun s => s.setHexe { s.hexe with idx := 0 }, _, _, fun _ => rfl, fun _ => rfl, fun _ _ => rfl, fun _ _ _ _ => rfl⟩
  · exact ⟨fun s => s.setHexd { s.hexd with idx := 0, nph := false, nhi := 0 }, _, _, fun _ => rfl, fun _ => rfl, fun _ _ => rfl,
      fun _ _ _ _ => rfl⟩
  · exact ⟨fun s => s.setBfp { s.bfp with acc := 0, nb := 0, fidx := 0, cyc := 0, done := false }, _, _, fun _ => rfl, fun _ => rfl,
      fun _ _ => rfl, fun _ _ _ _ => rfl⟩
  · exact ⟨fun s => s.setBfu { s.bfu with nb := 0, fidx := 0, cyc := 0, done := false }, _, _, fun _ => rfl, fun _ => rfl,
      fun _ _ => rfl, fun _ _ _ _ => rfl⟩
  · exact ⟨fun s => s.setCrc { s.crc with reg := s.crc.init }, _, _, fun _ => rfl, fun _ => rfl, fun _ _ => rfl,
      fun hcrc _ => absurd rfl hcrc⟩
  · exact ⟨fun s => s.setCks { acc := 0 }, _, _, fun _ => rfl, fun _ => rfl, fun _ _ => rfl, fun _ hcks => absurd rfl hcks⟩

/-- Settles O56: the first FINALIZE clears, and the second finds its unit cleared. -/
theorem secondFinalizeChangesNothing : Obligations.SecondFinalizeChangesNothing := by
  intro s i hi
  obtain ⟨clear, events, ret, hfinalizes⟩ := finalizes_of_fin hi
  exact hfinalizes.twice s

end Sys2Proof.Machine
